-- ==== Sys2Proof/Word.lean ====
section
/-! DEFINITION. The word types of the block (R7, R8, R65) and nothing else. -/

namespace Sys2Proof

/-- One byte of a port stream (R61, R63). -/
abbrev Byte := BitVec 8

/-- A header word or a response status word (R65). -/
abbrev Bits32 := BitVec 32

/-- An operand word, a result word or a register (R7, R65). A binary64 value is such a word (R8). -/
abbrev Bits64 := BitVec 64

/-- The INST field of a header, bits 11:8 (R81). -/
abbrev InstNum := BitVec 4

end Sys2Proof
end

