-- ==== Sys2Proof/Config.lean ====
section
/-! DEFINITION. What is fixed per build of the block (R6), and the free values: constants without a body, so that
no proof can see what they are. -/

namespace Sys2Proof

/-- The build parameters a command can observe (R6, R38). -/
structure Build where
  /-- NUM_INST, legal from 1 to 16. -/
  numInst : Nat
  /-- CONV_PRESENT: the option sample_float_fixed_converter is built in (R2). -/
  convPresent : Bool
deriving DecidableEq, Repr

/-- The legal values of the build parameters (R6). -/
def Build.legal (b : Build) : Bool := decide (1 ≤ b.numInst) && decide (b.numInst ≤ 16)

namespace Config

/-- NUM_INST of this hardware (R6, D11). -/
abbrev numInst : Nat := 2

/-- CONV_PRESENT of this hardware (R6, D12). -/
abbrev convPresent : Bool := true

/-- The build parameters of this hardware (R6). -/
abbrev build : Build := { numInst := numInst, convPresent := convPresent }

/-- PI64, the binary64 nearest π (R6, R11). -/
def pi64 : Bits64 := 0x400921FB54442D18

/-- The lower end of the defined sampling-rate range, in Hz (R6). -/
def fsMin : Nat := 8000

/-- The upper end of the defined sampling-rate range, in Hz (R6). -/
def fsMax : Nat := 96000

/-- LATENCY (R6): any value; no rule reads it and nothing in the model does (R208; log 10). -/
opaque latency : Nat

/-- FREE VALUE. The n-th `draw()` of a run: any word, under no law (R12, R41; log 4). -/
opaque draw : Nat → Bits64

/-- FREE VALUE. What reading coefficient register number n gives while the register holds no value. No state that
meets the invariant of R46 is read so (R36, U3; log 6). -/
opaque noValue : Nat → Bits64

/-- FREE VALUE. SIN64 at a word where the model's enclosure of the sine does not decide the rounding
(R6 lets a model keep SIN64 opaque; log 5). -/
opaque sinUndecided : Bits64 → Bits64

/-- FREE VALUE. COS64 at a word where the model's enclosure of the cosine does not decide the rounding
(R6 lets a model keep COS64 opaque; log 5). -/
opaque cosUndecided : Bits64 → Bits64

end Config

end Sys2Proof
end

