-- ==== Sys2Proof/Machine/State.lean ====
section
/-! DEFINITION. The state of the block as plain data (10_state.md), the reasons a step can stop, and the state after a
hardware reset (R47). -/

namespace Sys2Proof.Machine

/-- The registers of one filter instance (R32, R46). -/
structure Inst where
  /-- configured: the coefficient registers hold values (R35) -/
  cfgd : Bool
  /-- the five normalized coefficients; `none` is the spec's own "no value" (R33, R36) -/
  b0 : Option Bits64
  b1 : Option Bits64
  b2 : Option Bits64
  a1 : Option Bits64
  a2 : Option Bits64
  /-- w[n-1] (R34) -/
  w1 : Bits64
  /-- w[n-2] (R34) -/
  w2 : Bits64
deriving DecidableEq, Repr

/-- The result codes the block produces (R85); RC values 3 to 15 do not exist. -/
inductive ResultCode where
  | ok | illegal | notcfg
deriving DecidableEq, Repr

/-- One response: the fields of its status word that vary (R85; NRES is the length of `results`) and its result words in
order (R86). `Response.bytes` (Machine/Ops.lean) is what travels. -/
structure Response where
  rc : ResultCode
  /-- copy of header bits 7:0 of the command answered, as received -/
  opc : Byte
  results : List Bits64
deriving DecidableEq, Repr

structure State where
  /-- the filter instances (R32) -/
  inst : Vector Inst Config.numInst
  /-- sticky: some command was rejected with ILLEGAL (R37) -/
  eIll : Bool
  /-- sticky: some command was rejected with NOTCFG (R37) -/
  eNcfg : Bool
  /-- the spec's model-only mark UNDEF (R40) -/
  undef : Bool
  /-- bytes received of a packet that is not complete (R43) -/
  rx : List Byte
  /-- bytes the host has sent and the block has not accepted yet, oldest first (R70) -/
  held : List Byte
  /-- the response not yet fully sent, if there is one (R70, R200) -/
  tx : Option Response
  /-- the responses sent, oldest first: the model's record of what a run shows (R209) -/
  sent : List Response
  /-- the spec's model "pc": the index of the host program's next command (R31) -/
  pc : Nat
  /-- the model's own counter of free values drawn (R12 `draw()`, R41; log 4) -/
  draws : Nat
  /-- the hardware reset input is asserted (R200) -/
  rst : Bool
deriving DecidableEq, Repr

/-- Why the block takes no step. No instruction's meaning raises one of these. -/
inductive Fault where
  /-- Raised by `step` when no byte is waiting and no response is unsent: the block is idle and keeps its state until the
  host acts (R194, R186). Safe. -/
  | idle
  /-- Raised by `step` when a packet has begun and no further byte is waiting: the block waits for ever, the run is stuck
  (R64, R186). Safe. -/
  | packetIncomplete
deriving DecidableEq, Repr

/-- Why the model gives an instruction no meaning. -/
inductive Refusal where
  /-- Raised by an arm of `exec` whose instruction has no meaning yet; no arm does. Safe. -/
  | notModelled (mnemonic : String)
deriving DecidableEq, Repr

/-- +0.0 (R8). -/
def posZero : Bits64 := 0x0000000000000000

/-- An instance after a hardware reset (R47). -/
def Inst.reset : Inst :=
  { cfgd := false, b0 := none, b1 := none, b2 := none, a1 := none, a2 := none, w1 := posZero, w2 := posZero }

/-- The state after a hardware reset, at the start of a run (R47, R200, R210 (a)). The values of `held`, `sent`, `draws`
and `rst` are the model's (log 4, log 8, log 15). -/
def State.reset : State :=
  { inst := Vector.replicate Config.numInst Inst.reset
    eIll := false
    eNcfg := false
    undef := false
    rx := []
    held := []
    tx := none
    sent := []
    pc := 0
    draws := 0
    rst := false }

end Sys2Proof.Machine
end

