-- ==== Sys2Proof/Machine/Binary64.lean ====
section
/-! DEFINITION. The binary64 primitives of R8 to R10 on words. Every finite value is an integer number of units of
2^-1074, so a result is computed exactly and rounded once, roundTiesToEven (R9; log 11). -/

namespace Sys2Proof.Machine

/-! ## Words (R8) -/

def negZero : Bits64 := 0x8000000000000000
def posInf : Bits64 := 0x7FF0000000000000
def negInf : Bits64 := 0xFFF0000000000000
/-- The canonical quiet NaN, the only NaN a primitive returns (R8, R9). -/
def qnan : Bits64 := 0x7FF8000000000000
def one64 : Bits64 := 0x3FF0000000000000
def negOne64 : Bits64 := 0xBFF0000000000000
def two64 : Bits64 := 0x4000000000000000
def negTwo64 : Bits64 := 0xC000000000000000

def signBit (v : Bits64) : Bool := v.getLsbD 63
def expField (v : Bits64) : Nat := (v.extractLsb' 52 11).toNat
def fracField (v : Bits64) : Nat := (v.extractLsb' 0 52).toNat

def isNaN (v : Bits64) : Bool := expField v == 2047 && fracField v != 0
def isInf (v : Bits64) : Bool := expField v == 2047 && fracField v == 0
def isFinite (v : Bits64) : Bool := expField v != 2047
/-- +0.0 or -0.0. -/
def isZero (v : Bits64) : Bool := expField v == 0 && fracField v == 0

/-! ## Exact values -/

/-- The number of units in 1.0: the unit is 2^-1074, the least subnormal. Irreducible, so that no elaboration writes the
number out; the kernel computes with it all the same. -/
@[irreducible] def unit : Nat := 2 ^ 1074

/-- The magnitude of a finite word, in units. On an infinity it gives 2^52·2^2046, more than every finite magnitude. -/
def units (v : Bits64) : Nat :=
  if expField v = 0 then fracField v else (2 ^ 52 + fracField v) * 2 ^ (expField v - 1)

/-- The value of a finite word, in units; infinities lie beyond every finite value. -/
def sunits (v : Bits64) : Int := if signBit v then -(units v : Int) else units v

/-! ## Rounding (R9: roundTiesToEven) -/

/-- `num / den` rounded to an integer, ties to even. -/
def roundEven (num den : Nat) : Nat :=
  if 2 * (num % den) < den then num / den
  else if den < 2 * (num % den) then num / den + 1
  else num / den + (num / den) % 2

/-- The number of low binary digits a magnitude of `n` whole units has to lose to fit 53 bits. -/
def excess (n : Nat) : Nat := Nat.log2 n - 52

/-- The magnitude bits (bits 62:0) of the binary64 nearest to `num / den` units. A result that reaches the exponent 2047
is an infinity. Rounding up to a power of two carries into the exponent by itself. -/
def roundMag (num den : Nat) : Nat :=
  min (excess (num / den) * 2 ^ 52 + roundEven num (den * 2 ^ excess (num / den))) 0x7FF0000000000000

/-- The word with this sign and these magnitude bits. -/
def pack (neg : Bool) (mag : Nat) : Bits64 := BitVec.ofNat 64 (if neg then 2 ^ 63 + mag else mag)

/-- The binary64 nearest to the non-zero `num / den` units. -/
def roundRatio (num : Int) (den : Nat) : Bits64 := pack (decide (num < 0)) (roundMag num.natAbs den)

/-! ## The primitives (R9) -/

/-- Sign flip; a NaN gives QNAN (R9). -/
def fneg (a : Bits64) : Bits64 := if isNaN a then qnan else a ^^^ negZero

/-- Sum of two finite words. An exact zero is -0.0 only when both operands are -0.0. -/
def faddFinite (a b : Bits64) : Bits64 :=
  if sunits a + sunits b = 0 then (if signBit a && signBit b then negZero else posZero)
  else roundRatio (sunits a + sunits b) 1

def fadd (a b : Bits64) : Bits64 :=
  if isNaN a || isNaN b then qnan
  else if isInf a then (if isInf b && signBit a != signBit b then qnan else a)
  else if isInf b then b
  else faddFinite a b

/-- a - b is a + (-b). -/
def fsub (a b : Bits64) : Bits64 := fadd a (fneg b)

def fmul (a b : Bits64) : Bits64 :=
  if isNaN a || isNaN b then qnan
  else if isInf a || isInf b then
    (if isZero a || isZero b then qnan else if signBit a != signBit b then negInf else posInf)
  else pack (signBit a != signBit b) (roundMag (units a * units b) unit)

def fdiv (a b : Bits64) : Bits64 :=
  if isNaN a || isNaN b then qnan
  else if isInf a then (if isInf b then qnan else if signBit a != signBit b then negInf else posInf)
  else if isInf b then (if signBit a != signBit b then negZero else posZero)
  else if isZero b then (if isZero a then qnan else if signBit a != signBit b then negInf else posInf)
  else pack (signBit a != signBit b) (roundMag (units a * unit) (units b))

/-! ## Conversions, comparisons, truncation (R7, R10) -/

/-- `int_to_f64(n)`, exact for |n| < 2^53 (R7). -/
def intToF64 (n : Int) : Bits64 := roundRatio (n * unit) 1

/-- `u32_to_f64(n)`, exact (R7). -/
def u32ToF64 (n : Bits32) : Bits64 := intToF64 n.toNat

/-- `a < b` on exact values; false with a NaN operand; -0.0 equals +0.0 (R10). -/
def flt (a b : Bits64) : Bool := !isNaN a && !isNaN b && decide (sunits a < sunits b)

/-- `trunc(v)` of a finite word: the integer with the fraction discarded, toward zero (R10). -/
def trunc (v : Bits64) : Int := if signBit v then -((units v / unit : Nat) : Int) else (units v / unit : Nat)

end Sys2Proof.Machine
end

