-- ==== Sys2Proof/Machine/Operands.lean ====
section
/-! DEFINITION. What an operand means (R83) and how a result word is written (R87). An F64 operand is the word as it is. -/

namespace Sys2Proof.Machine

/-- FS: `fs = zext_32(op[31:0])`, a mathematical integer (R83). -/
def fsInt (fs : Bits32) : Nat := fs.toNat

/-- B8: `u = zext_8(op[7:0])`, 0 to 255 (R83). -/
def b8Int (b : Byte) : Int := b.toNat

/-- B16: `v = sext_16(op[15:0])`, -32768 to 32767 (R83). -/
def b16Int (b : BitVec 16) : Int := b.toInt

/-- A B8 result: the code in bits 7:0, bits 63:8 zero (R87). -/
def b8Result (code : Byte) : Bits64 := code.setWidth 64

/-- A B16 result: the first file byte in bits 7:0, the second in 15:8, bits 63:16 zero (R87). -/
def b16Result (code : BitVec 16) : Bits64 := code.setWidth 64

end Sys2Proof.Machine
end

