-- ==== Sys2Proof/Syntax.lean ====
section
/-! DEFINITION. The syntax of the BQF command set: one constructor per row of spec/opcode_table.json (R84). The operands
are decoded as R83 says: F64 a word as it is, FS its 32 integer bits, B8 its byte, B16 its 16 bits (first file byte in
bits 7:0). The must-be-0 bits of an operand word (R82) are the decoder's business and stand in no instruction (log 16). -/

namespace Sys2Proof

inductive Instr where
  /-- BQ.CFGBP (R133): configure instance `i` as a band-pass from f0, g, q, fs. -/
  | cfgbp (i : InstNum) (f0 g q : Bits64) (fs : Bits32)
  /-- BQ.CFGNOTCH (R134): configure instance `i` as a notch from f0, q, fs. -/
  | cfgnotch (i : InstNum) (f0 q : Bits64) (fs : Bits32)
  /-- BQ.RESET (R150): zero the delay registers of instance `i`. -/
  | reset (i : InstNum)
  /-- BQ.TICK (R151): process the sample `x` through instance `i`. -/
  | tick (i : InstNum) (x : Bits64)
  /-- BQ.STATUS (R170): read the STATUS word. -/
  | status
  /-- CV.DEC8 (R111): decode one 8-bit sample code. -/
  | dec8 (b : Byte)
  /-- CV.DEC16 (R112): decode one 16-bit sample code. -/
  | dec16 (b : BitVec 16)
  /-- CV.ENC8 (R113): encode one sample to an 8-bit code. -/
  | enc8 (x : Bits64)
  /-- CV.ENC16 (R114): encode one sample to a 16-bit code. -/
  | enc16 (x : Bits64)
deriving DecidableEq, Repr

/-- The operation of an instruction, without its operands: the rows of the opcode map (R84). -/
inductive Opcode where
  | cfgbp | cfgnotch | reset | tick | status | dec8 | dec16 | enc8 | enc16
deriving DecidableEq, Repr

def Instr.op : Instr → Opcode
  | .cfgbp .. => .cfgbp
  | .cfgnotch .. => .cfgnotch
  | .reset .. => .reset
  | .tick .. => .tick
  | .status => .status
  | .dec8 .. => .dec8
  | .dec16 .. => .dec16
  | .enc8 .. => .enc8
  | .enc16 .. => .enc16

/-- The INST field of an instruction: its instance number, 0 where the row has INST "0" (R84). -/
def Instr.inst : Instr → InstNum
  | .cfgbp i .. => i
  | .cfgnotch i .. => i
  | .reset i => i
  | .tick i _ => i
  | .status => 0
  | .dec8 _ => 0
  | .dec16 _ => 0
  | .enc8 _ => 0
  | .enc16 _ => 0

/-- The instance whose registers a command may read or write: the one its INST field selects, none for the commands
that take no instance (R32, R84). -/
def Instr.selects : Instr → Option InstNum
  | .cfgbp i .. => some i
  | .cfgnotch i .. => some i
  | .reset i => some i
  | .tick i _ => some i
  | .status => none
  | .dec8 _ => none
  | .dec16 _ => none
  | .enc8 _ => none
  | .enc16 _ => none

end Sys2Proof
end

