-- ==== Sys2Proof/WellFormed.lean ====
section
/-! DEFINITION. When an instruction term is one the build can be sent (R84, R89): the instance exists (R181 (f)), the
converter is present (R181 (c)). The other ILLEGAL causes have no instruction term: the decoder refuses them. -/

namespace Sys2Proof

/-- The instruction is well-formed for the build `b`. -/
def Instr.wf (b : Build) : Instr → Bool
  | .cfgbp i _ _ _ _ => decide (i.toNat < b.numInst)
  | .cfgnotch i _ _ _ => decide (i.toNat < b.numInst)
  | .reset i => decide (i.toNat < b.numInst)
  | .tick i _ => decide (i.toNat < b.numInst)
  | .status => true
  | .dec8 _ => b.convPresent
  | .dec16 _ => b.convPresent
  | .enc8 _ => b.convPresent
  | .enc16 _ => b.convPresent

end Sys2Proof
end

