-- ==== Sys2Proof/Decode.lean ====
section
/-! DEFINITION. The port's words and packets (R62, R63, R81, R82), the opcode map (R84), the decoder (R88), total on any
bytes and refusing by name, and the encoder written from the same tables (R91). -/

namespace Sys2Proof

/-! ## Byte order (R63): the least significant byte travels first -/

/-- A 32-bit word as the four bytes that travel, in order. -/
def bytes32 (w : Bits32) : List Byte :=
  [w.extractLsb' 0 8, w.extractLsb' 8 8, w.extractLsb' 16 8, w.extractLsb' 24 8]

/-- A 64-bit word as the eight bytes that travel, in order. -/
def bytes64 (w : Bits64) : List Byte :=
  [w.extractLsb' 0 8, w.extractLsb' 8 8, w.extractLsb' 16 8, w.extractLsb' 24 8,
   w.extractLsb' 32 8, w.extractLsb' 40 8, w.extractLsb' 48 8, w.extractLsb' 56 8]

/-- The 32-bit word four bytes stand for, the first byte least significant. -/
def word32 (b0 b1 b2 b3 : Byte) : Bits32 := b3 ++ b2 ++ b1 ++ b0

/-- The 64-bit word eight bytes stand for, the first byte least significant. -/
def word64 (b0 b1 b2 b3 b4 b5 b6 b7 : Byte) : Bits64 := b7 ++ b6 ++ b5 ++ b4 ++ b3 ++ b2 ++ b1 ++ b0

/-! ## The header word (R81) -/

def headerOpc (h : Bits32) : Byte := h.extractLsb' 0 8
def headerInst (h : Bits32) : InstNum := h.extractLsb' 8 4
def headerNops (h : Bits32) : BitVec 4 := h.extractLsb' 12 4
def headerRsv (h : Bits32) : BitVec 16 := h.extractLsb' 16 16

/-- The header word with these fields. -/
def headerWord (opc : Byte) (inst : InstNum) (nops : BitVec 4) (rsv : BitVec 16) : Bits32 := rsv ++ nops ++ inst ++ opc

/-! ## Operand and result formats (R80, R82, R87) -/

/-- The four operand word formats. -/
inductive OperandFormat where
  | f64 | fs | b8 | b16
deriving DecidableEq, Repr

/-- No must-be-0 bit of an operand word of this format is set (R82). -/
def OperandFormat.legal : OperandFormat → Bits64 → Bool
  | .f64, _ => true
  | .fs, w => w.extractLsb' 32 32 == 0
  | .b8, w => w.extractLsb' 8 56 == 0
  | .b16, w => w.extractLsb' 16 48 == 0

/-- The four result word formats. -/
inductive ResultFormat where
  | f64 | b8 | b16 | st
deriving DecidableEq, Repr

/-! ## The opcode map (R84) -/

/-- One row of the opcode map. NOPS and NRES are the lengths of the lists. -/
structure OpRow where
  code : Byte
  op : Opcode
  /-- column INST: true for "i", false for "0" -/
  takesInst : Bool
  /-- the row exists only when CONV_PRESENT = 1 -/
  converter : Bool
  operands : List OperandFormat
  results : List ResultFormat
deriving DecidableEq, Repr

def opcodeTable : List OpRow :=
  [ { code := 0x01, op := .cfgbp, takesInst := true, converter := false, operands := [.f64, .f64, .f64, .fs], results := [] },
    { code := 0x02, op := .cfgnotch, takesInst := true, converter := false, operands := [.f64, .f64, .fs], results := [] },
    { code := 0x03, op := .reset, takesInst := true, converter := false, operands := [], results := [] },
    { code := 0x04, op := .tick, takesInst := true, converter := false, operands := [.f64], results := [.f64] },
    { code := 0x08, op := .status, takesInst := false, converter := false, operands := [], results := [.st] },
    { code := 0x10, op := .dec8, takesInst := false, converter := true, operands := [.b8], results := [.f64] },
    { code := 0x11, op := .dec16, takesInst := false, converter := true, operands := [.b16], results := [.f64] },
    { code := 0x12, op := .enc8, takesInst := false, converter := true, operands := [.f64], results := [.b8] },
    { code := 0x13, op := .enc16, takesInst := false, converter := true, operands := [.f64], results := [.b16] } ]

/-- The row of an OPC value, none where R84 has no row. -/
def rowOfCode (c : Byte) : Option OpRow := opcodeTable.find? (fun r => r.code == c)

/-- The OPC value of an operation (R84). -/
def Opcode.code : Opcode → Byte
  | .cfgbp => 0x01
  | .cfgnotch => 0x02
  | .reset => 0x03
  | .tick => 0x04
  | .status => 0x08
  | .dec8 => 0x10
  | .dec16 => 0x11
  | .enc8 => 0x12
  | .enc16 => 0x13

/-! ## Packets and framing (R62, R64, R90) -/

/-- A command packet: its header word and its operand words, in order. -/
structure Packet where
  header : Bits32
  ops : List Bits64
deriving DecidableEq, Repr

/-- The bytes of a packet as they travel (R62, R63). -/
def Packet.bytes (p : Packet) : List Byte := bytes32 p.header ++ p.ops.flatMap bytes64

/-- The next `n` operand words of a byte stream and what follows them, none while they have not all arrived. -/
def takeWords : Nat → List Byte → Option (List Bits64 × List Byte)
  | 0, bs => some ([], bs)
  | n + 1, b0 :: b1 :: b2 :: b3 :: b4 :: b5 :: b6 :: b7 :: bs =>
    match takeWords n bs with
    | some (ws, rest) => some (word64 b0 b1 b2 b3 b4 b5 b6 b7 :: ws, rest)
    | none => none
  | _ + 1, _ => none

/-- The first packet of a byte stream and the bytes after it, none while the packet is not complete. Its end is found
from the NOPS field alone, whatever the rest of the header holds (R62, R90). -/
def frame : List Byte → Option (Packet × List Byte)
  | b0 :: b1 :: b2 :: b3 :: bs =>
    match takeWords (headerNops (word32 b0 b1 b2 b3)).toNat bs with
    | some (ws, rest) => some ({ header := word32 b0 b1 b2 b3, ops := ws }, rest)
    | none => none
  | _ => none

/-! ## Decoding (R88) -/

/-- Why bytes are no instruction: the packet is not complete (R64), or one of the ILLEGAL causes of R181. -/
inductive DecodeError where
  /-- the packet is not complete yet (R64): no reject, the block waits -/
  | incomplete
  /-- (a) header bits 31:16 are non-zero -/
  | reservedHeaderBits
  /-- (b) OPC is not in R84 -/
  | unknownOpcode
  /-- (c) OPC is 0x10 to 0x13 and CONV_PRESENT = 0 -/
  | converterAbsent
  /-- (d) NOPS differs from the opcode's count -/
  | operandCount
  /-- (e) INST is not 0 for BQ.STATUS or CV.* -/
  | instMustBeZero
  /-- (f) INST is not below NUM_INST for an instance command -/
  | instOutOfRange
  /-- (g) a must-be-0 bit of an FS, B8 or B16 operand is set -/
  | operandBits
deriving DecidableEq, Repr

/-- The instruction of a row from its INST field and operand words, assembled as R83 says. -/
def assemble (op : Opcode) (i : InstNum) (ops : List Bits64) : Except DecodeError Instr :=
  match op with
  | .cfgbp =>
    (match ops with
    | [f0, g, q, fs] => .ok (.cfgbp i f0 g q (fs.extractLsb' 0 32))
    | _ => .error .operandCount)
  | .cfgnotch =>
    (match ops with
    | [f0, q, fs] => .ok (.cfgnotch i f0 q (fs.extractLsb' 0 32))
    | _ => .error .operandCount)
  | .reset =>
    (match ops with
    | [] => .ok (.reset i)
    | _ => .error .operandCount)
  | .tick =>
    (match ops with
    | [x] => .ok (.tick i x)
    | _ => .error .operandCount)
  | .status =>
    (match ops with
    | [] => .ok .status
    | _ => .error .operandCount)
  | .dec8 =>
    (match ops with
    | [b] => .ok (.dec8 (b.extractLsb' 0 8))
    | _ => .error .operandCount)
  | .dec16 =>
    (match ops with
    | [b] => .ok (.dec16 (b.extractLsb' 0 16))
    | _ => .error .operandCount)
  | .enc8 =>
    (match ops with
    | [x] => .ok (.enc8 x)
    | _ => .error .operandCount)
  | .enc16 =>
    (match ops with
    | [x] => .ok (.enc16 x)
    | _ => .error .operandCount)

/-- Every operand word is legal in the format of its place (R82). -/
def operandsLegal (formats : List OperandFormat) (ops : List Bits64) : Bool :=
  (List.zipWith OperandFormat.legal formats ops).all id

/-- The checks of a row, in the order (c) to (g) of R181, then the operands. -/
def decodeRow (b : Build) (row : OpRow) (p : Packet) : Except DecodeError Instr :=
  if row.converter && !b.convPresent then .error .converterAbsent
  else if (headerNops p.header).toNat ≠ row.operands.length then .error .operandCount
  else if !row.takesInst && headerInst p.header != 0 then .error .instMustBeZero
  else if row.takesInst && decide (b.numInst ≤ (headerInst p.header).toNat) then .error .instOutOfRange
  else if !operandsLegal row.operands p.ops then .error .operandBits
  else assemble row.op (headerInst p.header) p.ops

/-- The block's decoding of a complete packet (R88), for the build `b`. -/
def decodePacket (b : Build) (p : Packet) : Except DecodeError Instr :=
  if headerRsv p.header ≠ 0 then .error .reservedHeaderBits
  else match rowOfCode (headerOpc p.header) with
    | none => .error .unknownOpcode
    | some row => decodeRow b row p

/-- Decoding of a byte stream: the first packet's instruction and the bytes after it. -/
def decode (b : Build) (bs : List Byte) : Except DecodeError (Instr × List Byte) :=
  match frame bs with
  | none => .error .incomplete
  | some (p, rest) =>
    match decodePacket b p with
    | .ok i => .ok (i, rest)
    | .error e => .error e

/-! ## Encoding (R81, R82, R91) -/

/-- The operand words of an instruction, in order (R82, R84). -/
def Instr.operandWords : Instr → List Bits64
  | .cfgbp _ f0 g q fs => [f0, g, q, fs.setWidth 64]
  | .cfgnotch _ f0 q fs => [f0, q, fs.setWidth 64]
  | .reset _ => []
  | .tick _ x => [x]
  | .status => []
  | .dec8 b => [b.setWidth 64]
  | .dec16 b => [b.setWidth 64]
  | .enc8 x => [x]
  | .enc16 x => [x]

/-- The header word of an instruction (R81, R91). -/
def Instr.header (i : Instr) : Bits32 :=
  headerWord i.op.code i.inst (BitVec.ofNat 4 i.operandWords.length) 0

/-- The packet of an instruction. -/
def encodePacket (i : Instr) : Packet := { header := i.header, ops := i.operandWords }

/-- The bytes of an instruction as the host sends them. -/
def encode (i : Instr) : List Byte := (encodePacket i).bytes

/-! ## Words numbered as spec/opcode_table.json numbers them -/

/-- The first `n` bytes of the number `w`, least significant first: bit 0 of `w` is bit 0 of the first byte. -/
def numberBytes : Nat → Nat → List Byte
  | 0, _ => []
  | n + 1, w => BitVec.ofNat 8 w :: numberBytes n (w / 256)

/-- The length in bytes of the longest packet (R90). -/
def maxPacketBytes : Nat := 124

/-- The instruction the decoder reads from the bits `w`, everything above `nbits` being 0. -/
def decodeTableWord (nbits w : Nat) : Option Instr :=
  match decode Config.build (numberBytes maxPacketBytes (w % 2 ^ nbits)) with
  | .ok (i, _) => some i
  | .error _ => none

end Sys2Proof
end

