-- ==== Sys2Proof/Machine/Flags.lean ====
section
/-! DEFINITION. The only flags of the block: the sticky error bits (R37, R183) and the STATUS word that shows them
(R39, R170). There are no condition codes and no floating-point flags (R37, R184). -/

namespace Sys2Proof.Machine

/-- The sticky bit a reject with this result code sets (R183). Completion sets none. -/
def setSticky : ResultCode → State → State
  | .ok, s => s
  | .illegal, s => { s with eIll := true }
  | .notcfg, s => { s with eNcfg := true }

/-- The CFGD field, bits 15:0: bit k is the k-th configured bit, bits past the list read 0 (R39). -/
def cfgdField : List Bool → BitVec 16
  | [] => 0
  | c :: cs => (cfgdField cs) <<< 1 ||| (BitVec.ofBool c).setWidth 16

/-- The STATUS word of a build, from the configured bits and the sticky bits (R39, R170). From the top:
reserved 63:37, CONV 36, NINST_M1 35:32, reserved 31:18, E_NCFG 17, E_ILL 16, CFGD 15:0. -/
def statusWord (b : Build) (cfgd : List Bool) (eIll eNcfg : Bool) : Bits64 :=
  (0 : BitVec 27) ++ BitVec.ofBool b.convPresent ++ BitVec.ofNat 4 (b.numInst - 1) ++ (0 : BitVec 14)
    ++ BitVec.ofBool eNcfg ++ BitVec.ofBool eIll ++ cfgdField cfgd

/-- The STATUS word of a state (R39). -/
def State.status (s : State) : Bits64 :=
  statusWord Config.build (s.inst.toList.map Inst.cfgd) s.eIll s.eNcfg

end Sys2Proof.Machine
end

