-- ==== Sys2Proof/Machine/Ops.lean ====
section
/-! DEFINITION. The shared operations over the state (R12): answering and rejecting a command, selecting an instance,
reading and writing its registers, the UNDEF mark and draws; and the bytes of a response (R85 to R87). The block has no
traps: a reject is the one exceptional ending of a command, and it is one operation, `reject` (R180, R183). -/

namespace Sys2Proof.Machine

/-! ## Responses on the port (R85, R86) -/

/-- The RC field of a result code (R85). -/
def ResultCode.code : ResultCode → BitVec 4
  | .ok => 0
  | .illegal => 1
  | .notcfg => 2

/-- Format S: RC 3:0, reserved 7:4, OPC 15:8, NRES 19:16, reserved 31:20 (R85). -/
def Response.statusWord (r : Response) : Bits32 :=
  (0 : BitVec 12) ++ BitVec.ofNat 4 r.results.length ++ r.opc ++ (0 : BitVec 4) ++ r.rc.code

/-- The bytes of a response as they travel (R62, R63, R86). -/
def Response.bytes (r : Response) : List Byte := bytes32 r.statusWord ++ r.results.flatMap bytes64

/-! ## Ending a command -/

/-- `respond(rc, results)` (R86): the response waits to be sent and the program index advances by one, whether the
command completed or was rejected (R31; log 7). -/
def respond (opc : Byte) (rc : ResultCode) (results : List Bits64) (s : State) : Host.Outcome State Fault Refusal :=
  .next { s with tx := some { rc := rc, opc := opc, results := results }, pc := s.pc + 1 }

/-- `reject(rc)` (R183): the sticky bit of `rc`, a response without result words, and nothing else. -/
def reject (opc : Byte) (rc : ResultCode) (s : State) : Host.Outcome State Fault Refusal :=
  respond opc rc [] (setSticky rc s)

/-! ## Instances -/

/-- Runs `k` on the instance that INST selects. INST >= NUM_INST is cause (f) of R181: rejected with ILLEGAL. -/
def onInst (op : Opcode) (i : InstNum) (s : State)
    (k : Fin Config.numInst → Host.Outcome State Fault Refusal) : Host.Outcome State Fault Refusal :=
  if h : i.toNat < Config.numInst then k ⟨i.toNat, h⟩ else reject op.code .illegal s

/-- The registers of instance `k`. -/
def State.getInst (s : State) (k : Fin Config.numInst) : Inst := s.inst[k]

/-- `s` with the registers of instance `k` replaced. -/
def State.setInst (s : State) (k : Fin Config.numInst) (r : Inst) : State := { s with inst := s.inst.set k r }

/-- The five normalized coefficients as values (R33). -/
structure Coeffs where
  b0 : Bits64
  b1 : Bits64
  b2 : Bits64
  a1 : Bits64
  a2 : Bits64
deriving DecidableEq, Repr

/-- The coefficient registers as they read: a register that holds no value reads as a free value (log 6). -/
def Inst.coeffs (r : Inst) : Coeffs :=
  { b0 := r.b0.getD (Config.noValue 0)
    b1 := r.b1.getD (Config.noValue 1)
    b2 := r.b2.getD (Config.noValue 2)
    a1 := r.a1.getD (Config.noValue 3)
    a2 := r.a2.getD (Config.noValue 4) }

/-- The registers a configure command leaves: these coefficients, delay registers at +0.0, `cfgd` set, whatever the
instance held before (R136). -/
def Coeffs.construct (c : Coeffs) : Inst :=
  { cfgd := true, b0 := some c.b0, b1 := some c.b1, b2 := some c.b2, a1 := some c.a1, a2 := some c.a2,
    w1 := posZero, w2 := posZero }

/-- `r` with these delay registers. -/
def Inst.withDelays (r : Inst) (w1 w2 : Bits64) : Inst := { r with w1 := w1, w2 := w2 }

/-! ## UNDEF and draws -/

/-- `mark UNDEF` (R40). -/
def State.markUndef (s : State) : State := { s with undef := true }

/-- The five coefficients of a configure command outside its domain: independent draws, in the order b0, b1, b2, a1, a2
(R132). -/
def State.drawnCoeffs (s : State) : Coeffs :=
  { b0 := Config.draw s.draws
    b1 := Config.draw (s.draws + 1)
    b2 := Config.draw (s.draws + 2)
    a1 := Config.draw (s.draws + 3)
    a2 := Config.draw (s.draws + 4) }

/-- `s` after five draws: none of them is drawn again. -/
def State.afterDraws (s : State) : State := { s with draws := s.draws + 5 }

/-! ## The two endings of a configure command -/

/-- Inside the domain: construct instance `k` with the computed coefficients and answer OK (R133, R134, R136). -/
def configure (op : Opcode) (k : Fin Config.numInst) (c : Coeffs) (s : State) : Host.Outcome State Fault Refusal :=
  respond op.code .ok [] (s.setInst k c.construct)

/-- Outside the domain: mark UNDEF, construct instance `k` with five draws and answer OK (R132). -/
def configureUndefined (op : Opcode) (k : Fin Config.numInst) (s : State) : Host.Outcome State Fault Refusal :=
  respond op.code .ok [] ((s.setInst k s.drawnCoeffs.construct).afterDraws.markUndef)

end Sys2Proof.Machine
end

