-- ==== Sys2Proof/Machine/Trig.lean ====
section
/-! DEFINITION. SIN64 and COS64 (R6, R11, D7): correctly rounded sine and cosine. Two consecutive Taylor sums enclose the
value; where both round to one word that word is the answer, elsewhere the answer is a free value (log 5). -/

namespace Sys2Proof.Machine

/-- A Taylor sum in Horner's form, as a numerator over a positive denominator:
1 - (a/b)/c k · (1 - (a/b)/c (k+1) · (…)), with `t` nested terms. -/
def horner (a b : Nat) (c : Nat → Nat) : Nat → Nat → Int × Nat
  | 0, _ => (1, 1)
  | t + 1, k =>
    (((b * c k * (horner a b c t (k + 1)).2 : Nat) : Int) - a * (horner a b c t (k + 1)).1,
     b * c k * (horner a b c t (k + 1)).2)

/-- The divisors of the sine series: (2k+2)(2k+3). -/
def sinDivisor (k : Nat) : Nat := (2 * k + 2) * (2 * k + 3)

/-- The divisors of the cosine series: (2k+1)(2k+2). -/
def cosDivisor (k : Nat) : Nat := (2 * k + 1) * (2 * k + 2)

/-- The sum x - x³/3! + … of `t + 1` terms for x = `n` units, as a ratio in units. -/
def sinSum (t n : Nat) : Int × Nat :=
  (n * (horner (n * n) (unit * unit) sinDivisor t 0).1, (horner (n * n) (unit * unit) sinDivisor t 0).2)

/-- The sum 1 - x²/2! + … of `t + 1` terms for x = `n` units, as a ratio in units. -/
def cosSum (t n : Nat) : Int × Nat :=
  (unit * (horner (n * n) (unit * unit) cosDivisor t 0).1, (horner (n * n) (unit * unit) cosDivisor t 0).2)

/-- The number of nested terms of the upper sum; it is even, so the sum ends in a positive term. -/
def trigTerms : Nat := 40

/-- The sine of a non-zero finite magnitude of `n` units, where the enclosure decides its rounding. -/
def sinDecided (n : Nat) : Option Bits64 :=
  if roundRatio (sinSum (trigTerms + 1) n).1 (sinSum (trigTerms + 1) n).2
      = roundRatio (sinSum trigTerms n).1 (sinSum trigTerms n).2
  then some (roundRatio (sinSum trigTerms n).1 (sinSum trigTerms n).2)
  else none

/-- The cosine of a finite magnitude of `n` units, where the enclosure decides its rounding. -/
def cosDecided (n : Nat) : Option Bits64 :=
  if roundRatio (cosSum (trigTerms + 1) n).1 (cosSum (trigTerms + 1) n).2
      = roundRatio (cosSum trigTerms n).1 (cosSum trigTerms n).2
  then some (roundRatio (cosSum trigTerms n).1 (cosSum trigTerms n).2)
  else none

/-- SIN64 (R6, R11). The sine is odd, and keeps the sign of a zero. -/
def sin64 (v : Bits64) : Bits64 :=
  if !isFinite v then qnan
  else if isZero v then v
  else match sinDecided (units v) with
    | some r => if signBit v then fneg r else r
    | none => Config.sinUndecided v

/-- COS64 (R6, R11). The cosine is even. -/
def cos64 (v : Bits64) : Bits64 :=
  if !isFinite v then qnan
  else match cosDecided (units v) with
    | some r => r
    | none => Config.cosUndecided v

end Sys2Proof.Machine
end

