-- ==== Sys2Proof/Machine/Configure.lean ====
section
/-! DEFINITION. The filter configuration family: BQ.CFGBP and BQ.CFGNOTCH (41_filter_config.md). -/

namespace Sys2Proof.Machine

/-- TWO_PI64 = fmul(2.0, PI64) (R11). -/
def twoPi64 : Bits64 := fmul two64 Config.pi64

/-- What both configure commands derive (R130). -/
structure Derived where
  cs : Bits64
  al : Bits64
  a0 : Bits64
deriving DecidableEq, Repr

/-- ω0 = ((2·π)·f0)/fs (R130). -/
def omega0 (f0 : Bits64) (fs : Bits32) : Bits64 := fdiv (fmul twoPi64 f0) (u32ToF64 fs)

/-- α = sin(ω0)/(2q) (R130). -/
def alpha (f0 q : Bits64) (fs : Bits32) : Bits64 := fdiv (sin64 (omega0 f0 fs)) (fmul two64 q)

/-- `Derive(f0, q, fs)` (R130). -/
def derive (f0 q : Bits64) (fs : Bits32) : Derived :=
  { cs := cos64 (omega0 f0 fs), al := alpha f0 q fs, a0 := fadd one64 (alpha f0 q fs) }

/-- DOM_N: finite f0 and q, 8000 <= fs <= 96000, 0 < f0 < fs/2, all exact (R131). -/
def domN (f0 q : Bits64) (fs : Bits32) : Bool :=
  isFinite f0 && isFinite q && decide (Config.fsMin ≤ fsInt fs) && decide (fsInt fs ≤ Config.fsMax)
    && decide (0 < sunits f0) && decide (2 * sunits f0 < (fsInt fs * unit : Nat))

/-- DOM_BP (R131). -/
def domBP (f0 g q : Bits64) (fs : Bits32) : Bool := domN f0 q fs && isFinite g

/-- Normalization: "all of b0,b1,b2,a1,a2 by dividing by a0" (R133, R134). -/
def Coeffs.normalized (c : Coeffs) (a0 : Bits64) : Coeffs :=
  { b0 := fdiv c.b0 a0, b1 := fdiv c.b1 a0, b2 := fdiv c.b2 a0, a1 := fdiv c.a1 a0, a2 := fdiv c.a2 a0 }

/-- The band-pass coefficients before normalization: b0 = g·α, b1 = 0, b2 = -g·α, a1 = -2·cos(ω0), a2 = 1-α (R133). -/
def rawBandPass (d : Derived) (g : Bits64) : Coeffs :=
  { b0 := fmul g d.al, b1 := posZero, b2 := fneg (fmul g d.al), a1 := fmul negTwo64 d.cs, a2 := fsub one64 d.al }

/-- The notch coefficients before normalization: b0 = b2 = 1, b1 = a1 = -2·cos(ω0), a2 = 1-α (R134). -/
def rawNotch (d : Derived) : Coeffs :=
  { b0 := one64, b1 := fmul negTwo64 d.cs, b2 := one64, a1 := fmul negTwo64 d.cs, a2 := fsub one64 d.al }

/-- The coefficients BQ.CFGBP writes inside DOM_BP (R133). -/
def bandPass (f0 g q : Bits64) (fs : Bits32) : Coeffs :=
  (rawBandPass (derive f0 q fs) g).normalized (derive f0 q fs).a0

/-- The coefficients BQ.CFGNOTCH writes inside DOM_N (R134). -/
def notch (f0 q : Bits64) (fs : Bits32) : Coeffs :=
  (rawNotch (derive f0 q fs)).normalized (derive f0 q fs).a0

/-- BQ.CFGBP (R133; R132 outside DOM_BP). -/
def execCfgbp (i : InstNum) (f0 g q : Bits64) (fs : Bits32) (s : State) : Host.Outcome State Fault Refusal :=
  onInst .cfgbp i s fun k =>
    if domBP f0 g q fs then configure .cfgbp k (bandPass f0 g q fs) s else configureUndefined .cfgbp k s

/-- BQ.CFGNOTCH (R134; R132 outside DOM_N). -/
def execCfgnotch (i : InstNum) (f0 q : Bits64) (fs : Bits32) (s : State) : Host.Outcome State Fault Refusal :=
  onInst .cfgnotch i s fun k =>
    if domN f0 q fs then configure .cfgnotch k (notch f0 q fs) s else configureUndefined .cfgnotch k s

end Sys2Proof.Machine
end

