-- ==== Sys2Proof/Machine/Convert.lean ====
section
/-! DEFINITION. The sample converter family: CV.DEC8, CV.DEC16, CV.ENC8, CV.ENC16 (40_converter.md). -/

namespace Sys2Proof.Machine

/-- 2^-7 (R111). -/
def scale8 : Bits64 := 0x3F80000000000000
/-- 2^-15 (R112). -/
def scale16 : Bits64 := 0x3F00000000000000
/-- 127.0 (R113). -/
def full8 : Bits64 := 0x405FC00000000000
/-- 32767.0 (R114). -/
def full16 : Bits64 := 0x40DFFFC000000000

/-- `clamp(x)` into [-1.0, 1.0]; a NaN clamps to +0.0 (R110). -/
def clamp (x : Bits64) : Bits64 :=
  if isNaN x then posZero
  else if flt one64 x then one64
  else if flt x negOne64 then negOne64
  else x

/-- The value of an 8-bit code: (u - 128)·2^-7 (R111). -/
def dec8Value (b : Byte) : Bits64 := fmul (intToF64 (b8Int b - 128)) scale8

/-- The value of a 16-bit code: v·2^-15 (R112). -/
def dec16Value (b : BitVec 16) : Bits64 := fmul (intToF64 (b16Int b)) scale16

/-- The truncated scaled sample of the 8-bit encoder, -127 to 127 (R113). -/
def enc8Trunc (x : Bits64) : Int := trunc (fmul (clamp x) full8)

/-- The 8-bit code: the bias is added after truncation (R113). -/
def enc8Code (x : Bits64) : Byte := BitVec.ofInt 8 (enc8Trunc x + 128)

/-- The truncated scaled sample of the 16-bit encoder, -32767 to 32767 (R114). -/
def enc16Trunc (x : Bits64) : Int := trunc (fmul (clamp x) full16)

/-- The 16-bit code, two's complement (R114). -/
def enc16Code (x : Bits64) : BitVec 16 := BitVec.ofInt 16 (enc16Trunc x)

/-- CV.DEC8 (R111). -/
def execDec8 (b : Byte) (s : State) : Host.Outcome State Fault Refusal := respond Opcode.dec8.code .ok [dec8Value b] s

/-- CV.DEC16 (R112). -/
def execDec16 (b : BitVec 16) (s : State) : Host.Outcome State Fault Refusal :=
  respond Opcode.dec16.code .ok [dec16Value b] s

/-- CV.ENC8 (R113). -/
def execEnc8 (x : Bits64) (s : State) : Host.Outcome State Fault Refusal :=
  respond Opcode.enc8.code .ok [b8Result (enc8Code x)] s

/-- CV.ENC16 (R114). -/
def execEnc16 (x : Bits64) (s : State) : Host.Outcome State Fault Refusal :=
  respond Opcode.enc16.code .ok [b16Result (enc16Code x)] s

end Sys2Proof.Machine
end

