-- ==== Sys2Proof/Machine/Run.lean ====
section
/-! DEFINITION. The filter run family: BQ.RESET and BQ.TICK (42_filter_run.md). -/

namespace Sys2Proof.Machine

/-- w = (x - a1·w1) - a2·w2, each operation rounded, from the old delay registers (R151). -/
def tickW (c : Coeffs) (w1 w2 x : Bits64) : Bits64 := fsub (fsub x (fmul c.a1 w1)) (fmul c.a2 w2)

/-- y = (b0·w + b1·w1) + b2·w2, with the new w and the old delay registers (R151, R152). -/
def tickY (c : Coeffs) (w w1 w2 : Bits64) : Bits64 := fadd (fadd (fmul c.b0 w) (fmul c.b1 w1)) (fmul c.b2 w2)

/-- The output of one tick of an instance's registers (R151). -/
def Inst.tickOut (r : Inst) (x : Bits64) : Bits64 := tickY r.coeffs (tickW r.coeffs r.w1 r.w2 x) r.w1 r.w2

/-- The registers after one tick: w2 <- w1, w1 <- w (R151). -/
def Inst.tickNext (r : Inst) (x : Bits64) : Inst := r.withDelays (tickW r.coeffs r.w1 r.w2 x) r.w1

/-- BQ.RESET: both delay registers +0.0; coefficients and `cfgd` stay; never rejected for `cfgd = 0` (R150). -/
def execReset (i : InstNum) (s : State) : Host.Outcome State Fault Refusal :=
  onInst .reset i s fun k =>
    respond Opcode.reset.code .ok [] (s.setInst k ((s.getInst k).withDelays posZero posZero))

/-- BQ.TICK (R151): NOTCFG when `cfgd = 0`, no register read or written; else one step of the recurrence. -/
def execTick (i : InstNum) (x : Bits64) (s : State) : Host.Outcome State Fault Refusal :=
  onInst .tick i s fun k =>
    if (s.getInst k).cfgd then
      respond Opcode.tick.code .ok [(s.getInst k).tickOut x] (s.setInst k ((s.getInst k).tickNext x))
    else reject Opcode.tick.code .notcfg s

end Sys2Proof.Machine
end

