-- ==== Sys2Proof/Machine/Status.lean ====
section
/-! DEFINITION. The status family: BQ.STATUS (43_status.md). -/

namespace Sys2Proof.Machine

/-- BQ.STATUS: return the STATUS word; no state is cleared by reading it (R170). -/
def execStatus (s : State) : Host.Outcome State Fault Refusal := respond Opcode.status.code .ok [s.status] s

end Sys2Proof.Machine
end

