-- ==== Sys2Proof/Machine/Dispatch.lean ====
section
/-! DEFINITION. The meaning of every instruction, one arm each. -/

namespace Sys2Proof.Machine

def exec (i : Instr) (s : State) : Host.Outcome State Fault Refusal :=
  match i with
  | .cfgbp n f0 g q fs => Sys2Proof.Machine.execCfgbp n f0 g q fs s
  | .cfgnotch n f0 q fs => Sys2Proof.Machine.execCfgnotch n f0 q fs s
  | .reset n => Sys2Proof.Machine.execReset n s
  | .tick n x => Sys2Proof.Machine.execTick n x s
  | .status => Sys2Proof.Machine.execStatus s
  | .dec8 b => Sys2Proof.Machine.execDec8 b s
  | .dec16 b => Sys2Proof.Machine.execDec16 b s
  | .enc8 x => Sys2Proof.Machine.execEnc8 x s
  | .enc16 x => Sys2Proof.Machine.execEnc16 x s

end Sys2Proof.Machine
end

