-- ==== Sys2Proof/Machine/Port.lean ====
section
/-! DEFINITION. The command port (20_memory.md §2, §5) and the hardware reset (R200): how bytes become packets, how a
response leaves, what the block does between commands, and the host's own moves (R71). -/

namespace Sys2Proof.Machine

/-! ## The host's moves (R71) -/

/-- The host sends bytes: they are held until the block accepts them, never dropped (R70). -/
def State.hostSend (bs : List Byte) (s : State) : State := { s with held := s.held ++ bs }

/-- The host asserts the hardware reset input (R200). -/
def State.assertReset (s : State) : State := { s with rst := true }

/-! ## The block's side -/

/-- A hardware reset: every register at its reset value, `rx`, held bytes and an unsent response discarded, a new run
begins (R47, R200; log 8). The draw counter alone goes on, so that no free value is drawn twice (log 4). -/
def State.hardwareReset (s : State) : State := { State.reset with draws := s.draws }

/-- The pending response, if any, has been sent whole (R70; log 13). -/
def State.sendResponse (s : State) : State := { s with tx := none, sent := s.sent ++ s.tx.toList }

/-- A complete packet has been taken off the request stream; `rest` is what the host has sent beyond it (R64, R70). -/
def State.accept (rest : List Byte) (s : State) : State := { s.sendResponse with rx := [], held := rest }

/-- Every byte sent so far belongs to a packet that is not complete: nothing but `rx` changes (R64). -/
def State.receive (s : State) : State := { s.sendResponse with rx := s.rx ++ s.held, held := [] }

/-- What the block does next. -/
inductive PortMove where
  /-- a complete packet is accepted and is to be executed in this state -/
  | command (p : Packet) (s : State)
  /-- a move without a command: a hardware reset, or bytes received and a response sent -/
  | internal (s : State)
  /-- no step (R64, R194) -/
  | blocked (f : Fault)
deriving DecidableEq, Repr

/-- The next move of the block. A reset goes before everything (R200). A command is accepted only once the response
before it is sent (R70) and only when its packet is complete (R64). -/
def portMove (s : State) : PortMove :=
  if s.rst then .internal s.hardwareReset
  else match frame (s.rx ++ s.held) with
    | some (p, rest) => .command p (s.accept rest)
    | none =>
      if s.held.isEmpty && s.tx.isNone then .blocked (if s.rx.isEmpty then .idle else .packetIncomplete)
      else .internal s.receive

/-- A complete packet that is no instruction (R181 (a) to (g)): ILLEGAL, with its OPC as received (R183). -/
def rejectMalformed (p : Packet) (s : State) : Host.Outcome State Fault Refusal :=
  reject (headerOpc p.header) .illegal s

/-- The bytes of the packet whose bits are the number `w`: 4 + 8·NOPS of them (R90). -/
def packetBytes (w : Nat) : List Byte := numberBytes (4 + 8 * (w / 2 ^ 12 % 16)) w

/-- The request stream holds exactly the bytes `bs` and nothing goes before them. -/
def State.withStream (bs : List Byte) (s : State) : State := { s with rst := false, rx := [], held := bs }

end Sys2Proof.Machine
end

