-- ==== Sys2Proof/Machine/Step.lean ====
section
/-! DEFINITION. One step of the block: the move the port gives it (R64, R66, R67, R200), and the instruction of an
accepted packet, or its ILLEGAL reject (R88, R186). -/

namespace Sys2Proof.Machine

def step (s : State) : Host.Outcome State Fault Refusal :=
  match portMove s with
  | .internal t => .next t
  | .blocked f => .fault f
  | .command p t =>
    match decodePacket Config.build p with
    | .ok i => exec i t
    | .error _ => rejectMalformed p t

/-- `s` with the instruction of the bits `w` (above `nbits` all 0) as the only packet on the request stream: the host has
sent it and the block accepts it next (log 3). -/
def State.withFetchWord (s : State) (nbits w : Nat) : State := s.withStream (packetBytes (w % 2 ^ nbits))

end Sys2Proof.Machine
end

