-- ==== Sys2Proof/Machine/Pseudo.lean ====
section
/-! DEFINITION. The pseudo-instructions (R95 to R101): what a host sends for each, and how it forwards results. They are
host software over the block's nine commands; the block itself never sees them. -/

namespace Sys2Proof.Machine

/-- The default quality factor √½, the binary64 nearest to it (R95, C6). -/
def defaultQ : Bits64 := 0x3FE6A09E667F3BCD

/-- `bq.bp i, f0, fs` (R95). -/
def bqBp (i : InstNum) (f0 : Bits64) (fs : Bits32) : Instr := .cfgbp i f0 one64 defaultQ fs

/-- `bq.bpg i, f0, g, fs` (R96). -/
def bqBpg (i : InstNum) (f0 g : Bits64) (fs : Bits32) : Instr := .cfgbp i f0 g defaultQ fs

/-- `bq.notch i, f0, fs` (R97). -/
def bqNotch (i : InstNum) (f0 : Bits64) (fs : Bits32) : Instr := .cfgnotch i f0 defaultQ fs

/-- `bq.process i, x[0], …, x[n-1]` (R98). -/
def bqProcess (i : InstNum) (xs : List Bits64) : List Instr := xs.map (.tick i)

/-- `bq.process2 i, j, s[0], …, s[2n-1]` over the n frames of the interleaved stream (R101). -/
def bqProcess2 (i j : InstNum) (frames : List (Bits64 × Bits64)) : List Instr :=
  frames.flatMap fun f => [.tick i f.1, .tick j f.2]

/-- An interleaved stream "frame-major, channel-minor" as frames; none for an odd number of samples (R101). -/
def deinterleave : List Bits64 → Option (List (Bits64 × Bits64))
  | [] => some []
  | [_] => none
  | l :: r :: rest => (deinterleave rest).map ((l, r) :: ·)

/-- The bytes of a list of commands, in order: a host program as it travels (R31, R66). -/
def programBytes (is : List Instr) : List Byte := is.flatMap encode

/-- The host sends one command and the block runs it: the state after it and its response (R61, R71). -/
def issue (i : Instr) (s : State) : Option (State × Response) :=
  match step (s.hostSend (encode i)) with
  | .next t => t.tx.map fun r => (t, r)
  | .fault _ => none
  | .refused _ => none

/-- The same, for a command with one result word: none when the command was rejected (log 18). -/
def issueFor (i : Instr) (s : State) : Option (State × Bits64) :=
  match issue i s with
  | some (t, { rc := .ok, opc := _, results := [w] }) => some (t, w)
  | _ => none

/-- A list of commands sent one after the other: the last state and the responses in order. -/
def issueAll : List Instr → State → Option (State × List Response)
  | [], s => some (s, [])
  | i :: is, s =>
    match issue i s with
    | none => none
    | some (t, r) => (issueAll is t).map fun (u, rs) => (u, r :: rs)

/-- `bq.pcm16 i, lo, hi -> olo, ohi`: cv.dec16, bq.tick, cv.enc16, each result forwarded (R99). -/
def bqPcm16 (i : InstNum) (lo hi : Byte) (s : State) : Option (State × Byte × Byte) :=
  match issueFor (.dec16 (hi ++ lo)) s with
  | none => none
  | some (s1, x) =>
    match issueFor (.tick i x) s1 with
    | none => none
    | some (s2, y) =>
      match issueFor (.enc16 y) s2 with
      | none => none
      | some (s3, o) => some (s3, o.extractLsb' 0 8, o.extractLsb' 8 8)

/-- `bq.pcm8 i, b -> ob`: cv.dec8, bq.tick, cv.enc8, each result forwarded (R100). -/
def bqPcm8 (i : InstNum) (b : Byte) (s : State) : Option (State × Byte) :=
  match issueFor (.dec8 b) s with
  | none => none
  | some (s1, x) =>
    match issueFor (.tick i x) s1 with
    | none => none
    | some (s2, y) =>
      match issueFor (.enc8 y) s2 with
      | none => none
      | some (s3, o) => some (s3, o.extractLsb' 0 8)

/-! ## One line of a host program -/

/-- What one line of the assembly language asks of the host (R94 to R101). -/
inductive HostCmd where
  /-- a machine command, or a pseudo-instruction that is one (R94 to R97) -/
  | one (i : Instr)
  | process (i : InstNum) (xs : List Bits64)
  | process2 (i j : InstNum) (frames : List (Bits64 × Bits64))
  | pcm16 (i : InstNum) (lo hi : Byte)
  | pcm8 (i : InstNum) (b : Byte)
deriving DecidableEq, Repr

/-- The commands a line sends, where no result has to be forwarded into a later command. -/
def HostCmd.expand : HostCmd → Option (List Instr)
  | .one i => some [i]
  | .process i xs => some (bqProcess i xs)
  | .process2 i j frames => some (bqProcess2 i j frames)
  | .pcm16 .. => none
  | .pcm8 .. => none

/-- What the names of a machine command's line stand for, in the order R94 writes them, from the result words of its
response: the result word, bits 7:0 of it for `cv.enc8`, bits 7:0 and then bits 15:8 for `cv.enc16`. A rejected command has
no result word (R183); each of its names then stands for nothing, `none` (DESIGN CHOICE, log 18). -/
def namedResults : Instr → List Bits64 → List (Option Bits64)
  | .cfgbp .., _ => []
  | .cfgnotch .., _ => []
  | .reset _, _ => []
  | .tick .., ws => [ws.head?]
  | .status, ws => [ws.head?]
  | .dec8 _, ws => [ws.head?]
  | .dec16 _, ws => [ws.head?]
  | .enc8 _, ws => [ws.head?.map fun w => (w.extractLsb' 0 8).setWidth 64]
  | .enc16 _, ws =>
    [ws.head?.map fun w => (w.extractLsb' 0 8).setWidth 64, ws.head?.map fun w => (w.extractLsb' 8 8).setWidth 64]

/-- The host sends these commands one after the other: the state after them and what their names stand for, in order. A name
keeps its place (`t[2k]`, `t[2k+1]`: R98, R101) when a command before it, or its own, was rejected (log 18). -/
def issueNamed (is : List Instr) (s : State) : Option (State × List (Option Bits64)) :=
  (issueAll is s).map fun (t, rs) => (t, (is.zip rs).flatMap fun (i, r) => namedResults i r.results)

/-- The host carries out one line: the state after it and what the names of its results stand for, in order (R94 to R101). R98
and R101 are silent on a tick that is rejected, since its instance is not configured: the name of that tick stands for
nothing and the others keep their places (DESIGN CHOICE, log 18). A codec chain with a rejected command has no outcome
(log 18). -/
def HostCmd.run : HostCmd → State → Option (State × List (Option Bits64))
  | .one i, s => issueNamed [i] s
  | .process i xs, s => issueNamed (bqProcess i xs) s
  | .process2 i j frames, s => issueNamed (bqProcess2 i j frames) s
  | .pcm16 i lo hi, s =>
    (bqPcm16 i lo hi s).map fun (t, lo', hi') => (t, [some (lo'.setWidth 64), some (hi'.setWidth 64)])
  | .pcm8 i b, s => (bqPcm8 i b s).map fun (t, b') => (t, [some (b'.setWidth 64)])

end Sys2Proof.Machine
end

