-- ==== Sys2Proof/Machine/Assembler.lean ====
section
/-! DEFINITION. The assembly language (R92 to R97): one command per line, read from a list of characters. It is the
host's notation; nothing of it reaches the block but the commands (log 17). -/

namespace Sys2Proof.Machine.Asm

/-! ## Characters and tokens -/

def isSpace (c : Char) : Bool := c == ' ' || c == '\t' || c == '\r'

def trim (cs : List Char) : List Char := ((cs.dropWhile isSpace).reverse.dropWhile isSpace).reverse

/-- The pieces of a text between its separators. -/
def splitOn (sep : Char → Bool) : List Char → List (List Char)
  | [] => [[]]
  | c :: cs =>
    if sep c then [] :: splitOn sep cs
    else match splitOn sep cs with
      | [] => [[c]]
      | p :: ps => (c :: p) :: ps

/-- The text before the first `->` and, where there is one, the text after it (R92). -/
def splitArrow : List Char → List Char × Option (List Char)
  | [] => ([], none)
  | [c] => ([c], none)
  | c :: d :: cs =>
    if c == '-' && d == '>' then ([], some cs)
    else ((c :: (splitArrow (d :: cs)).1), (splitArrow (d :: cs)).2)

/-- The comma-separated operands of a text, none of them for a blank text. -/
def operands (cs : List Char) : List (List Char) :=
  if (trim cs).isEmpty then [] else (splitOn (· == ',') cs).map trim

/-! ## Literals (R93; the points it leaves open in log 17) -/

def decDigit (c : Char) : Option Nat := if '0' ≤ c ∧ c ≤ '9' then some (c.toNat - '0'.toNat) else none

def hexDigit (c : Char) : Option Nat :=
  if '0' ≤ c ∧ c ≤ '9' then some (c.toNat - '0'.toNat)
  else if 'a' ≤ c ∧ c ≤ 'f' then some (c.toNat - 'a'.toNat + 10)
  else if 'A' ≤ c ∧ c ≤ 'F' then some (c.toNat - 'A'.toNat + 10)
  else none

/-- The number the digits stand for in this base, after the number `acc`; none at a character that is no digit. -/
def digitsFrom (digit : Char → Option Nat) (base : Nat) : Nat → List Char → Option Nat
  | acc, [] => some acc
  | acc, c :: cs =>
    match digit c with
    | none => none
    | some d => digitsFrom digit base (acc * base + d) cs

/-- A decimal integer: at least one digit. -/
def decimal (cs : List Char) : Option Nat := if cs.isEmpty then none else digitsFrom decDigit 10 0 cs

/-- Exactly `n` hex digits. -/
def hex (n : Nat) (cs : List Char) : Option Nat := if cs.length == n then digitsFrom hexDigit 16 0 cs else none

/-- The binary64 nearest to ±`digits`·10^`exp`, ties to even (R93). A literal that lies beyond the finite words gives the
infinity of its sign, as roundTiesToEven does (R9; DEDUCED, log 17). -/
def decimalToF64 (neg : Bool) (digits : Nat) (exp : Int) : Bits64 :=
  if 0 ≤ exp then pack neg (roundMag (digits * 10 ^ exp.toNat * unit) 1)
  else pack neg (roundMag (digits * unit) (10 ^ (-exp).toNat))

/-- A decimal exponent: digits with an optional `-` or `+`. -/
def exponent : List Char → Option Int
  | '-' :: cs => (decimal cs).map fun n => -(n : Int)
  | '+' :: cs => (decimal cs).map fun n => (n : Int)
  | cs => (decimal cs).map fun n => (n : Int)

/-- The part of a literal before its exponent, with `k` the exponent: digits, and optionally a point and more digits. -/
def mantissa (neg : Bool) (m : List Char) (k : Int) : Option Bits64 :=
  match splitOn (· == '.') m with
  | [a] => (decimal a).map fun d => decimalToF64 neg d k
  | [a, b] =>
    match decimal a, decimal b with
    | some _, some _ => (decimal (a ++ b)).map fun d => decimalToF64 neg d (k - b.length)
    | _, _ => none
  | _ => none

/-- A decimal floating-point literal without its sign. R93 gives it no grammar; the model reads digits, an optional `.` with
at least one digit on each side, and an optional exponent, which is `e` or `E`, an optional `-` or `+`, and digits (DESIGN
CHOICE, log 17). -/
def unsignedLiteral (neg : Bool) (cs : List Char) : Option Bits64 :=
  match splitOn (fun c => c == 'e' || c == 'E') cs with
  | [m] => mantissa neg m 0
  | [m, e] =>
    match exponent e with
    | none => none
    | some k => mantissa neg m k
  | _ => none

/-- An F64 operand (R93): `#0x` and 16 hex digits, `inf`, `-inf`, `nan`, or a decimal literal. R93 writes a leading `-`; the
model reads a leading `+` too (DESIGN CHOICE, log 17). -/
def f64 : List Char → Option Bits64
  | '#' :: '0' :: 'x' :: cs => (hex 16 cs).map fun n => BitVec.ofNat 64 n
  | ['i', 'n', 'f'] => some posInf
  | ['-', 'i', 'n', 'f'] => some negInf
  | ['n', 'a', 'n'] => some qnan
  | '-' :: cs => unsignedLiteral true cs
  | '+' :: cs => unsignedLiteral false cs
  | cs => unsignedLiteral false cs

/-- An instance number (R93): a decimal integer that the INST field holds (R81). -/
def instNum (cs : List Char) : Option InstNum :=
  match decimal cs with
  | some n => if n < 16 then some (BitVec.ofNat 4 n) else none
  | none => none

/-- An FS operand (R93): a decimal integer from 0 to 4294967295. -/
def fs (cs : List Char) : Option Bits32 :=
  match decimal cs with
  | some n => if n < 4294967296 then some (BitVec.ofNat 32 n) else none
  | none => none

/-- A B8 operand or one byte of a B16 operand (R93): `0x` and 2 hex digits. -/
def byte : List Char → Option Byte
  | '0' :: 'x' :: cs => (hex 2 cs).map fun n => BitVec.ofNat 8 n
  | _ => none

/-- A list of F64 operands. -/
def f64s : List (List Char) → Option (List Bits64)
  | [] => some []
  | c :: cs =>
    match f64 c, f64s cs with
    | some w, some ws => some (w :: ws)
    | _, _ => none

/-! ## Decimal literals as they are written (R93; log 17) -/

/-- The parts of a decimal literal: its sign, the digits before the point, those after it where there is one, and the
exponent where there is one, with its letter, sign and digits. -/
structure DecimalLiteral where
  /-- the sign written: `some true` for `-`, `some false` for `+` -/
  sign : Option Bool
  whole : List (Fin 10)
  fraction : Option (List (Fin 10))
  /-- `true` for `E`, the sign written, the digits -/
  exponent : Option (Bool × Option Bool × List (Fin 10))
deriving DecidableEq, Repr

/-- Every run of digits that is written has a digit. -/
def DecimalLiteral.wf (l : DecimalLiteral) : Bool :=
  !l.whole.isEmpty && l.fraction.all (!·.isEmpty) && l.exponent.all (!·.2.2.isEmpty)

/-- A sign as written. -/
def signText : Option Bool → List Char
  | none => []
  | some true => ['-']
  | some false => ['+']

/-- Digits as written. -/
def digitText (ds : List (Fin 10)) : List Char := ds.map fun d => Char.ofNat (48 + d.val)

/-- A fraction as written, where there is one. -/
def fractionText : Option (List (Fin 10)) → List Char
  | none => []
  | some ds => '.' :: digitText ds

/-- An exponent as written, where there is one. -/
def exponentText : Option (Bool × Option Bool × List (Fin 10)) → List Char
  | none => []
  | some (upper, sign, ds) => (if upper then 'E' else 'e') :: (signText sign ++ digitText ds)

/-- The text of a decimal literal. -/
def DecimalLiteral.text (l : DecimalLiteral) : List Char :=
  signText l.sign ++ (digitText l.whole ++ fractionText l.fraction ++ exponentText l.exponent)

/-- The number these decimal digits write. -/
def digitsValue (ds : List (Fin 10)) : Nat := ds.foldl (fun n d => n * 10 + d.val) 0

/-- A literal is negative when a `-` is written. -/
def DecimalLiteral.neg (l : DecimalLiteral) : Bool := l.sign == some true

/-- All digits of the literal, the point left out, as one number. -/
def DecimalLiteral.digits (l : DecimalLiteral) : Nat := digitsValue (l.whole ++ l.fraction.getD [])

/-- The power of ten the digits are multiplied by. -/
def DecimalLiteral.scale (l : DecimalLiteral) : Int :=
  (match l.exponent with
    | none => 0
    | some (_, sign, ds) => if sign == some true then -(digitsValue ds : Int) else digitsValue ds)
    - (l.fraction.getD []).length

/-! ## Lines (R92, R94 to R101) -/

/-- The command of a mnemonic and its operands. R101 says that the instances of `bq.process2` must differ, and also what the
block does with the ticks if they do not (R205); it does not say what becomes of such a line. The model gives it no command
(DESIGN CHOICE, log 17); the same ticks can be written as `bq.tick` lines. -/
def command (mnemonic : String) (args : List (List Char)) : Option HostCmd :=
  match mnemonic, args with
  | "bq.cfgbp", [i, f0, g, q, r] => do return .one (.cfgbp (← instNum i) (← f64 f0) (← f64 g) (← f64 q) (← fs r))
  | "bq.cfgnotch", [i, f0, q, r] => do return .one (.cfgnotch (← instNum i) (← f64 f0) (← f64 q) (← fs r))
  | "bq.reset", [i] => do return .one (.reset (← instNum i))
  | "bq.tick", [i, x] => do return .one (.tick (← instNum i) (← f64 x))
  | "bq.status", [] => some (.one .status)
  | "cv.dec8", [b] => do return .one (.dec8 (← byte b))
  | "cv.dec16", [lo, hi] => do return .one (.dec16 ((← byte hi) ++ (← byte lo)))
  | "cv.enc8", [x] => do return .one (.enc8 (← f64 x))
  | "cv.enc16", [x] => do return .one (.enc16 (← f64 x))
  | "bq.bp", [i, f0, r] => do return .one (bqBp (← instNum i) (← f64 f0) (← fs r))
  | "bq.bpg", [i, f0, g, r] => do return .one (bqBpg (← instNum i) (← f64 f0) (← f64 g) (← fs r))
  | "bq.notch", [i, f0, r] => do return .one (bqNotch (← instNum i) (← f64 f0) (← fs r))
  | "bq.process", i :: xs => do return .process (← instNum i) (← f64s xs)
  | "bq.process2", i :: j :: xs => do
    let i' ← instNum i
    let j' ← instNum j
    let frames ← deinterleave (← f64s xs)
    if i' == j' then none else return .process2 i' j' frames
  | "bq.pcm16", [i, lo, hi] => do return .pcm16 (← instNum i) (← byte lo) (← byte hi)
  | "bq.pcm8", [i, b] => do return .pcm8 (← instNum i) (← byte b)
  | _, _ => none

/-- What a line holds: nothing, or a command and the host's names of its results (R92). -/
inductive Line where
  | blank
  | command (c : HostCmd) (names : List (List Char))
deriving DecidableEq, Repr

/-- One line: a comment from `;` on is dropped, `-> name` names results, the mnemonic ends at the first space (R92). -/
def line (cs : List Char) : Option Line :=
  let text := trim (cs.takeWhile (· != ';'))
  if text.isEmpty then some .blank
  else
    let parts := splitArrow text
    let mnemonic := (trim parts.1).takeWhile (!isSpace ·)
    let args := operands ((trim parts.1).dropWhile (!isSpace ·))
    (command (String.ofList mnemonic) args).map fun c => .command c (operands (parts.2.getD []))

/-- A program text, line by line; none where a line is not in the language. -/
def program (cs : List Char) : Option (List Line) := (splitOn (· == '\n') cs).mapM line

end Sys2Proof.Machine.Asm
end

