-- ==== Sys2Proof/Safety.lean ====
section
/-! DEFINITION. What claims are stated in: the invariant of the state (R46 and the port's own rules), where a run may
start (R210), when it has ended and what it shows (R209), and the premise every claim about values takes (R40). -/

namespace Sys2Proof.Machine

/-- R46: an instance with `cfgd` has every coefficient, one without has none. -/
def Inst.valid (r : Inst) : Bool :=
  r.b0.isSome == r.cfgd && r.b1.isSome == r.cfgd && r.b2.isSome == r.cfgd && r.a1.isSome == r.cfgd
    && r.a2.isSome == r.cfgd

end Sys2Proof.Machine

namespace Sys2Proof

/-- A result word of this format has its zero bits zero (R39, R87). -/
def ResultFormat.legal : ResultFormat → Bits64 → Bool
  | .f64, _ => true
  | .b8, w => w.extractLsb' 8 56 == 0
  | .b16, w => w.extractLsb' 16 48 == 0
  | .st, w => w.extractLsb' 18 14 == 0 && w.extractLsb' 37 27 == 0

/-- These result words are what a row of the opcode map returns: as many as it says (NRES), each in its format. -/
def resultsLegal (formats : List ResultFormat) (results : List Bits64) : Bool :=
  results.length == formats.length && (List.zipWith ResultFormat.legal formats results).all id

end Sys2Proof

namespace Sys2Proof.Machine

/-- A response the block may give: a completed command returns its row's results (R84, R86), a reject returns none
(R183), and only BQ.TICK gives NOTCFG (R182). -/
def Response.wf (r : Response) : Bool :=
  match r.rc with
  | .ok => (match rowOfCode r.opc with
    | some row => resultsLegal row.results r.results
    | none => false)
  | .illegal => r.results.isEmpty
  | .notcfg => r.results.isEmpty && r.opc == Opcode.tick.code

/-- The invariant every step keeps. -/
structure State.Inv (s : State) : Prop where
  /-- R46, for every instance -/
  instances : ∀ k : Fin Config.numInst, (s.getInst k).valid = true
  /-- `rx` never holds a complete packet (R43) -/
  partialPacket : frame s.rx = none
  /-- the pending response is one the block may give -/
  pending : ∀ r, s.tx = some r → r.wf = true
  /-- so is every response already sent -/
  answered : ∀ r ∈ s.sent, r.wf = true
  /-- exactly one response per command (R61, R31) -/
  onePerCommand : s.pc = s.sent.length + s.tx.toList.length

/-- The premise under which a claim about values means something (R40, R203). -/
def State.claimable (s : State) : Bool := !s.undef

/-- Where a run may start (R210): (a) in the hardware-reset state of R47, or (b) in a stated state that meets R46, with
UNDEF false and `rx` empty. The index of the next command is 0 in both (R31). R210 does not say whether a stated start may
carry held bytes, an unsent response, responses sent earlier or an asserted reset: here it carries none of them (DESIGN
CHOICE, log 20), and the sticky bits, the coefficients, the delay registers and the draw counter are free. -/
def State.Start (s : State) : Prop :=
  (∃ n, s = { State.reset with draws := n }) ∨
  ((∀ k : Fin Config.numInst, (s.getInst k).valid = true) ∧ s.undef = false ∧ s.rx = [] ∧ s.pc = 0 ∧
    s.held = [] ∧ s.tx = none ∧ s.sent = [] ∧ s.rst = false)

/-- The run of a host program of `n` commands has ended: the response to the last one is sent (R209, R31). -/
def State.Ended (n : Nat) (s : State) : Prop := s.pc = n ∧ s.tx = none

/-- What a run shows: the responses in order, the last one's included while it is being sent (R209). -/
def State.observation (s : State) : List Response := s.sent ++ s.tx.toList

/-- `n` steps, ending at the first step the block does not take. -/
def runSteps : Nat → State → Host.Outcome State Fault Refusal
  | 0, s => .next s
  | n + 1, s =>
    match step s with
    | .next t => runSteps n t
    | .fault f => .fault f
    | .refused r => .refused r

/-! ## Terms of the laws -/

/-- The port is ready for a new packet: no reset asserted, nothing received or held (R64, R70). -/
def State.Ready (s : State) : Prop := s.rst = false ∧ s.rx = [] ∧ s.held = []

/-- Some register that BQ.TICK reads holds a NaN (R154). -/
def Inst.poisoned (r : Inst) : Bool :=
  isNaN r.w1 || isNaN r.w2 || isNaN r.coeffs.b0 || isNaN r.coeffs.b1 || isNaN r.coeffs.b2 || isNaN r.coeffs.a1
    || isNaN r.coeffs.a2

/-- The recurrence over a buffer: the registers after the last sample and the outputs in order (R153). -/
def Inst.process : Inst → List Bits64 → Inst × List Bits64
  | r, [] => (r, [])
  | r, x :: xs => (((r.tickNext x).process xs).1, r.tickOut x :: ((r.tickNext x).process xs).2)

/-- Two channels interleaved, frame-major and channel-minor (R101). -/
def interleave {α : Type} : List α → List α → List α
  | l :: ls, r :: rs => l :: r :: interleave ls rs
  | _, _ => []

/-- The middle between the largest finite magnitude and 2^1024, in units: from there on a result rounds to an infinity
(R9). -/
@[irreducible] def overflowUnits : Nat := (2 ^ 54 - 1) * 2 ^ 2044

/-- `r` is the exact value `num / den`, in units, rounded once with roundTiesToEven (R9): finite exactly below the middle
between the largest finite magnitude and 2^1024, and otherwise the infinity of the value's sign; no finite word lies nearer
to the exact value, and another value lies as near only when `r` is even. The sign of a zero is not part of it. -/
def RoundsTo (r : Bits64) (num : Int) (den : Nat) : Prop :=
  (isFinite r = true ↔ |num| < overflowUnits * den) ∧
  (isFinite r = false → r = if num < 0 then 0xFFF0000000000000 else 0x7FF0000000000000) ∧
  (isFinite r = true → ∀ c : Bits64, isFinite c = true →
    |sunits r * den - num| ≤ |sunits c * den - num| ∧
    (sunits c ≠ sunits r → |sunits r * den - num| = |sunits c * den - num| → fracField r % 2 = 0))

/-- The packet is ill-formed for the build `b`: one of the causes (a) to (g) of R181 holds, written with R84's numbers and
R82's bit ranges. -/
def PacketIllFormed (b : Build) (p : Packet) : Prop :=
  -- (a)
  headerRsv p.header ≠ 0
  -- (b)
  ∨ headerOpc p.header ∉ [0x01, 0x02, 0x03, 0x04, 0x08, 0x10, 0x11, 0x12, 0x13]
  -- (c)
  ∨ (headerOpc p.header ∈ [0x10, 0x11, 0x12, 0x13] ∧ b.convPresent = false)
  -- (d)
  ∨ (headerOpc p.header = 0x01 ∧ headerNops p.header ≠ 4)
  ∨ (headerOpc p.header = 0x02 ∧ headerNops p.header ≠ 3)
  ∨ (headerOpc p.header ∈ [0x03, 0x08] ∧ headerNops p.header ≠ 0)
  ∨ (headerOpc p.header ∈ [0x04, 0x10, 0x11, 0x12, 0x13] ∧ headerNops p.header ≠ 1)
  -- (e)
  ∨ (headerOpc p.header ∈ [0x08, 0x10, 0x11, 0x12, 0x13] ∧ headerInst p.header ≠ 0)
  -- (f)
  ∨ (headerOpc p.header ∈ [0x01, 0x02, 0x03, 0x04] ∧ b.numInst ≤ (headerInst p.header).toNat)
  -- (g)
  ∨ (headerOpc p.header = 0x01 ∧ ∃ w, p.ops[3]? = some w ∧ w.extractLsb' 32 32 ≠ 0)
  ∨ (headerOpc p.header = 0x02 ∧ ∃ w, p.ops[2]? = some w ∧ w.extractLsb' 32 32 ≠ 0)
  ∨ (headerOpc p.header = 0x10 ∧ ∃ w, p.ops[0]? = some w ∧ w.extractLsb' 8 56 ≠ 0)
  ∨ (headerOpc p.header = 0x11 ∧ ∃ w, p.ops[0]? = some w ∧ w.extractLsb' 16 48 ≠ 0)

end Sys2Proof.Machine

namespace Sys2Proof

/-- The parameters of an instruction lie in the defined domain of its command (R131). Every instruction but the two
configure commands is defined for all its operands. -/
def Instr.inDomain : Instr → Bool
  | .cfgbp _ f0 g q fs => Machine.domBP f0 g q fs
  | .cfgnotch _ f0 q fs => Machine.domN f0 q fs
  | .reset _ => true
  | .tick _ _ => true
  | .status => true
  | .dec8 _ => true
  | .dec16 _ => true
  | .enc8 _ => true
  | .enc16 _ => true

end Sys2Proof
end

