-- ==== Sys2Proof/Certificates/Slice0/Obligations.lean ====
section
/-! DEFINITION. The statements about the block, in the order of the spec's files. -/

open Sys2Proof Sys2Proof.Machine

/-! ## State and reset (10_state.md, 70_reset_and_hazards.md) -/

/-- R47: every piece of state the rule's table lists has its value after a hardware reset. -/
def Obligations.ResetLeavesStatedValues : Prop :=
  (∀ k : Fin Config.numInst, State.reset.getInst k
    = { cfgd := false, b0 := none, b1 := none, b2 := none, a1 := none, a2 := none,
        w1 := 0x0000000000000000, w2 := 0x0000000000000000 }) ∧
  State.reset.eIll = false ∧ State.reset.eNcfg = false ∧ State.reset.status = 0x0000001100000000 ∧
  State.reset.rx = [] ∧ State.reset.undef = false

/-- R46, R47: the reset state meets the invariant. -/
def Obligations.ResetMeetsInvariant : Prop := State.reset.Inv

/-- R46 with the port's own rules (R43, R61, R84, R87, R182, R183): every step keeps the invariant. -/
def Obligations.StepKeepsInvariant : Prop := ∀ s t : State, s.Inv → step s = .next t → t.Inv

/-- R200 (with log 4 and log 8 for the fields the rule does not list): an asserted reset goes before everything, whatever
the state, and leaves the reset state; only the model's draw counter goes on. -/
def Obligations.HardwareResetRestoresReset : Prop :=
  ∀ s : State, s.rst = true → step s = .next { State.reset with draws := s.draws }

/-- R35: the configure commands set `cfgd` of the instance they select, and no command clears it or sets another one. -/
def Obligations.CfgdSetOnlyByConfigure : Prop :=
  ∀ (i : Instr) (s t : State) (k : Fin Config.numInst), exec i s = .next t →
    ((t.getInst k).cfgd = true ↔ (s.getInst k).cfgd = true ∨
      ((i.op = .cfgbp ∨ i.op = .cfgnotch) ∧ i.selects = some (BitVec.ofNat 4 k)))

/-- R37, R183: outside a hardware reset, E_ILL is set exactly by a step that answers ILLEGAL and E_NCFG exactly by one
that answers NOTCFG; nothing clears them. -/
def Obligations.StickyBitsFollowRejects : Prop :=
  ∀ s t : State, s.rst = false → step s = .next t →
    t.eIll = (s.eIll || t.tx.any (fun r => r.rc == .illegal)) ∧
    t.eNcfg = (s.eNcfg || t.tx.any (fun r => r.rc == .notcfg))

/-- R40, R132: a command sets UNDEF exactly when it configures an existing instance with parameters outside the defined
domain; no command clears it. -/
def Obligations.UndefMarksOutOfDomainConfigures : Prop :=
  ∀ (i : Instr) (s t : State), exec i s = .next t →
    (t.undef = true ↔ s.undef = true ∨
      (∃ n f0 g q fs, i = .cfgbp n f0 g q fs ∧ n.toNat < Config.numInst ∧ domBP f0 g q fs = false) ∨
      (∃ n f0 q fs, i = .cfgnotch n f0 q fs ∧ n.toNat < Config.numInst ∧ domN f0 q fs = false))

/-- R32: a command writes no register of an instance other than the one it selects. -/
def Obligations.OnlySelectedInstanceWritten : Prop :=
  ∀ (i : Instr) (s t : State) (k : Fin Config.numInst), exec i s = .next t →
    i.selects ≠ some (BitVec.ofNat 4 k) → t.getInst k = s.getInst k

/-- R32, R45: what a command does to the instance it selects, and what it answers, depends on no other instance and on no
flag (outside the domain it depends on the model's draw counter, log 4). -/
def Obligations.SelectedInstanceIsolated : Prop :=
  ∀ (i : Instr) (s s' t t' : State) (k : Fin Config.numInst), i.selects = some (BitVec.ofNat 4 k) →
    s.getInst k = s'.getInst k → s.draws = s'.draws → exec i s = .next t → exec i s' = .next t' →
    t.getInst k = t'.getInst k ∧ t.tx = t'.tx

/-! ## Port and packets (20_memory.md, 30_encoding.md) -/

/-- R62, R90: the end of a packet is found from the NOPS field alone; a packet is 4 + 8·NOPS bytes, from 4 to 124, and
until that many bytes stand in the stream there is none, whether its header is complete or not. A response is 4 + 8·NRES
bytes by its own field. -/
def Obligations.PacketEndFromNopsAlone : Prop :=
  (∀ bs : List Byte, bs.length < 4 → frame bs = none) ∧
  (∀ (b0 b1 b2 b3 : Byte) (bs : List Byte),
    (frame (b0 :: b1 :: b2 :: b3 :: bs) = none ↔ bs.length < 8 * (headerNops (word32 b0 b1 b2 b3)).toNat) ∧
    ∀ p rest, frame (b0 :: b1 :: b2 :: b3 :: bs) = some (p, rest) →
      p.header = word32 b0 b1 b2 b3 ∧ b0 :: b1 :: b2 :: b3 :: bs = p.bytes ++ rest ∧
      p.bytes.length = 4 + 8 * (headerNops p.header).toNat ∧ 4 ≤ p.bytes.length ∧ p.bytes.length ≤ 124) ∧
  (∀ r : Response, r.results.length < 16 → r.bytes.length = 4 + 8 * (r.statusWord.extractLsb' 16 4).toNat)

/-- R91: the header word of each command. -/
def Obligations.HeaderWordsOfCommands : Prop :=
  (∀ n f0 g q fs, (Instr.cfgbp n f0 g q fs).header = 0x00004001 + n.setWidth 32 * 0x100) ∧
  (∀ n f0 q fs, (Instr.cfgnotch n f0 q fs).header = 0x00003002 + n.setWidth 32 * 0x100) ∧
  (∀ n, (Instr.reset n).header = 0x00000003 + n.setWidth 32 * 0x100) ∧
  (∀ n x, (Instr.tick n x).header = 0x00001004 + n.setWidth 32 * 0x100) ∧
  Instr.status.header = 0x00000008 ∧ (∀ b, (Instr.dec8 b).header = 0x00001010) ∧
  (∀ b, (Instr.dec16 b).header = 0x00001011) ∧ (∀ x, (Instr.enc8 x).header = 0x00001012) ∧
  (∀ x, (Instr.enc16 x).header = 0x00001013)

/-- R82, R83, R88, R91: words written out from the encoding decode to the instruction they stand for, one of each family. -/
def Obligations.EncodedWordsDecode : Prop :=
  decode Config.build ([0x02, 0x31, 0x00, 0x00] ++ [0x00, 0x00, 0x00, 0x00, 0x00, 0x40, 0x8F, 0x40]
      ++ [0xCD, 0x3B, 0x7F, 0x66, 0x9E, 0xA0, 0xE6, 0x3F] ++ [0x44, 0xAC, 0x00, 0x00, 0x00, 0x00, 0x00, 0x00])
    = .ok (.cfgnotch 1 0x408F400000000000 0x3FE6A09E667F3BCD 44100, []) ∧
  decode Config.build ([0x04, 0x11, 0x00, 0x00] ++ [0x00, 0x00, 0x00, 0x00, 0x00, 0x00, 0xF0, 0x3F])
    = .ok (.tick 1 0x3FF0000000000000, []) ∧
  decode Config.build [0x08, 0x00, 0x00, 0x00] = .ok (.status, []) ∧
  decode Config.build ([0x11, 0x10, 0x00, 0x00] ++ [0x34, 0x12, 0x00, 0x00, 0x00, 0x00, 0x00, 0x00])
    = .ok (.dec16 0x1234, [])

/-- R81, R82, R84, R88: decoding the encoding of a well-formed instruction gives it back with every operand, for every
build, whatever follows it in the stream. -/
def Obligations.DecodeOfEncode : Prop :=
  ∀ (b : Build) (i : Instr) (rest : List Byte), i.wf b = true → decode b (encode i ++ rest) = .ok (i, rest)

/-- R89: no encoding but the one R81, R82 and R84 give is accepted: bytes that decode to an instruction are its encoding,
and the instruction is well-formed. -/
def Obligations.EncodeOfDecode : Prop :=
  ∀ (b : Build) (bs : List Byte) (i : Instr) (rest : List Byte), decode b bs = .ok (i, rest) →
    i.wf b = true ∧ bs = encode i ++ rest

/-- R64, R66, R70, R88: when the stream begins with the encoding of a well-formed instruction, a step is `exec` of it, in
the state where the response before it has been sent and its packet has been taken off the stream. That the sending is the
beginning of the same step is the model's choice (log 13); R70 only puts it before the command. -/
def Obligations.StepRunsDecodedInstruction : Prop :=
  ∀ (s : State) (i : Instr) (rest : List Byte), s.rst = false → i.wf Config.build = true →
    s.rx ++ s.held = encode i ++ rest →
    step s = exec i { s with rx := [], held := rest, tx := none, sent := s.sent ++ s.tx.toList }

/-- R181: an ill-formed packet (causes (a) to (g)) is answered ILLEGAL with its OPC as received. R183, R31: it is consumed,
sets E_ILL and gives no result word, and the program index advances; nothing else of the block changes. That the response
before it is sent in the same step, and the index advances in it, is the model's choice (log 13, log 7). -/
def Obligations.IllFormedPacketAnsweredIllegal : Prop :=
  ∀ (s : State) (p : Packet) (rest : List Byte), s.rst = false → frame (s.rx ++ s.held) = some (p, rest) →
    PacketIllFormed Config.build p →
    step s = .next
      { s with
        eIll := true
        rx := []
        held := rest
        tx := some { rc := .illegal, opc := headerOpc p.header, results := [] }
        sent := s.sent ++ s.tx.toList
        pc := s.pc + 1 }

/-- R88, R186, R64, R70: a complete packet that is not ill-formed is the packet of a well-formed instruction, and a step runs
it, with the packet taken off the stream and the response before it sent. That the sending is the beginning of the same step
is the model's choice (log 13). -/
def Obligations.OtherPacketsRunAnInstruction : Prop :=
  ∀ (s : State) (p : Packet) (rest : List Byte), s.rst = false → frame (s.rx ++ s.held) = some (p, rest) →
    ¬ PacketIllFormed Config.build p →
    ∃ i : Instr, i.wf Config.build = true ∧ p = { header := i.header, ops := i.operandWords } ∧
      step s = exec i { s with rx := [], held := rest, tx := none, sent := s.sent ++ s.tx.toList }

/-- R182: NOTCFG answers only a well-formed BQ.TICK on an instance that is not configured, and always answers that one;
the ILLEGAL checks go first, so an ill-formed packet is answered ILLEGAL, sets E_ILL and leaves E_NCFG as it was. -/
def Obligations.NotcfgAnswersOnlyWellFormedTicks : Prop :=
  ∀ (s t : State) (p : Packet) (rest : List Byte), s.rst = false → frame (s.rx ++ s.held) = some (p, rest) →
    step s = .next t →
    ((∃ r, t.tx = some r ∧ r.rc = .notcfg) ↔
      ¬ PacketIllFormed Config.build p ∧ headerOpc p.header = 0x04 ∧
        ∃ k : Fin Config.numInst, (k : Nat) = (headerInst p.header).toNat ∧ (s.getInst k).cfgd = false) ∧
    (PacketIllFormed Config.build p →
      (∃ r, t.tx = some r ∧ r.rc = .illegal) ∧ t.eIll = true ∧ t.eNcfg = s.eNcfg)

/-- R64, R186, R194: the outcomes of a step. It is never refused, and it takes no step exactly when no reset is asserted, the
response before is sent, and the bytes received are no complete packet while no more are waiting. The model's choices in it:
one step takes in all the bytes waiting (log 1), "no step" is one of two faults (log 2), and the response before is sent in
that same step (log 13). -/
def Obligations.StepOutcomes : Prop :=
  (∀ (s : State) (r : Refusal), step s ≠ .refused r) ∧
  (∀ s : State, (∃ f, step s = .fault f) ↔
    s.rst = false ∧ s.tx = none ∧ s.held = [] ∧ frame s.rx = none) ∧
  (∀ s : State, step s = .fault .idle ↔ s.rst = false ∧ s.tx = none ∧ s.held = [] ∧ s.rx = []) ∧
  (∀ s : State, s.rst = false → frame (s.rx ++ s.held) = none → (s.held ≠ [] ∨ s.tx ≠ none) →
    step s = .next { s with rx := s.rx ++ s.held, held := [], tx := none, sent := s.sent ++ s.tx.toList })

/-- R61, R66, R186: every instruction in every state completes its command: it answers with exactly one response that
copies its OPC, advances the program index by one (R31), and leaves the streams and the reset line alone. -/
def Obligations.EveryInstructionAnswers : Prop :=
  ∀ (i : Instr) (s : State), ∃ (t : State) (rc : ResultCode) (results : List Bits64), exec i s = .next t ∧
    t.tx = some { rc := rc, opc := i.op.code, results := results } ∧ t.pc = s.pc + 1 ∧
    t.rx = s.rx ∧ t.held = s.held ∧ t.sent = s.sent ∧ t.rst = s.rst

/-- R181 (f) at the instruction (log 12): a command whose INST names no instance is rejected and changes nothing else. -/
def Obligations.MissingInstanceIsRejected : Prop :=
  ∀ (i : Instr) (n : InstNum) (s : State), i.selects = some n → Config.numInst ≤ n.toNat →
    exec i s = .next
      { s with eIll := true, tx := some { rc := .illegal, opc := i.op.code, results := [] }, pc := s.pc + 1 }

/-- R85, R86: the fields of a status word and the length of a response (R62). -/
def Obligations.ResponseWordFields : Prop :=
  ∀ r : Response, r.results.length < 16 →
    r.statusWord.extractLsb' 0 4 = (match r.rc with | .ok => 0 | .illegal => 1 | .notcfg => 2) ∧
    r.statusWord.extractLsb' 4 4 = 0 ∧ r.statusWord.extractLsb' 8 8 = r.opc ∧
    (r.statusWord.extractLsb' 16 4).toNat = r.results.length ∧ r.statusWord.extractLsb' 20 12 = 0 ∧
    r.bytes.length = 4 + 8 * r.results.length

/-- R65: every command but BQ.TICK is idempotent. Sent twice in a row, with parameters in its domain, it leaves the same
state (only the program index counts both) and the same response. -/
def Obligations.CommandsButTickAreIdempotent : Prop :=
  ∀ (i : Instr) (s t u : State), i.op ≠ .tick → i.inDomain = true → exec i s = .next t → exec i t = .next u →
    u = { t with pc := t.pc + 1 }

/-! ## Pseudo-instructions (30_encoding.md §6) -/

/-- R93 (with log 17 for the grammar of a literal and for overflow, which the rule leaves open): the text of a decimal
literal stands for ±d·10^e with d its digits and e its exponent less the number of digits after the point, and that gives
the nearest binary64, ties to even, with the sign written; from the middle beyond the largest finite magnitude on, the
infinity of its sign. `inf`, `-inf` and `nan` stand for +Inf, -Inf and QNAN, and `-0.0` is -0.0. -/
def Obligations.DecimalLiteralNearest : Prop :=
  (∀ l : Asm.DecimalLiteral, l.wf = true → Asm.f64 l.text = some (Asm.decimalToF64 l.neg l.digits l.scale)) ∧
  (∀ (neg : Bool) (d k : Nat),
    signBit (Asm.decimalToF64 neg d k) = neg ∧
    RoundsTo (Asm.decimalToF64 neg d k) ((if neg then -1 else 1) * (d * 10 ^ k * unit)) 1 ∧
    signBit (Asm.decimalToF64 neg d (-(k : Int))) = neg ∧
    RoundsTo (Asm.decimalToF64 neg d (-(k : Int))) ((if neg then -1 else 1) * (d * unit)) (10 ^ k)) ∧
  Asm.f64 ['i', 'n', 'f'] = some 0x7FF0000000000000 ∧ Asm.f64 ['-', 'i', 'n', 'f'] = some 0xFFF0000000000000 ∧
  Asm.f64 ['n', 'a', 'n'] = some 0x7FF8000000000000 ∧ Asm.f64 ['-', '0', '.', '0'] = some 0x8000000000000000

/-- R99, R100: the codec chains. On a ready block with the instance configured, the code that comes back is the encoding of
the filter's output on the decoded code, and the instance has made one tick. -/
def Obligations.CodecChains : Prop :=
  ∀ (s : State) (n : InstNum) (h : n.toNat < Config.numInst), s.Ready → (s.inst[n.toNat]).cfgd = true →
    (∀ lo hi : Byte, ∃ t, bqPcm16 n lo hi s = some (t,
        (enc16Code ((s.inst[n.toNat]).tickOut (dec16Value (hi ++ lo)))).extractLsb' 0 8,
        (enc16Code ((s.inst[n.toNat]).tickOut (dec16Value (hi ++ lo)))).extractLsb' 8 8) ∧
      t.inst = s.inst.set n.toNat ((s.inst[n.toNat]).tickNext (dec16Value (hi ++ lo))) h) ∧
    (∀ b : Byte, ∃ t, bqPcm8 n b s = some (t, enc8Code ((s.inst[n.toNat]).tickOut (dec8Value b))) ∧
      t.inst = s.inst.set n.toNat ((s.inst[n.toNat]).tickNext (dec8Value b)) h)

/-- R101: filtering an interleaved stream on two different instances gives the two channels filtered one after the other,
interleaved again. -/
def Obligations.InterleavedStreamIsTwoChannels : Prop :=
  ∀ (s : State) (m n : InstNum) (frames : List (Bits64 × Bits64)) (_ : m.toNat < Config.numInst)
    (_ : n.toNat < Config.numInst), m ≠ n → s.Ready → (s.inst[m.toNat]).cfgd = true → (s.inst[n.toNat]).cfgd = true →
    ∃ t t1 t2 ls rs, issueAll (bqProcess m (frames.map Prod.fst)) s = some (t1, ls) ∧
      issueAll (bqProcess n (frames.map Prod.snd)) t1 = some (t2, rs) ∧
      issueAll (bqProcess2 m n frames) s = some (t, interleave ls rs) ∧ t.inst = t2.inst

/-! ## Sample converter (40_converter.md) -/

/-- R111: CV.DEC8 answers (b - 128)·2^-7 exactly, +0.0 for b = 0x80, and writes nothing. -/
def Obligations.Dec8AnswersExactValue : Prop :=
  ∀ (b : Byte) (s : State), ∃ w : Bits64,
    exec (.dec8 b) s = .next { s with tx := some { rc := .ok, opc := 0x10, results := [w] }, pc := s.pc + 1 } ∧
    isFinite w = true ∧ sunits w * 2 ^ 7 = ((b.toNat : Int) - 128) * unit ∧ (b = 0x80 → w = 0x0000000000000000)

/-- R112: CV.DEC16 answers v·2^-15 exactly for the two's complement code v, +0.0 for 0, and writes nothing. -/
def Obligations.Dec16AnswersExactValue : Prop :=
  ∀ (b : BitVec 16) (s : State), ∃ w : Bits64,
    exec (.dec16 b) s = .next { s with tx := some { rc := .ok, opc := 0x11, results := [w] }, pc := s.pc + 1 } ∧
    isFinite w = true ∧ sunits w * 2 ^ 15 = b.toInt * unit ∧ (b = 0 → w = 0x0000000000000000)

/-- R113: CV.ENC8 answers trunc(fmul(clamp(x), 127.0)) + 128 in bits 7:0 with bits 63:8 zero, and writes nothing. -/
def Obligations.Enc8AnswersTruncatedCode : Prop :=
  ∀ (x : Bits64) (s : State), ∃ code : Byte,
    exec (.enc8 x) s
      = .next { s with tx := some { rc := .ok, opc := 0x12, results := [code.setWidth 64] }, pc := s.pc + 1 } ∧
    (code.toNat : Int) = trunc (fmul (clamp x) 0x405FC00000000000) + 128

/-- R114: CV.ENC16 answers the two's complement code of trunc(fmul(clamp(x), 32767.0)) in bits 15:0 with bits 63:16 zero,
and writes nothing. -/
def Obligations.Enc16AnswersTruncatedCode : Prop :=
  ∀ (x : Bits64) (s : State), ∃ code : BitVec 16,
    exec (.enc16 x) s
      = .next { s with tx := some { rc := .ok, opc := 0x13, results := [code.setWidth 64] }, pc := s.pc + 1 } ∧
    code.toInt = trunc (fmul (clamp x) 0x40DFFFC000000000)

/-- R110: the clamp, case by case. -/
def Obligations.ClampCases : Prop :=
  ∀ x : Bits64,
    (isNaN x = true → clamp x = 0x0000000000000000) ∧
    (isNaN x = false → (unit : Int) < sunits x → clamp x = 0x3FF0000000000000) ∧
    (isNaN x = false → sunits x < -(unit : Int) → clamp x = 0xBFF0000000000000) ∧
    (isNaN x = false → -(unit : Int) ≤ sunits x → sunits x ≤ unit → clamp x = x) ∧
    clamp 0x7FF0000000000000 = 0x3FF0000000000000 ∧ clamp 0xFFF0000000000000 = 0xBFF0000000000000

/-- R113, R114 (corner cases): the codes at and beyond the ends of the range, for zeros and for NaN. -/
def Obligations.EncoderCornerCodes : Prop :=
  ∀ x : Bits64,
    (isNaN x = true → enc8Code x = 0x80 ∧ enc16Code x = 0x0000) ∧
    (isZero x = true → enc8Code x = 0x80 ∧ enc16Code x = 0x0000) ∧
    (isNaN x = false → (unit : Int) ≤ sunits x → enc8Code x = 0xFF ∧ enc16Code x = 0x7FFF) ∧
    (isNaN x = false → sunits x ≤ -(unit : Int) → enc8Code x = 0x01 ∧ enc16Code x = 0x8001)

/-- R115: the decoders' outputs lie in [-1, 127/128] and [-1, 32767/32768]; only the negative extreme reaches the bound. -/
def Obligations.DecoderRange : Prop :=
  (∀ b : Byte, -(unit : Int) ≤ sunits (dec8Value b) ∧ sunits (dec8Value b) * 128 ≤ 127 * unit ∧
    (|sunits (dec8Value b)| = unit ↔ b = 0x00)) ∧
  (∀ b : BitVec 16, -(unit : Int) ≤ sunits (dec16Value b) ∧ sunits (dec16Value b) * 32768 ≤ 32767 * unit ∧
    (|sunits (dec16Value b)| = unit ↔ b = 0x8000))

/-- R116: the encoders produce only codes in range and never the most negative one; the truncated sample needs no
wrapping. -/
def Obligations.EncoderRange : Prop :=
  ∀ x : Bits64,
    enc8Code x ≠ 0x00 ∧ enc16Code x ≠ 0x8000 ∧
    -127 ≤ trunc (fmul (clamp x) 0x405FC00000000000) ∧ trunc (fmul (clamp x) 0x405FC00000000000) ≤ 127 ∧
    -32767 ≤ trunc (fmul (clamp x) 0x40DFFFC000000000) ∧ trunc (fmul (clamp x) 0x40DFFFC000000000) ≤ 32767

/-- R117: for every x in [-1, 1] the 16-bit round trip errs by less than 2^-14 and the 8-bit one by less than 2^-6; the
bounds of one step, 2^-15 and 2^-7, do not hold: 0.99996918 errs by 1.99 steps and 0.9999 by 1.987 (rounded as the rule
rounds them). -/
def Obligations.RoundTripErrorBound : Prop :=
  (∀ x : Bits64, isNaN x = false → |sunits x| ≤ unit →
    |sunits (dec16Value (enc16Code x)) - sunits x| * 2 ^ 14 < unit ∧
    |sunits (dec8Value (enc8Code x)) - sunits x| * 2 ^ 6 < unit) ∧
  (Asm.decimalToF64 false 99996918 (-8) = 0x3FEFFFBF5DA37439 ∧ enc16Code 0x3FEFFFBF5DA37439 = 0x7FFD ∧
    1985 * unit < |sunits (dec16Value 0x7FFD) - sunits 0x3FEFFFBF5DA37439| * 2 ^ 15 * 1000 ∧
    |sunits (dec16Value 0x7FFD) - sunits 0x3FEFFFBF5DA37439| * 2 ^ 15 * 1000 < 1995 * unit) ∧
  (Asm.decimalToF64 false 9999 (-4) = 0x3FEFFF2E48E8A71E ∧ enc8Code 0x3FEFFF2E48E8A71E = 0xFE ∧
    19865 * unit < |sunits (dec8Value 0xFE) - sunits 0x3FEFFF2E48E8A71E| * 2 ^ 7 * 10000 ∧
    |sunits (dec8Value 0xFE) - sunits 0x3FEFFF2E48E8A71E| * 2 ^ 7 * 10000 < 19875 * unit)

/-- R118: encoding right after decoding moves every non-zero code one step toward zero. -/
def Obligations.EncodeAfterDecodeStepsTowardZero : Prop :=
  (∀ c : BitVec 16, enc16Code (dec16Value c) = if 0 < c.toInt then c - 1 else if c.toInt < 0 then c + 1 else c) ∧
  (∀ u : Byte, enc8Code (dec8Value u) = if 128 < u.toNat then u - 1 else if u.toNat < 128 then u + 1 else u)

/-! ## Filter configuration (41_filter_config.md) -/

/-- R133 with R130, inside DOM_BP: the five coefficients, the delay registers and `cfgd` that BQ.CFGBP writes, its
response, and nothing else. -/
def Obligations.CfgbpWritesBandPass : Prop :=
  ∀ (n : InstNum) (f0 g q : Bits64) (fs : Bits32) (s : State) (h : n.toNat < Config.numInst), domBP f0 g q fs = true →
    let w0 := fdiv (fmul 0x401921FB54442D18 f0) (u32ToF64 fs)
    let al := fdiv (sin64 w0) (fmul 0x4000000000000000 q)
    let a0 := fadd 0x3FF0000000000000 al
    exec (.cfgbp n f0 g q fs) s = .next
      { s with
        inst := s.inst.set n.toNat
          { cfgd := true
            b0 := some (fdiv (fmul g al) a0)
            b1 := some (fdiv 0x0000000000000000 a0)
            b2 := some (fdiv (fneg (fmul g al)) a0)
            a1 := some (fdiv (fmul 0xC000000000000000 (cos64 w0)) a0)
            a2 := some (fdiv (fsub 0x3FF0000000000000 al) a0)
            w1 := 0x0000000000000000
            w2 := 0x0000000000000000 } h
        tx := some { rc := .ok, opc := 0x01, results := [] }
        pc := s.pc + 1 }

/-- R134 with R130, inside DOM_N: what BQ.CFGNOTCH writes, its response, and nothing else. -/
def Obligations.CfgnotchWritesNotch : Prop :=
  ∀ (n : InstNum) (f0 q : Bits64) (fs : Bits32) (s : State) (h : n.toNat < Config.numInst), domN f0 q fs = true →
    let w0 := fdiv (fmul 0x401921FB54442D18 f0) (u32ToF64 fs)
    let al := fdiv (sin64 w0) (fmul 0x4000000000000000 q)
    let a0 := fadd 0x3FF0000000000000 al
    exec (.cfgnotch n f0 q fs) s = .next
      { s with
        inst := s.inst.set n.toNat
          { cfgd := true
            b0 := some (fdiv 0x3FF0000000000000 a0)
            b1 := some (fdiv (fmul 0xC000000000000000 (cos64 w0)) a0)
            b2 := some (fdiv 0x3FF0000000000000 a0)
            a1 := some (fdiv (fmul 0xC000000000000000 (cos64 w0)) a0)
            a2 := some (fdiv (fsub 0x3FF0000000000000 al) a0)
            w1 := 0x0000000000000000
            w2 := 0x0000000000000000 } h
        tx := some { rc := .ok, opc := 0x02, results := [] }
        pc := s.pc + 1 }

/-- R132 (with log 4): outside its domain a configure command is not rejected. It marks UNDEF, writes each coefficient with
a draw of its own, zeroes the delay registers, sets `cfgd`, answers OK, and changes nothing else. -/
def Obligations.OutOfDomainConfigureDraws : Prop :=
  ∀ (n : InstNum) (f0 g q : Bits64) (fs : Bits32) (s : State) (h : n.toNat < Config.numInst),
    let t (opc : Byte) : State :=
      { s with
        inst := s.inst.set n.toNat
          { cfgd := true
            b0 := some (Config.draw s.draws)
            b1 := some (Config.draw (s.draws + 1))
            b2 := some (Config.draw (s.draws + 2))
            a1 := some (Config.draw (s.draws + 3))
            a2 := some (Config.draw (s.draws + 4))
            w1 := 0x0000000000000000
            w2 := 0x0000000000000000 } h
        undef := true
        draws := s.draws + 5
        tx := some { rc := .ok, opc := opc, results := [] }
        pc := s.pc + 1 }
    (domBP f0 g q fs = false → exec (.cfgbp n f0 g q fs) s = .next (t 0x01)) ∧
    (domN f0 q fs = false → exec (.cfgnotch n f0 q fs) s = .next (t 0x02))

/-- R131: the defined domains, in terms of exact values: all parameters finite, 8000 <= fs <= 96000, 0 < f0 < fs/2. -/
def Obligations.DefinedDomains : Prop :=
  ∀ (f0 g q : Bits64) (fs : Bits32),
    (domN f0 q fs = true ↔ isFinite f0 = true ∧ isFinite q = true ∧ 8000 ≤ fs.toNat ∧ fs.toNat ≤ 96000 ∧
      (0 : ℝ) < (sunits f0 : ℝ) / (unit : ℝ) ∧ (sunits f0 : ℝ) / (unit : ℝ) < (fs.toNat : ℝ) / 2) ∧
    (domBP f0 g q fs = true ↔ domN f0 q fs = true ∧ isFinite g = true)

/-- R136: a configure command writes all five coefficients, zeroes both delay registers and sets `cfgd`, inside and outside
its domain, and what it writes does not depend on what the instance held (outside the domain because both runs draw by the
same counter, which is the model's choice, log 4). -/
def Obligations.ConfiguringIsConstructing : Prop :=
  ∀ (i : Instr) (k : Fin Config.numInst) (s : State) (old : Inst), i.op = .cfgbp ∨ i.op = .cfgnotch →
    i.selects = some (BitVec.ofNat 4 k) →
    ∃ t u, exec i s = .next t ∧ exec i (s.setInst k old) = .next u ∧ u.getInst k = t.getInst k ∧
      (t.getInst k).b0.isSome ∧ (t.getInst k).b1.isSome ∧ (t.getInst k).b2.isSome ∧ (t.getInst k).a1.isSome ∧
      (t.getInst k).a2.isSome ∧ (t.getInst k).w1 = 0x0000000000000000 ∧ (t.getInst k).w2 = 0x0000000000000000 ∧
      (t.getInst k).cfgd = true

/-- R137: the identities between the stored coefficients, bit for bit, inside the domain. -/
def Obligations.CoefficientIdentities : Prop :=
  (∀ (n : InstNum) (f0 g q : Bits64) (fs : Bits32) (s : State) (_ : n.toNat < Config.numInst), domBP f0 g q fs = true →
    ∃ t b0 b1 b2, exec (.cfgbp n f0 g q fs) s = .next t ∧ (t.inst[n.toNat]).b0 = some b0 ∧
      (t.inst[n.toNat]).b1 = some b1 ∧ (t.inst[n.toNat]).b2 = some b2 ∧
      b1 = fdiv 0x0000000000000000 (derive f0 q fs).a0 ∧
      (isNaN (derive f0 q fs).a0 = false → 0 < sunits (derive f0 q fs).a0 → b1 = 0x0000000000000000) ∧
      (isNaN (derive f0 q fs).a0 = false → sunits (derive f0 q fs).a0 < 0 → b1 = 0x8000000000000000) ∧
      (isNaN (derive f0 q fs).a0 = true ∨ isZero (derive f0 q fs).a0 = true → b1 = 0x7FF8000000000000) ∧
      (isNaN b0 = false → b2 = fneg b0)) ∧
  (∀ (n : InstNum) (f0 q : Bits64) (fs : Bits32) (s : State) (_ : n.toNat < Config.numInst), domN f0 q fs = true →
    ∃ t b0 b1, exec (.cfgnotch n f0 q fs) s = .next t ∧ (t.inst[n.toNat]).b0 = some b0 ∧
      (t.inst[n.toNat]).b2 = some b0 ∧ (t.inst[n.toNat]).b1 = some b1 ∧ (t.inst[n.toNat]).a1 = some b1)

/-! ## Filter run (42_filter_run.md) -/

/-- R150: BQ.RESET on any instance, configured or not: both delay registers +0.0, the response, and nothing else. -/
def Obligations.ResetZeroesDelayRegisters : Prop :=
  ∀ (n : InstNum) (s : State) (h : n.toNat < Config.numInst),
    exec (.reset n) s = .next
      { s with
        inst := s.inst.set n.toNat { s.inst[n.toNat] with w1 := 0x0000000000000000, w2 := 0x0000000000000000 } h
        tx := some { rc := .ok, opc := 0x03, results := [] }
        pc := s.pc + 1 }

/-- R151 on a configured instance: the output from the old delay registers, the shift, the response, and nothing else. -/
def Obligations.TickAdvancesRecurrence : Prop :=
  ∀ (n : InstNum) (x b0 b1 b2 a1 a2 w1 w2 : Bits64) (s : State) (h : n.toNat < Config.numInst),
    s.inst[n.toNat] = { cfgd := true, b0 := some b0, b1 := some b1, b2 := some b2, a1 := some a1, a2 := some a2,
                        w1 := w1, w2 := w2 } →
    let w := fsub (fsub x (fmul a1 w1)) (fmul a2 w2)
    let y := fadd (fadd (fmul b0 w) (fmul b1 w1)) (fmul b2 w2)
    exec (.tick n x) s = .next
      { s with
        inst := s.inst.set n.toNat { s.inst[n.toNat] with w1 := w, w2 := w1 } h
        tx := some { rc := .ok, opc := 0x04, results := [y] }
        pc := s.pc + 1 }

/-- R151, R183 on an instance that is not configured: NOTCFG, E_NCFG set, and nothing else. -/
def Obligations.TickUnconfiguredIsRejected : Prop :=
  ∀ (n : InstNum) (x : Bits64) (s : State) (_ : n.toNat < Config.numInst), (s.inst[n.toNat]).cfgd = false →
    exec (.tick n x) s = .next
      { s with eNcfg := true, tx := some { rc := .notcfg, opc := 0x04, results := [] }, pc := s.pc + 1 }

/-- R153, R209: a host that sends a whole buffer of ticks at once gets, step by step, the outputs of the recurrence in order
and leaves the registers it leaves. That it takes one step for each tick, which also sends the response before, is the
model's choice (log 1, log 13). -/
def Obligations.ProcessBufferIsRepeatedTick : Prop :=
  ∀ (s : State) (n : InstNum) (xs : List Bits64) (h : n.toNat < Config.numInst), s.Ready →
    (s.inst[n.toNat]).cfgd = true →
    ∃ t, runSteps xs.length (s.hostSend (programBytes (bqProcess n xs))) = .next t ∧
      t.inst = s.inst.set n.toNat ((s.inst[n.toNat]).process xs).1 h ∧
      t.observation = s.observation
        ++ ((s.inst[n.toNat]).process xs).2.map (fun y => { rc := .ok, opc := 0x04, results := [y] })

/-- R154: with a NaN in a delay register or a coefficient, a tick returns QNAN and a NaN is still there; BQ.RESET removes a
NaN from the delay registers and leaves those of the coefficients. -/
def Obligations.NanPersists : Prop :=
  ∀ (n : InstNum) (s : State) (_ : n.toNat < Config.numInst), (s.inst[n.toNat]).cfgd = true →
    (s.inst[n.toNat]).poisoned = true →
    (∀ x : Bits64, ∃ t, exec (.tick n x) s = .next t ∧
      t.tx = some { rc := .ok, opc := 0x04, results := [0x7FF8000000000000] } ∧ (t.inst[n.toNat]).poisoned = true) ∧
    (∃ t, exec (.reset n) s = .next t ∧ isNaN (t.inst[n.toNat]).w1 = false ∧ isNaN (t.inst[n.toNat]).w2 = false ∧
      (t.inst[n.toNat]).coeffs = (s.inst[n.toNat]).coeffs)

/-- R155: ticks on several instances, interleaved in any order, give each instance the responses and the registers of its
own ticks alone. -/
def Obligations.InterleavedTicksAreIndependent : Prop :=
  ∀ (s : State) (ts : List (InstNum × Bits64)), s.Ready → (∀ p ∈ ts, p.1.toNat < Config.numInst) →
    ∃ t rs, issueAll (ts.map fun p => .tick p.1 p.2) s = some (t, rs) ∧ rs.length = ts.length ∧
      ∀ (n : InstNum) (_ : n.toNat < Config.numInst), ∃ t',
        issueAll ((ts.filter fun p => p.1 == n).map fun p => .tick p.1 p.2) s
          = some (t', ((ts.zip rs).filter fun q => q.1.1 == n).map Prod.snd) ∧
        t'.inst[n.toNat] = t.inst[n.toNat]

/-- R156: from delay registers at +0.0 with finite coefficients, a tick of ±0.0 returns a signed zero and leaves a signed
zero in w1 and +0.0 in w2. -/
def Obligations.ZeroInputStaysZero : Prop :=
  ∀ (n : InstNum) (x b0 b1 b2 a1 a2 : Bits64) (s : State) (_ : n.toNat < Config.numInst),
    s.inst[n.toNat] = { cfgd := true, b0 := some b0, b1 := some b1, b2 := some b2, a1 := some a1, a2 := some a2,
                        w1 := 0x0000000000000000, w2 := 0x0000000000000000 } →
    isFinite b0 = true → isFinite b1 = true → isFinite b2 = true → isFinite a1 = true → isFinite a2 = true →
    isZero x = true →
    ∃ t y, exec (.tick n x) s = .next t ∧ t.tx = some { rc := .ok, opc := 0x04, results := [y] } ∧ isZero y = true ∧
      isZero (t.inst[n.toNat]).w1 = true ∧ (t.inst[n.toNat]).w2 = 0x0000000000000000

/-- R66, R70, R209: the bytes of a host program, sent at once, are executed one command a step in order, exactly as if each
were sent after the response to the one before; every command gets one response, and after the last one the run ends. One
step for each command, which also sends the response before, and one more step that sends the last, are the model's choice
(log 1, log 13). The two runs compared leave the same state also where a configure command lies outside its domain, because
both draw by the same counter, which is the model's choice (log 4). -/
def Obligations.HostProgramRunsInOrder : Prop :=
  ∀ (s : State) (is : List Instr), s.Ready → (∀ i ∈ is, i.wf Config.build = true) →
    ∃ t rs, runSteps is.length (s.hostSend (programBytes is)) = .next t ∧ issueAll is s = some (t, rs) ∧
      rs.map Response.opc = is.map (fun i => i.op.code) ∧ t.pc = s.pc + is.length ∧
      t.observation = s.observation ++ rs ∧
      (is ≠ [] → ∃ u, step t = .next u ∧ u.Ended (s.pc + is.length) ∧ u.sent = s.observation ++ rs)

/-! ## Status (43_status.md) -/

/-- R170, R39: the word BQ.STATUS answers, field by field, that the command changes nothing else, and the word after
reset. -/
def Obligations.StatusAnswersStatusWord : Prop :=
  State.reset.status = 0x0000001100000000 ∧ ∀ s : State, ∃ w : Bits64,
    exec .status s = .next { s with tx := some { rc := .ok, opc := 0x08, results := [w] }, pc := s.pc + 1 } ∧
    (∀ k : Fin Config.numInst, w.getLsbD k = (s.getInst k).cfgd) ∧
    (∀ k : Nat, Config.numInst ≤ k → k < 16 → w.getLsbD k = false) ∧
    w.getLsbD 16 = s.eIll ∧ w.getLsbD 17 = s.eNcfg ∧ w.extractLsb' 18 14 = 0 ∧
    (w.extractLsb' 32 4).toNat = Config.numInst - 1 ∧ w.getLsbD 36 = Config.convPresent ∧ w.extractLsb' 37 27 = 0

/-! ## Arithmetic (00_scope.md) -/

/-- R9 (with log 11): the sum and the difference of finite words, rounded once to the nearest, ties to even; overflow to the
infinity of its sign; the sign of an exact zero. The sign flip of a word that is no NaN flips bit 63 alone; of a NaN it gives
QNAN. -/
def Obligations.SumCorrectlyRounded : Prop :=
  (∀ a b : Bits64, isFinite a = true → isFinite b = true →
    RoundsTo (fadd a b) (sunits a + sunits b) 1 ∧
    (sunits a + sunits b = 0 →
      fadd a b = if signBit a && signBit b then 0x8000000000000000 else 0x0000000000000000) ∧
    RoundsTo (fsub a b) (sunits a - sunits b) 1 ∧
    (sunits a - sunits b = 0 →
      fsub a b = if signBit a && !signBit b then 0x8000000000000000 else 0x0000000000000000)) ∧
  (∀ a : Bits64, fneg a = if isNaN a then 0x7FF8000000000000 else a ^^^ 0x8000000000000000)

/-- R9 (with log 11): the product of finite words, rounded once to the nearest, ties to even, subnormals kept; its sign; overflow. -/
def Obligations.ProductCorrectlyRounded : Prop :=
  ∀ a b : Bits64, isFinite a = true → isFinite b = true →
    (isFinite (fmul a b) = true ↔ |sunits a * sunits b| < overflowUnits * unit) ∧
    (isFinite (fmul a b) = false → isInf (fmul a b) = true) ∧
    signBit (fmul a b) = (signBit a != signBit b) ∧
    (isFinite (fmul a b) = true → ∀ c : Bits64, isFinite c = true →
      |sunits (fmul a b) * unit - sunits a * sunits b| ≤ |sunits c * unit - sunits a * sunits b| ∧
      (sunits c ≠ sunits (fmul a b) →
        |sunits (fmul a b) * unit - sunits a * sunits b| = |sunits c * unit - sunits a * sunits b| →
        fracField (fmul a b) % 2 = 0))

/-- R9 (with log 11): the quotient of finite words by a non-zero one, rounded once to the nearest, ties to even; its sign; overflow. -/
def Obligations.QuotientCorrectlyRounded : Prop :=
  ∀ a b : Bits64, isFinite a = true → isFinite b = true → isZero b = false →
    (isFinite (fdiv a b) = true ↔ |sunits a| * unit < overflowUnits * |sunits b|) ∧
    (isFinite (fdiv a b) = false → isInf (fdiv a b) = true) ∧
    signBit (fdiv a b) = (signBit a != signBit b) ∧
    (isFinite (fdiv a b) = true → ∀ c : Bits64, isFinite c = true →
      |sunits (fdiv a b) * sunits b - sunits a * unit| ≤ |sunits c * sunits b - sunits a * unit| ∧
      (sunits c ≠ sunits (fdiv a b) →
        |sunits (fdiv a b) * sunits b - sunits a * unit| = |sunits c * sunits b - sunits a * unit| →
        fracField (fdiv a b) % 2 = 0))

/-- R9 (with log 11): NaN operands, infinities and division by zero. Every NaN result is QNAN. -/
def Obligations.SpecialOperands : Prop :=
  (∀ a b : Bits64, isNaN a = true ∨ isNaN b = true →
    fadd a b = 0x7FF8000000000000 ∧ fsub a b = 0x7FF8000000000000 ∧ fmul a b = 0x7FF8000000000000 ∧
    fdiv a b = 0x7FF8000000000000) ∧
  (∀ a b : Bits64,
    (isNaN (fadd a b) = true → fadd a b = 0x7FF8000000000000) ∧
    (isNaN (fsub a b) = true → fsub a b = 0x7FF8000000000000) ∧
    (isNaN (fmul a b) = true → fmul a b = 0x7FF8000000000000) ∧
    (isNaN (fdiv a b) = true → fdiv a b = 0x7FF8000000000000)) ∧
  (∀ a b : Bits64, isInf a = true → isInf b = true →
    fdiv a b = 0x7FF8000000000000 ∧ (signBit a ≠ signBit b → fadd a b = 0x7FF8000000000000) ∧
    (signBit a = signBit b → fadd a b = a ∧ fsub a b = 0x7FF8000000000000) ∧
    (signBit a ≠ signBit b → fsub a b = a)) ∧
  (∀ a b : Bits64, isInf a = true → isZero b = true →
    fmul a b = 0x7FF8000000000000 ∧ fmul b a = 0x7FF8000000000000) ∧
  (∀ a b : Bits64, isInf a = true → isNaN b = false → isZero b = false →
    fmul a b = (if signBit a = signBit b then 0x7FF0000000000000 else 0xFFF0000000000000) ∧
    fmul b a = (if signBit a = signBit b then 0x7FF0000000000000 else 0xFFF0000000000000)) ∧
  (∀ a b : Bits64, isInf a = true → isFinite b = true →
    fdiv a b = (if signBit a = signBit b then 0x7FF0000000000000 else 0xFFF0000000000000) ∧
    fdiv b a = (if signBit a = signBit b then 0x0000000000000000 else 0x8000000000000000)) ∧
  (∀ a b : Bits64, isZero a = true → isZero b = true → fdiv a b = 0x7FF8000000000000) ∧
  (∀ a b : Bits64, isNaN a = false → isZero a = false → isZero b = true →
    fdiv a b = if signBit a = signBit b then 0x7FF0000000000000 else 0xFFF0000000000000) ∧
  (∀ a b : Bits64, isInf a = true → isFinite b = true → fadd a b = a ∧ fadd b a = a ∧ fsub a b = a ∧
    fsub b a = a ^^^ 0x8000000000000000) ∧
  (∀ a : Bits64, isFinite a = true → fsub a a = 0x0000000000000000)

/-- R10: comparisons of exact values and truncation toward zero. -/
def Obligations.ComparisonAndTruncation : Prop :=
  (∀ a b : Bits64, isNaN a = true ∨ isNaN b = true → flt a b = false) ∧
  (∀ a b : Bits64, isFinite a = true → isFinite b = true → (flt a b = true ↔ sunits a < sunits b)) ∧
  (∀ a : Bits64, isFinite a = true → flt a 0x7FF0000000000000 = true ∧ flt 0x7FF0000000000000 a = false ∧
    flt 0xFFF0000000000000 a = true ∧ flt a 0xFFF0000000000000 = false) ∧
  flt 0x8000000000000000 0x0000000000000000 = false ∧ flt 0x0000000000000000 0x8000000000000000 = false ∧
  (∀ v : Bits64, isFinite v = true →
    |trunc v| * unit ≤ |sunits v| ∧ |sunits v| < (|trunc v| + 1) * unit ∧ 0 ≤ trunc v * sunits v)

/-- R7: the conversions from integers are exact. -/
def Obligations.IntegerConversionsExact : Prop :=
  (∀ n : Int, |n| < 2 ^ 53 → isFinite (intToF64 n) = true ∧ sunits (intToF64 n) = n * unit) ∧
  (∀ n : Bits32, isFinite (u32ToF64 n) = true ∧ sunits (u32ToF64 n) = n.toNat * unit)

/-- R11: PI64 is the binary64 nearest π, and TWO_PI64 is twice it, exactly. -/
def Obligations.PiConstants : Prop :=
  Config.pi64 = 0x400921FB54442D18 ∧
  (∀ c : Bits64, isFinite c = true →
    |(sunits Config.pi64 : ℝ) / (unit : ℝ) - Real.pi| ≤ |(sunits c : ℝ) / (unit : ℝ) - Real.pi|) ∧
  twoPi64 = fmul 0x4000000000000000 Config.pi64 ∧ twoPi64 = 0x401921FB54442D18 ∧
  sunits twoPi64 = 2 * sunits Config.pi64

/-- R6, R11, D7 (with log 5): wherever the model's enclosure decides the rounding, SIN64 is the binary64 nearest the real
sine. -/
def Obligations.SineCorrectlyRounded : Prop :=
  ∀ v : Bits64, isFinite v = true → isZero v = true ∨ sinDecided (units v) ≠ none →
    isFinite (sin64 v) = true ∧ ∀ c : Bits64, isFinite c = true →
      |(sunits (sin64 v) : ℝ) / (unit : ℝ) - Real.sin ((sunits v : ℝ) / (unit : ℝ))|
        ≤ |(sunits c : ℝ) / (unit : ℝ) - Real.sin ((sunits v : ℝ) / (unit : ℝ))|

/-- R6, R11, D7 (with log 5): wherever the model's enclosure decides the rounding, COS64 is the binary64 nearest the real
cosine. -/
def Obligations.CosineCorrectlyRounded : Prop :=
  ∀ v : Bits64, isFinite v = true → cosDecided (units v) ≠ none →
    isFinite (cos64 v) = true ∧ ∀ c : Bits64, isFinite c = true →
      |(sunits (cos64 v) : ℝ) / (unit : ℝ) - Real.cos ((sunits v : ℝ) / (unit : ℝ))|
        ≤ |(sunits c : ℝ) / (unit : ℝ) - Real.cos ((sunits v : ℝ) / (unit : ℝ))|
end

