-- ==== Sys2Proof/Laws/Assembler.lean ====
section
/-! SUPPORT. How a literal's text is read back (R93, log 17): a text splits exactly at its separators, digits read back as
the number they write, and a decimal literal never looks like another kind of operand; and a line
names the same number of results whatever the block answers (log 18). -/

namespace Sys2Proof.Machine.Asm

/-! ## Splitting -/

/-- A text without a separator is one piece. -/
theorem splitOn_none {sep : Char → Bool} : ∀ cs : List Char, (∀ c ∈ cs, sep c = false) → splitOn sep cs = [cs]
  | [], _ => rfl
  | c :: cs, h => by
    rw [splitOn, splitOn_none cs fun d hd => h d (.tail _ hd), h c (.head _)]
    rfl

/-- A text splits at its first separator. -/
theorem splitOn_append {sep : Char → Bool} {c : Char} (hc : sep c = true) (ds : List Char) :
    ∀ cs : List Char, (∀ d ∈ cs, sep d = false) → splitOn sep (cs ++ c :: ds) = cs :: splitOn sep ds
  | [], _ => by simp [splitOn, hc]
  | d :: cs, h => by
    rw [List.cons_append, splitOn, splitOn_append hc ds cs fun e he => h e (.tail _ he), h d (.head _)]
    rfl

/-! ## Digits -/

theorem digit_toNat (d : Fin 10) : (Char.ofNat (48 + d.val)).toNat = 48 + d.val := by fin_cases d <;> rfl

/-- The digit a digit's character reads as, and the characters it is not. -/
theorem digit_char (d : Fin 10) :
    decDigit (Char.ofNat (48 + d.val)) = some d.val ∧
    (∀ c ∈ ['-', '+', '.', 'e', 'E', 'i', 'n', '#'], Char.ofNat (48 + d.val) ≠ c) := by
  refine ⟨by fin_cases d <;> rfl, fun c hc h => ?_⟩
  have hn := digit_toNat d
  rw [h] at hn
  simp only [List.mem_cons, List.not_mem_nil, or_false] at hc
  obtain rfl | rfl | rfl | rfl | rfl | rfl | rfl | rfl := hc <;> simp at hn <;> omega

theorem mem_digitText {c : Char} {ds : List (Fin 10)} (h : c ∈ digitText ds) : ∃ d : Fin 10, c = Char.ofNat (48 + d.val) := by
  obtain ⟨d, -, rfl⟩ := List.mem_map.mp h
  exact ⟨d, rfl⟩

@[simp] theorem digitText_length (ds : List (Fin 10)) : (digitText ds).length = ds.length := List.length_map ..

theorem digitText_append (ds es : List (Fin 10)) : digitText ds ++ digitText es = digitText (ds ++ es) :=
  List.map_append.symm

/-- Digits read back as the number they write. -/
theorem decimal_digitText {ds : List (Fin 10)} (h : ds ≠ []) : decimal (digitText ds) = some (digitsValue ds) := by
  have key : ∀ (ds : List (Fin 10)) (n : Nat),
      digitsFrom decDigit 10 n (digitText ds) = some (ds.foldl (fun n d => n * 10 + d.val) n) := by
    intro ds
    induction ds with
    | nil => exact fun _ => rfl
    | cons d ds ih =>
      intro n
      change digitsFrom decDigit 10 n (Char.ofNat (48 + d.val) :: digitText ds) = _
      rw [digitsFrom, (digit_char d).1]
      exact ih _
  rw [decimal, if_neg (by cases ds <;> simp_all [digitText]), key]
  rfl

/-- An exponent reads back as the signed number it writes. -/
theorem exponent_text (sign : Option Bool) {ds : List (Fin 10)} (h : ds ≠ []) :
    exponent (signText sign ++ digitText ds)
      = some (if sign == some true then -(digitsValue ds : Int) else digitsValue ds) := by
  have hd := decimal_digitText h
  match sign with
  | some true => simp [signText, exponent, hd]
  | some false => simp [signText, exponent, hd]
  | none =>
    obtain ⟨d, ds, rfl⟩ := List.exists_cons_of_ne_nil h
    have hc := (digit_char d).2
    rw [show signText none ++ digitText (d :: ds) = Char.ofNat (48 + d.val) :: digitText ds from rfl] at *
    rw [show digitText (d :: ds) = Char.ofNat (48 + d.val) :: digitText ds from rfl] at hd
    unfold exponent
    split
    · rename_i h; exact absurd (List.cons.inj h).1 (hc _ (by simp))
    · rename_i h; exact absurd (List.cons.inj h).1 (hc _ (by simp))
    · simp [hd]

/-- An operand that begins with a digit is an unsigned decimal literal, and no other kind of operand. -/
theorem f64_of_digit (d : Fin 10) (cs : List Char) :
    f64 (Char.ofNat (48 + d.val) :: cs) = unsignedLiteral false (Char.ofNat (48 + d.val) :: cs) := by
  have hc := (digit_char d).2
  unfold f64
  split <;> first | rfl | (rename_i h; exact absurd (List.cons.inj h).1 (hc _ (by simp)))

/-- A digit after a sign makes it an unsigned decimal literal of that sign, and no other kind of operand. -/
theorem f64_of_sign_digit (minus : Bool) (d : Fin 10) (cs : List Char) :
    f64 ((if minus then '-' else '+') :: Char.ofNat (48 + d.val) :: cs)
      = unsignedLiteral minus (Char.ofNat (48 + d.val) :: cs) := by
  have hc := (digit_char d).2 'i' (by simp)
  cases minus
  · rfl
  · unfold f64
    split
    case h_3 => rename_i h; exact absurd (List.cons.inj (List.cons.inj h).2).1 hc
    all_goals first | rfl | simp_all

end Sys2Proof.Machine.Asm

namespace Sys2Proof.Machine

/-! ## Named results (R94, R98, R101; log 18) -/

/-- How many results a command's line names does not depend on what the block answered. -/
theorem namedResults_length (i : Instr) (ws vs : List Bits64) : (namedResults i ws).length = (namedResults i vs).length := by
  cases i <;> rfl

end Sys2Proof.Machine
end

