-- ==== Sys2Proof/Laws/Binary64.lean ====
section
/-! SUPPORT. Packing and unpacking a word, and the one fact all rounding rests on: `roundMag` gives the nearest magnitude,
ties to even (R9). -/

namespace Sys2Proof.Machine

/-! ## Rounding to an integer -/

/-- `roundEven num den` is a nearest integer to `num / den`, and an even one at a tie. -/
theorem roundEven_spec (num den : Nat) (hden : 0 < den) :
    (2 * num < (2 * roundEven num den + 1) * den ∧ (2 * roundEven num den) * den < 2 * num + den) ∨
    (roundEven num den % 2 = 0 ∧
      (2 * num = (2 * roundEven num den + 1) * den ∨ (2 * roundEven num den) * den = 2 * num + den)) := by
  have hdiv := Nat.div_add_mod num den
  have hlt := Nat.mod_lt num hden
  generalize hq : num / den = q at *
  generalize hr : num % den = r at *
  have hmul : ∀ a : Nat, a * den = den * a := fun a => Nat.mul_comm a den
  unfold roundEven
  rw [hq, hr]
  have e1 : (2 * q + 1) * den = 2 * (den * q) + den := by ring
  have e2 : 2 * q * den = 2 * (den * q) := by ring
  have e3 : (2 * (q + 1) + 1) * den = 2 * (den * q) + 3 * den := by ring
  have e4 : 2 * (q + 1) * den = 2 * (den * q) + 2 * den := by ring
  split
  · left; rw [e1, e2]; omega
  · split
    · left; rw [e3, e4]; omega
    · right
      rcases Nat.mod_two_eq_zero_or_one q with hq2 | hq2
      · rw [hq2, Nat.add_zero, e1, e2]; omega
      · rw [hq2, e3, e4]; omega

/-- Twice the distance of `roundEven` from the exact ratio is at most one denominator. -/
theorem roundEven_close (num den : Nat) (hden : 0 < den) :
    2 * |(roundEven num den * den : Int) - num| ≤ den := by
  have h := roundEven_spec num den hden
  generalize roundEven num den = k at *
  have e1 : (2 * k + 1) * den = 2 * (k * den) + den := by ring
  have e2 : 2 * k * den = 2 * (k * den) := by ring
  rw [e1, e2] at h
  rw [show ((k : Int) * den) = ((k * den : Nat) : Int) by push_cast; ring]
  generalize k * den = x at *
  rw [← abs_two, ← abs_mul, abs_le]
  omega

/-- No integer is nearer to `num / den` than `roundEven num den`; one as near only at a tie, and then the answer is
even. -/
theorem roundEven_nearest (num den j : Nat) (hden : 0 < den) :
    |(roundEven num den * den : Int) - num| ≤ |(j * den : Int) - num| ∧
    (j ≠ roundEven num den → |(roundEven num den * den : Int) - num| = |(j * den : Int) - num| →
      roundEven num den % 2 = 0) := by
  have h := roundEven_spec num den hden
  generalize roundEven num den = k at *
  have e1 : (2 * k + 1) * den = 2 * (k * den) + den := by ring
  have e2 : 2 * k * den = 2 * (k * den) := by ring
  rw [e1, e2] at h
  rw [show ((k : Int) * den) = ((k * den : Nat) : Int) by push_cast; ring,
      show ((j : Int) * den) = ((j * den : Nat) : Int) by push_cast; ring]
  rcases lt_trichotomy j k with hjk | hjk | hjk
  · have : j * den + den ≤ k * den := by
      calc j * den + den = (j + 1) * den := by ring
        _ ≤ k * den := Nat.mul_le_mul_right _ hjk
    generalize k * den = x at *
    generalize j * den = y at *
    constructor
    · rcases abs_cases ((x : Int) - num) with ⟨hx, _⟩ | ⟨hx, _⟩ <;>
        rcases abs_cases ((y : Int) - num) with ⟨hy, _⟩ | ⟨hy, _⟩ <;> omega
    · intro _ he
      rw [abs_eq_abs] at he
      omega
  · subst hjk
    exact ⟨le_refl _, fun hne => absurd rfl hne⟩
  · have : k * den + den ≤ j * den := by
      calc k * den + den = (k + 1) * den := by ring
        _ ≤ j * den := Nat.mul_le_mul_right _ hjk
    generalize k * den = x at *
    generalize j * den = y at *
    constructor
    · rcases abs_cases ((x : Int) - num) with ⟨hx, _⟩ | ⟨hx, _⟩ <;>
        rcases abs_cases ((y : Int) - num) with ⟨hy, _⟩ | ⟨hy, _⟩ <;> omega
    · intro _ he
      rw [abs_eq_abs] at he
      omega

/-! ## Magnitudes -/

/-- The magnitude, in units, that the bits 62:0 of a finite word stand for. -/
def magUnits (m : Nat) : Nat := if m / 2 ^ 52 = 0 then m else (2 ^ 52 + m % 2 ^ 52) * 2 ^ (m / 2 ^ 52 - 1)

/-- The magnitude bits of +Inf: every finite word's are below. -/
def infMag : Nat := 0x7FF0000000000000

/-- A magnitude is k·2^s units: k fits 53 bits, and is normalized when s > 0. -/
theorem magUnits_mk (s k : Nat) (hk : k ≤ 2 ^ 53) (hs : s ≠ 0 → 2 ^ 52 ≤ k) :
    magUnits (s * 2 ^ 52 + k) = k * 2 ^ s := by
  unfold magUnits
  have hd : (s * 2 ^ 52 + k) / 2 ^ 52 = s + k / 2 ^ 52 := by omega
  have hm : (s * 2 ^ 52 + k) % 2 ^ 52 = k % 2 ^ 52 := by omega
  rw [hd, hm]
  rcases Nat.lt_or_ge k (2 ^ 52) with hlt | hge
  · have h0 : s = 0 := by by_contra h; have := hs h; omega
    subst h0
    rw [if_pos (by omega)]
    omega
  · rcases Nat.lt_or_ge k (2 ^ 53) with h53 | h53
    · have h1 : k / 2 ^ 52 = 1 := by omega
      rw [h1, if_neg (by omega)]
      congr 1
      omega
    · have hk' : k = 2 ^ 53 := by omega
      subst hk'
      have h2 : (2 ^ 53 : Nat) / 2 ^ 52 = 2 := by norm_num
      rw [h2, if_neg (by omega)]
      have h3 : (2 ^ 53 : Nat) % 2 ^ 52 = 0 := by norm_num
      rw [h3, show s + 2 - 1 = s + 1 by omega, pow_succ]
      ring

/-- Every magnitude has such a form. -/
theorem magUnits_form (m : Nat) :
    ∃ s k, m = s * 2 ^ 52 + k ∧ k < 2 ^ 53 ∧ (s ≠ 0 → 2 ^ 52 ≤ k) ∧ magUnits m = k * 2 ^ s := by
  rcases Nat.eq_zero_or_pos (m / 2 ^ 52) with h | h
  · have hm : m < 2 ^ 52 := by omega
    exact ⟨0, m, by omega, by omega, fun h => absurd rfl h, by rw [magUnits, if_pos h]; omega⟩
  · refine ⟨m / 2 ^ 52 - 1, 2 ^ 52 + m % 2 ^ 52, by omega, by omega, fun _ => by omega, ?_⟩
    rw [magUnits, if_neg (by omega)]

theorem magUnits_lt_succ (m : Nat) : magUnits m < magUnits (m + 1) := by
  obtain ⟨s, k, hm, hk, hs, hv⟩ := magUnits_form m
  have h := magUnits_mk s (k + 1) (by omega) (fun h => by have := hs h; omega)
  rw [hv, hm, Nat.add_assoc, h]
  exact Nat.mul_lt_mul_of_pos_right (Nat.lt_succ_self k) (Nat.two_pow_pos s)

theorem magUnits_strictMono : StrictMono magUnits := strictMono_nat_of_lt_succ magUnits_lt_succ

/-! ## Rounding -/

/-- The exponent range of `excess`: nothing is lost below 2^53, and 53 bits stay above. -/
theorem excess_spec (n : Nat) : n < 2 ^ (excess n + 53) ∧ (excess n ≠ 0 → 2 ^ (excess n + 52) ≤ n) := by
  unfold excess
  rcases Nat.eq_zero_or_pos n with h | h
  · subst h; simp
  · have h1 := (Nat.log2_eq_iff (by omega : n ≠ 0)).1 rfl
    constructor
    · exact lt_of_lt_of_le h1.2 (Nat.pow_le_pow_right (by norm_num) (by omega))
    · intro hs
      have : Nat.log2 n - 52 + 52 = Nat.log2 n := by omega
      rw [this]; exact h1.1

/-- The rounded significand of `num / den` units at its own exponent. -/
theorem roundEven_range (num den : Nat) (hden : 0 < den) :
    roundEven num (den * 2 ^ excess (num / den)) ≤ 2 ^ 53 ∧
    (excess (num / den) ≠ 0 → 2 ^ 52 ≤ roundEven num (den * 2 ^ excess (num / den))) := by
  obtain ⟨hlt, hge⟩ := excess_spec (num / den)
  generalize excess (num / den) = s at *
  have hD : 0 < den * 2 ^ s := Nat.mul_pos hden (Nat.two_pow_pos s)
  have hup : num / (den * 2 ^ s) < 2 ^ 53 := by
    rw [Nat.div_lt_iff_lt_mul hD]
    rw [Nat.div_lt_iff_lt_mul hden] at hlt
    calc num < 2 ^ (s + 53) * den := hlt
      _ = 2 ^ 53 * (den * 2 ^ s) := by rw [pow_add]; ring
  have hle : num / (den * 2 ^ s) ≤ roundEven num (den * 2 ^ s) ∧
      roundEven num (den * 2 ^ s) ≤ num / (den * 2 ^ s) + 1 := by
    unfold roundEven; split
    · omega
    · split <;> omega
  refine ⟨by omega, fun hs => ?_⟩
  have := hge hs
  rw [Nat.le_div_iff_mul_le hden] at this
  have : 2 ^ 52 ≤ num / (den * 2 ^ s) := by
    rw [Nat.le_div_iff_mul_le hD]
    calc 2 ^ 52 * (den * 2 ^ s) = 2 ^ (s + 52) * den := by rw [pow_add]; ring
      _ ≤ num := this
  omega

/-- What rounding gives: a significand rounded at the exponent of the ratio, unless that overflows. -/
theorem magUnits_roundMag (num den : Nat) (hden : 0 < den) (hfin : roundMag num den < infMag) :
    magUnits (roundMag num den)
      = roundEven num (den * 2 ^ excess (num / den)) * 2 ^ excess (num / den) := by
  obtain ⟨h1, h2⟩ := roundEven_range num den hden
  have : roundMag num den
      = excess (num / den) * 2 ^ 52 + roundEven num (den * 2 ^ excess (num / den)) := by
    unfold roundMag infMag at *; omega
  rw [this, magUnits_mk _ _ h1 h2]

theorem roundMag_le_inf (num den : Nat) : roundMag num den ≤ infMag := Nat.min_le_right _ _

/-- roundTiesToEven (R9): no finite magnitude is nearer to `num / den` units than the rounded one, and another one is as
near only when the rounded one is even. -/
theorem roundMag_nearest (num den : Nat) (hden : 0 < den) (hfin : roundMag num den < infMag) (m : Nat) :
    |(magUnits (roundMag num den) * den : Int) - num| ≤ |(magUnits m * den : Int) - num| ∧
    (m ≠ roundMag num den →
      |(magUnits (roundMag num den) * den : Int) - num| = |(magUnits m * den : Int) - num| →
      roundMag num den % 2 = 0) := by
  have hv := magUnits_roundMag num den hden hfin
  obtain ⟨hk1, hk2⟩ := roundEven_range num den hden
  have hbits : roundMag num den
      = excess (num / den) * 2 ^ 52 + roundEven num (den * 2 ^ excess (num / den)) := by
    unfold roundMag infMag at *; omega
  obtain ⟨hlt, hge⟩ := excess_spec (num / den)
  have hpar : roundMag num den % 2 = roundEven num (den * 2 ^ excess (num / den)) % 2 := by rw [hbits]; omega
  rw [hpar]
  have hne : m ≠ roundMag num den → magUnits m ≠ magUnits (roundMag num den) :=
    fun h e => h (magUnits_strictMono.injective e)
  rw [hv] at hne ⊢
  generalize hs : excess (num / den) = s at *
  have hD : 0 < den * 2 ^ s := Nat.mul_pos hden (Nat.two_pow_pos s)
  have hnear := fun j => roundEven_nearest num (den * 2 ^ s) j hD
  generalize hk : roundEven num (den * 2 ^ s) = k at *
  have ek : ((k * 2 ^ s : Nat) : Int) * den = (k : Int) * ((den * 2 ^ s : Nat) : Int) := by push_cast; ring
  -- a magnitude that is a multiple of 2^s competes with k directly
  have hmult : ∀ j, magUnits m = j * 2 ^ s →
      |((k * 2 ^ s : Nat) : Int) * den - num| ≤ |(magUnits m : Int) * den - num| ∧
      (m ≠ roundMag num den → |((k * 2 ^ s : Nat) : Int) * den - num| = |(magUnits m : Int) * den - num| →
        k % 2 = 0) := fun j hj => by
    have ej : ((magUnits m : Nat) : Int) * den = (j : Int) * ((den * 2 ^ s : Nat) : Int) := by
      rw [hj]; push_cast; ring
    rw [ek, ej]
    exact ⟨(hnear j).1, fun h he => (hnear j).2 (fun e => hne h (by rw [hj, e])) he⟩
  obtain ⟨s', k', hm', hk', hs', hv'⟩ := magUnits_form m
  rcases Nat.le_total s s' with hss | hss
  · exact hmult (k' * 2 ^ (s' - s)) (by rw [hv', Nat.mul_assoc, ← pow_add]; congr 2; omega)
  · rcases Nat.eq_or_lt_of_le hss with heq | hlt'
    · exact hmult k' (by rw [hv', heq])
    · -- a smaller exponent: the magnitude lies below 2^(s+52), which is at most the exact ratio
      have hs0 : s ≠ 0 := by omega
      have hbelow : magUnits m ≤ 2 ^ (s + 52) := by
        rw [hv']
        calc k' * 2 ^ s' ≤ 2 ^ 53 * 2 ^ s' := Nat.mul_le_mul_right _ (by omega)
          _ = 2 ^ (s' + 53) := by rw [pow_add]; ring
          _ ≤ 2 ^ (s + 52) := Nat.pow_le_pow_right (by norm_num) (by omega)
      rcases Nat.eq_or_lt_of_le hbelow with hb | hb
      · exact hmult (2 ^ 52) (by rw [hb, pow_add]; ring)
      · have hnum : 2 ^ (s + 52) * den ≤ num := by
          have := hge hs0
          rwa [Nat.le_div_iff_mul_le hden] at this
        have hstrict : magUnits m * den < 2 ^ (s + 52) * den := Nat.mul_lt_mul_of_pos_right hb hden
        have h52 := (hnear (2 ^ 52)).1
        have e52 : ((2 ^ 52 : Nat) : Int) * ((den * 2 ^ s : Nat) : Int) = ((2 ^ (s + 52) * den : Nat) : Int) := by
          push_cast; rw [pow_add]; ring
        rw [e52] at h52
        rw [ek, show ((magUnits m : Nat) : Int) * den = ((magUnits m * den : Nat) : Int) by push_cast; ring]
        generalize (k : Int) * ((den * 2 ^ s : Nat) : Int) = x at *
        generalize 2 ^ (s + 52) * den = y at *
        generalize magUnits m * den = z at *
        have h1 : |((y : Nat) : Int) - num| < |((z : Nat) : Int) - num| := by
          rw [abs_of_nonpos (by omega : ((y : Nat) : Int) - num ≤ 0), abs_of_nonpos (by omega : ((z : Nat) : Int) - num ≤ 0)]
          omega
        exact ⟨by omega, fun _ he => absurd he (by omega)⟩

/-! ## Words (R8) -/

section
variable (neg : Bool) {m : Nat} (hm : m < 2 ^ 63)
include hm

theorem pack_toNat : (pack neg m).toNat = if neg then 2 ^ 63 + m else m := by
  cases neg
  all_goals simp only [pack, BitVec.toNat_ofNat, if_true, Bool.false_eq_true, if_false]; omega

theorem signBit_pack : signBit (pack neg m) = neg := by
  have h := pack_toNat neg hm
  rw [signBit, BitVec.getLsbD, h, Nat.testBit_eq_decide_div_mod_eq]
  cases neg <;> simp <;> omega

theorem expField_pack : expField (pack neg m) = m / 2 ^ 52 := by
  have h := pack_toNat neg hm
  rw [expField, BitVec.extractLsb'_toNat, h, Nat.shiftRight_eq_div_pow]
  cases neg <;> simp <;> omega

theorem fracField_pack : fracField (pack neg m) = m % 2 ^ 52 := by
  have h := pack_toNat neg hm
  rw [fracField, BitVec.extractLsb'_toNat, h, Nat.shiftRight_eq_div_pow]
  cases neg
  · simp
  · simp; omega

theorem units_pack : units (pack neg m) = magUnits m := by
  rw [units, magUnits, expField_pack neg hm, fracField_pack neg hm]
  split
  · omega
  · rfl

theorem sunits_pack : sunits (pack neg m) = if neg then -(magUnits m : Int) else magUnits m := by
  rw [sunits, signBit_pack neg hm, units_pack neg hm]

theorem isFinite_pack : isFinite (pack neg m) = decide (m < infMag) := by
  rw [isFinite, expField_pack neg hm, Bool.eq_iff_iff, bne_iff_ne, decide_eq_true_eq, infMag]
  omega

theorem isNaN_pack_of_le (hi : m ≤ infMag) : isNaN (pack neg m) = false := by
  simp only [isNaN, expField_pack neg hm, fracField_pack neg hm, infMag, Bool.and_eq_false_iff, beq_eq_false_iff_ne,
    bne_eq_false_iff_eq] at *
  omega
end

/-- The bits 62:0 of a word. -/
def magBits (v : Bits64) : Nat := v.toNat % 2 ^ 63

theorem magBits_lt (v : Bits64) : magBits v < 2 ^ 63 := Nat.mod_lt _ (by norm_num)

/-- A word is its sign and its magnitude bits. -/
theorem pack_fields (v : Bits64) : pack (signBit v) (magBits v) = v := by
  apply BitVec.eq_of_toNat_eq
  rw [pack_toNat _ (magBits_lt v), signBit, BitVec.getLsbD, Nat.testBit_eq_decide_div_mod_eq, magBits]
  have := v.isLt
  split <;> rename_i h <;> simp at h <;> omega

theorem units_eq (v : Bits64) : units v = magUnits (magBits v) := by
  rw [← pack_fields v, units_pack _ (magBits_lt v), pack_fields]

theorem expField_eq (v : Bits64) : expField v = magBits v / 2 ^ 52 := by
  rw [← pack_fields v, expField_pack _ (magBits_lt v), pack_fields]

theorem fracField_eq (v : Bits64) : fracField v = magBits v % 2 ^ 52 := by
  rw [← pack_fields v, fracField_pack _ (magBits_lt v), pack_fields]

theorem isFinite_iff (v : Bits64) : isFinite v = true ↔ magBits v < infMag := by
  rw [← pack_fields v, isFinite_pack _ (magBits_lt v), pack_fields, decide_eq_true_eq]

theorem isZero_iff (v : Bits64) : isZero v = true ↔ magBits v = 0 := by
  simp only [isZero, expField_eq, fracField_eq, Bool.and_eq_true, beq_iff_eq]
  omega

theorem isInf_iff (v : Bits64) : isInf v = true ↔ magBits v = infMag := by
  have := magBits_lt v
  simp only [isInf, expField_eq, fracField_eq, infMag, Bool.and_eq_true, beq_iff_eq]
  omega

theorem isNaN_iff (v : Bits64) : isNaN v = true ↔ infMag < magBits v := by
  have := magBits_lt v
  simp only [isNaN, expField_eq, fracField_eq, infMag, Bool.and_eq_true, beq_iff_eq, bne_iff_ne]
  omega

/-- A finite word is neither NaN nor infinite. -/
theorem not_nan_of_finite {v : Bits64} (h : isFinite v = true) : isNaN v = false ∧ isInf v = false := by
  rw [isFinite_iff] at h
  constructor <;> rw [Bool.eq_false_iff]
  · rw [Ne, isNaN_iff]; omega
  · rw [Ne, isInf_iff]; omega

theorem magUnits_zero : magUnits 0 = 0 := rfl

theorem units_eq_zero_iff (v : Bits64) : units v = 0 ↔ isZero v = true := by
  rw [units_eq, isZero_iff]
  constructor
  · intro h
    exact magUnits_strictMono.injective (h.trans magUnits_zero.symm)
  · intro h; rw [h]; rfl

theorem unit_pos : 0 < unit := by
  unfold unit
  generalize 1074 = n
  exact Nat.two_pow_pos n

/-! ## Overflow (R9) -/

theorem two_pow_cmp (s : Nat) :
    ∃ t, overflowUnits = (2 ^ 54 - 1) * t ∧ (s < 2045 → 2 ^ s ≤ t) ∧ (s = 2045 → 2 ^ s = 2 * t) ∧
      (2045 < s → 4 * t ≤ 2 ^ s) := by
  unfold overflowUnits
  obtain ⟨n, hn⟩ : ∃ n, n = 2044 := ⟨_, rfl⟩
  rw [← hn]
  refine ⟨2 ^ n, rfl, fun h => Nat.pow_le_pow_right (by norm_num) (by omega), fun h => ?_, fun h => ?_⟩
  · rw [show s = n + 1 by omega, pow_succ, Nat.mul_comm]
  · calc 4 * 2 ^ n = 2 ^ (n + 2) := by rw [pow_add]; ring
      _ ≤ 2 ^ s := Nat.pow_le_pow_right (by norm_num) (by omega)

theorem overflowUnits_pos : 0 < overflowUnits := by unfold overflowUnits; generalize 2044 = n; positivity

/-- A ratio rounds to an infinity exactly from the middle between the largest finite magnitude and 2^1024 up. -/
theorem roundMag_lt_inf_iff (num den : Nat) (hden : 0 < den) :
    roundMag num den < infMag ↔ num < overflowUnits * den := by
  obtain ⟨hk1, hk2⟩ := roundEven_range num den hden
  obtain ⟨hlt, hge⟩ := excess_spec (num / den)
  rw [Nat.div_lt_iff_lt_mul hden, pow_add] at hlt
  rw [Nat.le_div_iff_mul_le hden, pow_add] at hge
  rw [roundMag, ← infMag, min_lt_iff, or_iff_left (lt_irrefl _)]
  generalize hs : excess (num / den) = s at *
  have hD : 0 < den * 2 ^ s := Nat.mul_pos hden (Nat.two_pow_pos s)
  have hspec := roundEven_spec num (den * 2 ^ s) hD
  generalize roundEven num (den * 2 ^ s) = k at *
  obtain ⟨t, hov, c1, c2, c3⟩ := two_pow_cmp s
  generalize 2 ^ s = p at *
  rw [hov, show infMag = 2045 * 2 ^ 52 + 2 ^ 53 by unfold infMag; norm_num]
  rcases Nat.lt_trichotomy s 2045 with h | h | h
  · refine ⟨fun _ => ?_, fun _ => by clear hspec hlt hge hov c1 c2 c3; omega⟩
    calc num < p * 2 ^ 53 * den := hlt
      _ ≤ t * (2 ^ 54 - 1) * den := Nat.mul_le_mul_right _ (Nat.mul_le_mul (c1 h) (by norm_num))
      _ = (2 ^ 54 - 1) * t * den := by ring
  · rw [c2 h] at hspec hD
    have e : den * (2 * t) = 2 * (den * t) := by ring
    have e2 : (2 ^ 54 - 1) * t * den = (2 ^ 54 - 1) * (den * t) := by ring
    rw [e] at hspec hD
    rw [e2]
    generalize den * t = D at *
    have hiff : s * 2 ^ 52 + k < 2045 * 2 ^ 52 + 2 ^ 53 ↔ k < 2 ^ 53 := by clear hspec hlt hge hov c1 c2 c3; omega
    rw [hiff]
    have e3 : (2 * k + 1) * (2 * D) = 4 * (k * D) + 2 * D := by ring
    have e4 : 2 * k * (2 * D) = 4 * (k * D) := by ring
    rw [e3, e4] at hspec
    constructor
    · intro hk53
      have hkD : k * D + D ≤ 2 ^ 53 * D := by
        calc k * D + D = (k + 1) * D := by ring
          _ ≤ 2 ^ 53 * D := Nat.mul_le_mul_right _ hk53
      rcases hspec with h1 | ⟨hev, h1⟩
      · omega
      · have hkD2 : k * D + 2 * D ≤ 2 ^ 53 * D := by
          calc k * D + 2 * D = (k + 2) * D := by ring
            _ ≤ 2 ^ 53 * D := Nat.mul_le_mul_right _ (by omega)
        omega
    · intro hnum
      by_contra hge'
      have hk' : k = 2 ^ 53 := by omega
      subst hk'
      omega
  · have h2 := hk2 (by omega)
    refine ⟨fun hmin => by omega, fun hnum => ?_⟩
    exfalso
    have h3 := hge (by omega)
    have : (2 ^ 54 - 1) * t * den ≤ p * 2 ^ 52 * den := by
      apply Nat.mul_le_mul_right
      have := c3 h
      omega
    omega

end Sys2Proof.Machine
end

