-- ==== Sys2Proof/Laws/Codec.lean ====
section
/-! SUPPORT. Words and bytes are inverse to each other (R63), header fields read back (R81), and framing takes exactly the
packet it finds (R62, R90). -/

namespace Sys2Proof

/-! ## Bytes and words (R63) -/

theorem word32_extract (w : Bits32) :
    word32 (w.extractLsb' 0 8) (w.extractLsb' 8 8) (w.extractLsb' 16 8) (w.extractLsb' 24 8) = w := by
  apply BitVec.eq_of_getLsbD_eq
  intro i hi
  simp only [word32, BitVec.getLsbD_append, BitVec.getLsbD_extractLsb']
  interval_cases i <;> simp

theorem word64_extract (w : Bits64) :
    word64 (w.extractLsb' 0 8) (w.extractLsb' 8 8) (w.extractLsb' 16 8) (w.extractLsb' 24 8)
      (w.extractLsb' 32 8) (w.extractLsb' 40 8) (w.extractLsb' 48 8) (w.extractLsb' 56 8) = w := by
  apply BitVec.eq_of_getLsbD_eq
  intro i hi
  simp only [word64, BitVec.getLsbD_append, BitVec.getLsbD_extractLsb']
  interval_cases i <;> simp

theorem bytes32_word32 (b0 b1 b2 b3 : Byte) : bytes32 (word32 b0 b1 b2 b3) = [b0, b1, b2, b3] := by
  simp only [bytes32, List.cons.injEq, and_true]
  refine ⟨?_, ?_, ?_, ?_⟩ <;>
  · apply BitVec.eq_of_getLsbD_eq
    intro i hi
    simp only [word32, BitVec.getLsbD_append, BitVec.getLsbD_extractLsb']
    interval_cases i <;> simp

theorem bytes64_word64 (b0 b1 b2 b3 b4 b5 b6 b7 : Byte) :
    bytes64 (word64 b0 b1 b2 b3 b4 b5 b6 b7) = [b0, b1, b2, b3, b4, b5, b6, b7] := by
  simp only [bytes64, List.cons.injEq, and_true]
  refine ⟨?_, ?_, ?_, ?_, ?_, ?_, ?_, ?_⟩ <;>
  · apply BitVec.eq_of_getLsbD_eq
    intro i hi
    simp only [word64, BitVec.getLsbD_append, BitVec.getLsbD_extractLsb']
    interval_cases i <;> simp

@[simp] theorem bytes32_length (w : Bits32) : (bytes32 w).length = 4 := rfl

@[simp] theorem bytes64_length (w : Bits64) : (bytes64 w).length = 8 := rfl

theorem flatMap_bytes64_length (ws : List Bits64) : (ws.flatMap bytes64).length = 8 * ws.length := by
  induction ws with
  | nil => rfl
  | cons w ws ih => simp only [List.flatMap_cons, List.length_append, bytes64_length, List.length_cons, ih]; omega

/-- A packet of n operand words has 4 + 8·n bytes (R62). -/
theorem Packet.bytes_length (p : Packet) : p.bytes.length = 4 + 8 * p.ops.length := by
  simp only [Packet.bytes, List.length_append, bytes32_length, flatMap_bytes64_length]

/-! ## Header fields (R81) -/

section
variable (c : Byte) (i : InstNum) (n : BitVec 4) (r : BitVec 16)

@[simp] theorem headerOpc_headerWord : headerOpc (headerWord c i n r) = c := by
  apply BitVec.eq_of_getLsbD_eq
  intro k hk
  simp only [headerOpc, headerWord, BitVec.getLsbD_append, BitVec.getLsbD_extractLsb']
  interval_cases k <;> simp

@[simp] theorem headerInst_headerWord : headerInst (headerWord c i n r) = i := by
  apply BitVec.eq_of_getLsbD_eq
  intro k hk
  simp only [headerInst, headerWord, BitVec.getLsbD_append, BitVec.getLsbD_extractLsb']
  interval_cases k <;> simp

@[simp] theorem headerNops_headerWord : headerNops (headerWord c i n r) = n := by
  apply BitVec.eq_of_getLsbD_eq
  intro k hk
  simp only [headerNops, headerWord, BitVec.getLsbD_append, BitVec.getLsbD_extractLsb']
  interval_cases k <;> simp

@[simp] theorem headerRsv_headerWord : headerRsv (headerWord c i n r) = r := by
  apply BitVec.eq_of_getLsbD_eq
  intro k hk
  simp only [headerRsv, headerWord, BitVec.getLsbD_append, BitVec.getLsbD_extractLsb']
  interval_cases k <;> simp

end

/-- A header word is its four fields. -/
theorem headerWord_fields (h : Bits32) :
    headerWord (headerOpc h) (headerInst h) (headerNops h) (headerRsv h) = h := by
  apply BitVec.eq_of_getLsbD_eq
  intro k hk
  simp only [headerWord, headerOpc, headerInst, headerNops, headerRsv, BitVec.getLsbD_append, BitVec.getLsbD_extractLsb']
  interval_cases k <;> simp

/-! ## The opcode map (R84) -/

/-- No two rows of the opcode map share an OPC value or an operation. -/
theorem opcodeTable_unambiguous :
    opcodeTable.Pairwise (fun r r' => r.code ≠ r'.code ∧ r.op ≠ r'.op) := by decide

/-- The OPC value of an operation is the code of its row. -/
theorem rowOfCode_code (op : Opcode) : ∃ row, rowOfCode op.code = some row ∧ row.op = op ∧ row.code = op.code := by
  cases op <;> exact ⟨_, rfl, rfl, rfl⟩

/-- A row found for an OPC value has that value, and is a row of the table. -/
theorem rowOfCode_some {c : Byte} {row : OpRow} (h : rowOfCode c = some row) : row ∈ opcodeTable ∧ row.code = c :=
  ⟨List.mem_of_find?_eq_some h, by simpa using List.find?_some h⟩

/-! ## Framing (R62, R64, R90) -/

theorem takeWords_flatMap (ws : List Bits64) (rest : List Byte) :
    takeWords ws.length (ws.flatMap bytes64 ++ rest) = some (ws, rest) := by
  induction ws with
  | nil => rfl
  | cons w ws ih =>
    simp only [List.length_cons, List.flatMap_cons, bytes64, List.cons_append, List.nil_append, takeWords]
    rw [ih]
    simp [word64_extract]

theorem takeWords_some {n : Nat} {bs : List Byte} {ws : List Bits64} {rest : List Byte}
    (h : takeWords n bs = some (ws, rest)) : ws.length = n ∧ bs = ws.flatMap bytes64 ++ rest := by
  induction n, bs using takeWords.induct generalizing ws rest with
  | case1 bs =>
    simp only [takeWords, Option.some.injEq, Prod.mk.injEq] at h
    obtain ⟨rfl, rfl⟩ := h
    exact ⟨rfl, rfl⟩
  | case2 n b0 b1 b2 b3 b4 b5 b6 b7 bs ws' rest' h' ih =>
    simp only [takeWords, h', Option.some.injEq, Prod.mk.injEq] at h
    obtain ⟨rfl, rfl⟩ := h
    obtain ⟨hl, hb⟩ := ih h'
    exact ⟨by simp [hl], by simp [bytes64_word64, hb]⟩
  | case3 n b0 b1 b2 b3 b4 b5 b6 b7 bs h' _ => simp [takeWords, h'] at h
  | case4 n bs hbs => simp [takeWords] at h

theorem takeWords_none {n : Nat} {bs : List Byte} (h : takeWords n bs = none) : bs.length < 8 * n := by
  induction n, bs using takeWords.induct with
  | case1 bs => simp [takeWords] at h
  | case2 n b0 b1 b2 b3 b4 b5 b6 b7 bs ws' rest' h' ih => simp [takeWords, h'] at h
  | case3 n b0 b1 b2 b3 b4 b5 b6 b7 bs h' ih => have := ih h'; simp; omega
  | case4 n bs hbs =>
    rcases bs with _ | ⟨b0, _ | ⟨b1, _ | ⟨b2, _ | ⟨b3, _ | ⟨b4, _ | ⟨b5, _ | ⟨b6, _ | ⟨b7, bs⟩⟩⟩⟩⟩⟩⟩⟩
    all_goals first | exact (hbs _ _ _ _ _ _ _ _ _ rfl).elim | (simp only [List.length_cons, List.length_nil]; omega)

/-- A packet whose NOPS field counts its operand words is framed exactly, whatever follows it. -/
theorem frame_bytes (p : Packet) (rest : List Byte) (h : p.ops.length = (headerNops p.header).toNat) :
    frame (p.bytes ++ rest) = some (p, rest) := by
  simp only [Packet.bytes, bytes32, List.cons_append, List.nil_append, frame, word32_extract, ← h,
    takeWords_flatMap]

/-- What framing finds is what stands at the head of the stream. -/
theorem frame_some {bs rest : List Byte} {p : Packet} (h : frame bs = some (p, rest)) :
    bs = p.bytes ++ rest ∧ p.ops.length = (headerNops p.header).toNat := by
  rcases bs with _ | ⟨b0, _ | ⟨b1, _ | ⟨b2, _ | ⟨b3, bs⟩⟩⟩⟩
  all_goals simp only [frame] at h
  all_goals try exact absurd h (by simp)
  split at h
  · rename_i ws rest' hw
    simp only [Option.some.injEq, Prod.mk.injEq] at h
    obtain ⟨rfl, rfl⟩ := h
    obtain ⟨hl, hb⟩ := takeWords_some hw
    exact ⟨by simp [Packet.bytes, bytes32_word32, hb], hl⟩
  · exact absurd h (by simp)

@[simp] theorem frame_nil : frame [] = none := rfl

/-! ## Operand words (R82, R83) -/

theorem zext_of_high_zero {n m : Nat} (w : Bits64) (h : w.extractLsb' n m = 0) (hm : n + m = 64 := by rfl) :
    (w.extractLsb' 0 n).setWidth 64 = w := by
  apply BitVec.eq_of_getLsbD_eq
  intro i hi
  have hz : (w.extractLsb' n m).getLsbD (i - n) = false := by rw [h]; simp
  simp only [BitVec.getLsbD_extractLsb', BitVec.getLsbD_setWidth, decide_eq_true hi, Bool.true_and, Nat.zero_add] at hz ⊢
  by_cases hn : i < n
  · simp [hn]
  · rw [show n + (i - n) = i by omega, decide_eq_true (show i - n < m by omega), Bool.true_and] at hz
    simp [hn, hz]

/-- The low bits of a zero-extended word are the word. -/
theorem extract_zext {n m : Nat} (b : BitVec n) (h : n ≤ m) : (b.setWidth m).extractLsb' 0 n = b := by
  apply BitVec.eq_of_getLsbD_eq
  intro i hi
  simp only [BitVec.getLsbD_extractLsb', BitVec.getLsbD_setWidth, Nat.zero_add, hi, decide_true, Bool.true_and]
  simp [show i < m by omega]

theorem fs_of_legal {w : Bits64} (h : OperandFormat.fs.legal w = true) : (w.extractLsb' 0 32).setWidth 64 = w := by
  simp only [OperandFormat.legal, beq_iff_eq] at h
  exact zext_of_high_zero w h

theorem b8_of_legal {w : Bits64} (h : OperandFormat.b8.legal w = true) : (w.extractLsb' 0 8).setWidth 64 = w := by
  simp only [OperandFormat.legal, beq_iff_eq] at h
  exact zext_of_high_zero w h

theorem b16_of_legal {w : Bits64} (h : OperandFormat.b16.legal w = true) : (w.extractLsb' 0 16).setWidth 64 = w := by
  simp only [OperandFormat.legal, beq_iff_eq] at h
  exact zext_of_high_zero w h

end Sys2Proof
end

