-- ==== Sys2Proof/Laws/State.lean ====
section
/-! SUPPORT. One lemma per field per update of State, true by rfl, so that no proof unfolds a record update; and how an
instance reads after one is written. -/

namespace Sys2Proof.Machine

/-! ## setInst -/

@[simp] theorem State.setInst_inst (s : State) (k : Fin Config.numInst) (r : Inst) : (s.setInst k r).inst = s.inst.set k r := rfl
@[simp] theorem State.setInst_eIll (s : State) (k : Fin Config.numInst) (r : Inst) : (s.setInst k r).eIll = s.eIll := rfl
@[simp] theorem State.setInst_eNcfg (s : State) (k : Fin Config.numInst) (r : Inst) : (s.setInst k r).eNcfg = s.eNcfg := rfl
@[simp] theorem State.setInst_undef (s : State) (k : Fin Config.numInst) (r : Inst) : (s.setInst k r).undef = s.undef := rfl
@[simp] theorem State.setInst_rx (s : State) (k : Fin Config.numInst) (r : Inst) : (s.setInst k r).rx = s.rx := rfl
@[simp] theorem State.setInst_held (s : State) (k : Fin Config.numInst) (r : Inst) : (s.setInst k r).held = s.held := rfl
@[simp] theorem State.setInst_tx (s : State) (k : Fin Config.numInst) (r : Inst) : (s.setInst k r).tx = s.tx := rfl
@[simp] theorem State.setInst_sent (s : State) (k : Fin Config.numInst) (r : Inst) : (s.setInst k r).sent = s.sent := rfl
@[simp] theorem State.setInst_pc (s : State) (k : Fin Config.numInst) (r : Inst) : (s.setInst k r).pc = s.pc := rfl
@[simp] theorem State.setInst_draws (s : State) (k : Fin Config.numInst) (r : Inst) : (s.setInst k r).draws = s.draws := rfl
@[simp] theorem State.setInst_rst (s : State) (k : Fin Config.numInst) (r : Inst) : (s.setInst k r).rst = s.rst := rfl

/-! ## markUndef -/

@[simp] theorem State.markUndef_inst (s : State) : s.markUndef.inst = s.inst := rfl
@[simp] theorem State.markUndef_eIll (s : State) : s.markUndef.eIll = s.eIll := rfl
@[simp] theorem State.markUndef_eNcfg (s : State) : s.markUndef.eNcfg = s.eNcfg := rfl
@[simp] theorem State.markUndef_undef (s : State) : s.markUndef.undef = true := rfl
@[simp] theorem State.markUndef_rx (s : State) : s.markUndef.rx = s.rx := rfl
@[simp] theorem State.markUndef_held (s : State) : s.markUndef.held = s.held := rfl
@[simp] theorem State.markUndef_tx (s : State) : s.markUndef.tx = s.tx := rfl
@[simp] theorem State.markUndef_sent (s : State) : s.markUndef.sent = s.sent := rfl
@[simp] theorem State.markUndef_pc (s : State) : s.markUndef.pc = s.pc := rfl
@[simp] theorem State.markUndef_draws (s : State) : s.markUndef.draws = s.draws := rfl
@[simp] theorem State.markUndef_rst (s : State) : s.markUndef.rst = s.rst := rfl

/-! ## afterDraws -/

@[simp] theorem State.afterDraws_inst (s : State) : s.afterDraws.inst = s.inst := rfl
@[simp] theorem State.afterDraws_eIll (s : State) : s.afterDraws.eIll = s.eIll := rfl
@[simp] theorem State.afterDraws_eNcfg (s : State) : s.afterDraws.eNcfg = s.eNcfg := rfl
@[simp] theorem State.afterDraws_undef (s : State) : s.afterDraws.undef = s.undef := rfl
@[simp] theorem State.afterDraws_rx (s : State) : s.afterDraws.rx = s.rx := rfl
@[simp] theorem State.afterDraws_held (s : State) : s.afterDraws.held = s.held := rfl
@[simp] theorem State.afterDraws_tx (s : State) : s.afterDraws.tx = s.tx := rfl
@[simp] theorem State.afterDraws_sent (s : State) : s.afterDraws.sent = s.sent := rfl
@[simp] theorem State.afterDraws_pc (s : State) : s.afterDraws.pc = s.pc := rfl
@[simp] theorem State.afterDraws_draws (s : State) : s.afterDraws.draws = s.draws + 5 := rfl
@[simp] theorem State.afterDraws_rst (s : State) : s.afterDraws.rst = s.rst := rfl

/-! ## sendResponse -/

@[simp] theorem State.sendResponse_inst (s : State) : s.sendResponse.inst = s.inst := rfl
@[simp] theorem State.sendResponse_eIll (s : State) : s.sendResponse.eIll = s.eIll := rfl
@[simp] theorem State.sendResponse_eNcfg (s : State) : s.sendResponse.eNcfg = s.eNcfg := rfl
@[simp] theorem State.sendResponse_undef (s : State) : s.sendResponse.undef = s.undef := rfl
@[simp] theorem State.sendResponse_rx (s : State) : s.sendResponse.rx = s.rx := rfl
@[simp] theorem State.sendResponse_held (s : State) : s.sendResponse.held = s.held := rfl
@[simp] theorem State.sendResponse_tx (s : State) : s.sendResponse.tx = none := rfl
@[simp] theorem State.sendResponse_sent (s : State) : s.sendResponse.sent = s.sent ++ s.tx.toList := rfl
@[simp] theorem State.sendResponse_pc (s : State) : s.sendResponse.pc = s.pc := rfl
@[simp] theorem State.sendResponse_draws (s : State) : s.sendResponse.draws = s.draws := rfl
@[simp] theorem State.sendResponse_rst (s : State) : s.sendResponse.rst = s.rst := rfl

/-! ## accept -/

@[simp] theorem State.accept_inst (s : State) (rest : List Byte) : (s.accept rest).inst = s.inst := rfl
@[simp] theorem State.accept_eIll (s : State) (rest : List Byte) : (s.accept rest).eIll = s.eIll := rfl
@[simp] theorem State.accept_eNcfg (s : State) (rest : List Byte) : (s.accept rest).eNcfg = s.eNcfg := rfl
@[simp] theorem State.accept_undef (s : State) (rest : List Byte) : (s.accept rest).undef = s.undef := rfl
@[simp] theorem State.accept_rx (s : State) (rest : List Byte) : (s.accept rest).rx = [] := rfl
@[simp] theorem State.accept_held (s : State) (rest : List Byte) : (s.accept rest).held = rest := rfl
@[simp] theorem State.accept_tx (s : State) (rest : List Byte) : (s.accept rest).tx = none := rfl
@[simp] theorem State.accept_sent (s : State) (rest : List Byte) : (s.accept rest).sent = s.sent ++ s.tx.toList := rfl
@[simp] theorem State.accept_pc (s : State) (rest : List Byte) : (s.accept rest).pc = s.pc := rfl
@[simp] theorem State.accept_draws (s : State) (rest : List Byte) : (s.accept rest).draws = s.draws := rfl
@[simp] theorem State.accept_rst (s : State) (rest : List Byte) : (s.accept rest).rst = s.rst := rfl

/-! ## receive -/

@[simp] theorem State.receive_inst (s : State) : s.receive.inst = s.inst := rfl
@[simp] theorem State.receive_eIll (s : State) : s.receive.eIll = s.eIll := rfl
@[simp] theorem State.receive_eNcfg (s : State) : s.receive.eNcfg = s.eNcfg := rfl
@[simp] theorem State.receive_undef (s : State) : s.receive.undef = s.undef := rfl
@[simp] theorem State.receive_rx (s : State) : s.receive.rx = s.rx ++ s.held := rfl
@[simp] theorem State.receive_held (s : State) : s.receive.held = [] := rfl
@[simp] theorem State.receive_tx (s : State) : s.receive.tx = none := rfl
@[simp] theorem State.receive_sent (s : State) : s.receive.sent = s.sent ++ s.tx.toList := rfl
@[simp] theorem State.receive_pc (s : State) : s.receive.pc = s.pc := rfl
@[simp] theorem State.receive_draws (s : State) : s.receive.draws = s.draws := rfl
@[simp] theorem State.receive_rst (s : State) : s.receive.rst = s.rst := rfl

/-! ## hostSend -/

@[simp] theorem State.hostSend_inst (s : State) (bs : List Byte) : (s.hostSend bs).inst = s.inst := rfl
@[simp] theorem State.hostSend_eIll (s : State) (bs : List Byte) : (s.hostSend bs).eIll = s.eIll := rfl
@[simp] theorem State.hostSend_eNcfg (s : State) (bs : List Byte) : (s.hostSend bs).eNcfg = s.eNcfg := rfl
@[simp] theorem State.hostSend_undef (s : State) (bs : List Byte) : (s.hostSend bs).undef = s.undef := rfl
@[simp] theorem State.hostSend_rx (s : State) (bs : List Byte) : (s.hostSend bs).rx = s.rx := rfl
@[simp] theorem State.hostSend_held (s : State) (bs : List Byte) : (s.hostSend bs).held = s.held ++ bs := rfl
@[simp] theorem State.hostSend_tx (s : State) (bs : List Byte) : (s.hostSend bs).tx = s.tx := rfl
@[simp] theorem State.hostSend_sent (s : State) (bs : List Byte) : (s.hostSend bs).sent = s.sent := rfl
@[simp] theorem State.hostSend_pc (s : State) (bs : List Byte) : (s.hostSend bs).pc = s.pc := rfl
@[simp] theorem State.hostSend_draws (s : State) (bs : List Byte) : (s.hostSend bs).draws = s.draws := rfl
@[simp] theorem State.hostSend_rst (s : State) (bs : List Byte) : (s.hostSend bs).rst = s.rst := rfl

/-! ## assertReset -/

@[simp] theorem State.assertReset_inst (s : State) : s.assertReset.inst = s.inst := rfl
@[simp] theorem State.assertReset_eIll (s : State) : s.assertReset.eIll = s.eIll := rfl
@[simp] theorem State.assertReset_eNcfg (s : State) : s.assertReset.eNcfg = s.eNcfg := rfl
@[simp] theorem State.assertReset_undef (s : State) : s.assertReset.undef = s.undef := rfl
@[simp] theorem State.assertReset_rx (s : State) : s.assertReset.rx = s.rx := rfl
@[simp] theorem State.assertReset_held (s : State) : s.assertReset.held = s.held := rfl
@[simp] theorem State.assertReset_tx (s : State) : s.assertReset.tx = s.tx := rfl
@[simp] theorem State.assertReset_sent (s : State) : s.assertReset.sent = s.sent := rfl
@[simp] theorem State.assertReset_pc (s : State) : s.assertReset.pc = s.pc := rfl
@[simp] theorem State.assertReset_draws (s : State) : s.assertReset.draws = s.draws := rfl
@[simp] theorem State.assertReset_rst (s : State) : s.assertReset.rst = true := rfl

/-! ## withStream -/

@[simp] theorem State.withStream_inst (s : State) (bs : List Byte) : (s.withStream bs).inst = s.inst := rfl
@[simp] theorem State.withStream_eIll (s : State) (bs : List Byte) : (s.withStream bs).eIll = s.eIll := rfl
@[simp] theorem State.withStream_eNcfg (s : State) (bs : List Byte) : (s.withStream bs).eNcfg = s.eNcfg := rfl
@[simp] theorem State.withStream_undef (s : State) (bs : List Byte) : (s.withStream bs).undef = s.undef := rfl
@[simp] theorem State.withStream_rx (s : State) (bs : List Byte) : (s.withStream bs).rx = [] := rfl
@[simp] theorem State.withStream_held (s : State) (bs : List Byte) : (s.withStream bs).held = bs := rfl
@[simp] theorem State.withStream_tx (s : State) (bs : List Byte) : (s.withStream bs).tx = s.tx := rfl
@[simp] theorem State.withStream_sent (s : State) (bs : List Byte) : (s.withStream bs).sent = s.sent := rfl
@[simp] theorem State.withStream_pc (s : State) (bs : List Byte) : (s.withStream bs).pc = s.pc := rfl
@[simp] theorem State.withStream_draws (s : State) (bs : List Byte) : (s.withStream bs).draws = s.draws := rfl
@[simp] theorem State.withStream_rst (s : State) (bs : List Byte) : (s.withStream bs).rst = false := rfl

/-! ## hardwareReset -/

@[simp] theorem State.hardwareReset_inst (s : State) : s.hardwareReset.inst = Vector.replicate Config.numInst Inst.reset := rfl
@[simp] theorem State.hardwareReset_eIll (s : State) : s.hardwareReset.eIll = false := rfl
@[simp] theorem State.hardwareReset_eNcfg (s : State) : s.hardwareReset.eNcfg = false := rfl
@[simp] theorem State.hardwareReset_undef (s : State) : s.hardwareReset.undef = false := rfl
@[simp] theorem State.hardwareReset_rx (s : State) : s.hardwareReset.rx = [] := rfl
@[simp] theorem State.hardwareReset_held (s : State) : s.hardwareReset.held = [] := rfl
@[simp] theorem State.hardwareReset_tx (s : State) : s.hardwareReset.tx = none := rfl
@[simp] theorem State.hardwareReset_sent (s : State) : s.hardwareReset.sent = [] := rfl
@[simp] theorem State.hardwareReset_pc (s : State) : s.hardwareReset.pc = 0 := rfl
@[simp] theorem State.hardwareReset_draws (s : State) : s.hardwareReset.draws = s.draws := rfl
@[simp] theorem State.hardwareReset_rst (s : State) : s.hardwareReset.rst = false := rfl

/-! ## setSticky (R183) -/

@[simp] theorem setSticky_inst (rc : ResultCode) (s : State) : (setSticky rc s).inst = s.inst := by cases rc <;> rfl
@[simp] theorem setSticky_eIll (rc : ResultCode) (s : State) : (setSticky rc s).eIll = (s.eIll || rc == .illegal) := by cases rc <;> simp [setSticky]
@[simp] theorem setSticky_eNcfg (rc : ResultCode) (s : State) : (setSticky rc s).eNcfg = (s.eNcfg || rc == .notcfg) := by cases rc <;> simp [setSticky]
@[simp] theorem setSticky_undef (rc : ResultCode) (s : State) : (setSticky rc s).undef = s.undef := by cases rc <;> rfl
@[simp] theorem setSticky_rx (rc : ResultCode) (s : State) : (setSticky rc s).rx = s.rx := by cases rc <;> rfl
@[simp] theorem setSticky_held (rc : ResultCode) (s : State) : (setSticky rc s).held = s.held := by cases rc <;> rfl
@[simp] theorem setSticky_tx (rc : ResultCode) (s : State) : (setSticky rc s).tx = s.tx := by cases rc <;> rfl
@[simp] theorem setSticky_sent (rc : ResultCode) (s : State) : (setSticky rc s).sent = s.sent := by cases rc <;> rfl
@[simp] theorem setSticky_pc (rc : ResultCode) (s : State) : (setSticky rc s).pc = s.pc := by cases rc <;> rfl
@[simp] theorem setSticky_draws (rc : ResultCode) (s : State) : (setSticky rc s).draws = s.draws := by cases rc <;> rfl
@[simp] theorem setSticky_rst (rc : ResultCode) (s : State) : (setSticky rc s).rst = s.rst := by cases rc <;> rfl

/-! ## Reading an instance -/

@[simp] theorem State.getInst_setInst_self (s : State) (k : Fin Config.numInst) (r : Inst) :
    (s.setInst k r).getInst k = r := by simp [State.getInst]

theorem State.getInst_setInst_of_ne (s : State) {k j : Fin Config.numInst} (r : Inst) (h : k ≠ j) :
    (s.setInst k r).getInst j = s.getInst j := by
  have h' : (k : Nat) ≠ j := fun e => h (Fin.ext e)
  simp [State.getInst, h']

theorem State.getInst_of_inst_eq {s t : State} (h : t.inst = s.inst) (k : Fin Config.numInst) :
    t.getInst k = s.getInst k := by simp [State.getInst, h]

@[simp] theorem State.getInst_reset (k : Fin Config.numInst) : State.reset.getInst k = Inst.reset := by
  simp [State.getInst, State.reset]

/-! An update that leaves the instances alone leaves each of them alone. -/

section
variable (s : State) (k : Fin Config.numInst)
@[simp] theorem State.markUndef_getInst : s.markUndef.getInst k = s.getInst k := rfl
@[simp] theorem State.afterDraws_getInst : s.afterDraws.getInst k = s.getInst k := rfl
@[simp] theorem State.sendResponse_getInst : s.sendResponse.getInst k = s.getInst k := rfl
@[simp] theorem State.accept_getInst (rest : List Byte) : (s.accept rest).getInst k = s.getInst k := rfl
@[simp] theorem State.receive_getInst : s.receive.getInst k = s.getInst k := rfl
@[simp] theorem State.hostSend_getInst (bs : List Byte) : (s.hostSend bs).getInst k = s.getInst k := rfl
@[simp] theorem State.assertReset_getInst : s.assertReset.getInst k = s.getInst k := rfl
@[simp] theorem State.withStream_getInst (bs : List Byte) : (s.withStream bs).getInst k = s.getInst k := rfl
@[simp] theorem setSticky_getInst (rc : ResultCode) : (setSticky rc s).getInst k = s.getInst k := by cases rc <;> rfl
end

/-- An INST field names one instance only. -/
theorem instNum_injective {k j : Fin Config.numInst} (h : BitVec.ofNat 4 (k : Nat) = BitVec.ofNat 4 (j : Nat)) : k = j := by
  revert k j; decide

/-- An INST field that names no instance selects none. -/
theorem instNum_ne {n : InstNum} (h : ¬ n.toNat < Config.numInst) (k : Fin Config.numInst) : n ≠ BitVec.ofNat 4 k := by
  rintro rfl
  revert h k; decide

/-- The INST field of an instance reads back as it. -/
theorem instNum_toNat (k : Fin Config.numInst) : (BitVec.ofNat 4 (k : Nat)).toNat = k := by revert k; decide

theorem instNum_lt (k : Fin Config.numInst) : (BitVec.ofNat 4 (k : Nat)).toNat < Config.numInst := by
  rw [instNum_toNat]; exact k.isLt

/-! ## The registers of an instance -/

@[simp] theorem Inst.withDelays_cfgd (r : Inst) (w1 w2 : Bits64) : (r.withDelays w1 w2).cfgd = r.cfgd := rfl
@[simp] theorem Inst.withDelays_b0 (r : Inst) (w1 w2 : Bits64) : (r.withDelays w1 w2).b0 = r.b0 := rfl
@[simp] theorem Inst.withDelays_b1 (r : Inst) (w1 w2 : Bits64) : (r.withDelays w1 w2).b1 = r.b1 := rfl
@[simp] theorem Inst.withDelays_b2 (r : Inst) (w1 w2 : Bits64) : (r.withDelays w1 w2).b2 = r.b2 := rfl
@[simp] theorem Inst.withDelays_a1 (r : Inst) (w1 w2 : Bits64) : (r.withDelays w1 w2).a1 = r.a1 := rfl
@[simp] theorem Inst.withDelays_a2 (r : Inst) (w1 w2 : Bits64) : (r.withDelays w1 w2).a2 = r.a2 := rfl
@[simp] theorem Inst.withDelays_w1 (r : Inst) (w1 w2 : Bits64) : (r.withDelays w1 w2).w1 = w1 := rfl
@[simp] theorem Inst.withDelays_w2 (r : Inst) (w1 w2 : Bits64) : (r.withDelays w1 w2).w2 = w2 := rfl
@[simp] theorem Inst.withDelays_coeffs (r : Inst) (w1 w2 : Bits64) : (r.withDelays w1 w2).coeffs = r.coeffs := rfl
@[simp] theorem Inst.withDelays_valid (r : Inst) (w1 w2 : Bits64) : (r.withDelays w1 w2).valid = r.valid := rfl
@[simp] theorem Coeffs.construct_coeffs (c : Coeffs) : c.construct.coeffs = c := rfl
@[simp] theorem Coeffs.construct_valid (c : Coeffs) : c.construct.valid = true := rfl
@[simp] theorem Coeffs.construct_cfgd (c : Coeffs) : c.construct.cfgd = true := rfl
@[simp] theorem Coeffs.construct_w1 (c : Coeffs) : c.construct.w1 = posZero := rfl
@[simp] theorem Coeffs.construct_w2 (c : Coeffs) : c.construct.w2 = posZero := rfl
@[simp] theorem Inst.tickNext_cfgd (r : Inst) (x : Bits64) : (r.tickNext x).cfgd = r.cfgd := rfl
@[simp] theorem Inst.tickNext_coeffs (r : Inst) (x : Bits64) : (r.tickNext x).coeffs = r.coeffs := rfl
@[simp] theorem Inst.tickNext_valid (r : Inst) (x : Bits64) : (r.tickNext x).valid = r.valid := rfl
@[simp] theorem Inst.tickNext_w2 (r : Inst) (x : Bits64) : (r.tickNext x).w2 = r.w1 := rfl
@[simp] theorem Inst.reset_valid : Inst.reset.valid = true := rfl

end Sys2Proof.Machine
end

