-- ==== Sys2Proof/Laws/Ops.lean ====
section
/-! SUPPORT. One lemma per shared operation that says everything it can do: answering, rejecting, selecting an instance,
executing an instruction, moving the port, and one step. -/

namespace Sys2Proof.Machine

/-! ## Answering (R86) and rejecting (R183) -/

/-- The state a command leaves when it answers from `s`. -/
def State.answered (s : State) (opc : Byte) (rc : ResultCode) (results : List Bits64) : State :=
  { s with tx := some { rc := rc, opc := opc, results := results }, pc := s.pc + 1 }

section
variable (s : State) (opc : Byte) (rc : ResultCode) (rs : List Bits64)
@[simp] theorem State.answered_inst : (s.answered opc rc rs).inst = s.inst := rfl
@[simp] theorem State.answered_eIll : (s.answered opc rc rs).eIll = s.eIll := rfl
@[simp] theorem State.answered_eNcfg : (s.answered opc rc rs).eNcfg = s.eNcfg := rfl
@[simp] theorem State.answered_undef : (s.answered opc rc rs).undef = s.undef := rfl
@[simp] theorem State.answered_rx : (s.answered opc rc rs).rx = s.rx := rfl
@[simp] theorem State.answered_held : (s.answered opc rc rs).held = s.held := rfl
@[simp] theorem State.answered_tx : (s.answered opc rc rs).tx = some { rc := rc, opc := opc, results := rs } := rfl
@[simp] theorem State.answered_sent : (s.answered opc rc rs).sent = s.sent := rfl
@[simp] theorem State.answered_pc : (s.answered opc rc rs).pc = s.pc + 1 := rfl
@[simp] theorem State.answered_draws : (s.answered opc rc rs).draws = s.draws := rfl
@[simp] theorem State.answered_rst : (s.answered opc rc rs).rst = s.rst := rfl
@[simp] theorem State.answered_getInst (k : Fin Config.numInst) : (s.answered opc rc rs).getInst k = s.getInst k := rfl

theorem respond_eq : respond opc rc rs s = .next (s.answered opc rc rs) := rfl

theorem reject_eq : reject opc rc s = .next ((setSticky rc s).answered opc rc []) := rfl
end

/-! ## Selecting an instance (R32, R181 (f)) -/

theorem onInst_of_lt {op : Opcode} {i : InstNum} {s : State}
    {k : Fin Config.numInst → Host.Outcome State Fault Refusal} (h : i.toNat < Config.numInst) :
    onInst op i s k = k ⟨i.toNat, h⟩ := dif_pos h

theorem onInst_of_ge {op : Opcode} {i : InstNum} {s : State}
    {k : Fin Config.numInst → Host.Outcome State Fault Refusal} (h : ¬ i.toNat < Config.numInst) :
    onInst op i s k = .next ((setSticky .illegal s).answered op.code .illegal []) := dif_neg h

/-! ## Executing an instruction -/

/-- How an instruction can end: the state `u` it leaves before answering, its result code and its result words. -/
inductive Ending (i : Instr) (s : State) : State → ResultCode → List Bits64 → Prop where
  /-- a command without an instance completes and writes nothing (R111 to R114, R170) -/
  | answer (rs : List Bits64) (hsel : i.selects = none) (hres : ∃ row, rowOfCode i.op.code = some row ∧ resultsLegal row.results rs = true) :
      Ending i s s .ok rs
  /-- an instance command completes and writes the registers of its instance (R133, R134, R150, R151) -/
  | write (k : Fin Config.numInst) (r : Inst) (rs : List Bits64) (hsel : i.selects = some (BitVec.ofNat 4 k))
      (hvalid : (s.getInst k).valid = true → r.valid = true)
      (hcfgd : r.cfgd = ((s.getInst k).cfgd || decide (i.op = .cfgbp ∨ i.op = .cfgnotch)))
      (hdom : i.inDomain = true)
      (hres : ∃ row, rowOfCode i.op.code = some row ∧ resultsLegal row.results rs = true) :
      Ending i s (s.setInst k r) .ok rs
  /-- a configure command outside its domain completes with drawn coefficients (R132) -/
  | undefined (k : Fin Config.numInst) (hsel : i.selects = some (BitVec.ofNat 4 k)) (hop : i.op = .cfgbp ∨ i.op = .cfgnotch)
      (hdom : i.inDomain = false) :
      Ending i s ((s.setInst k s.drawnCoeffs.construct).afterDraws.markUndef) .ok []
  /-- INST names no instance (R181 (f)) -/
  | illegal (n : InstNum) (hsel : i.selects = some n) (hge : ¬ n.toNat < Config.numInst) :
      Ending i s (setSticky .illegal s) .illegal []
  /-- a tick on an instance that is not configured (R182) -/
  | notcfg (k : Fin Config.numInst) (hsel : i.selects = some (BitVec.ofNat 4 k)) (hop : i.op = .tick)
      (hcfgd : (s.getInst k).cfgd = false) :
      Ending i s (setSticky .notcfg s) .notcfg []

theorem statusWord_legal (b : Build) (cs : List Bool) (e n : Bool) :
    ResultFormat.st.legal (statusWord b cs e n) = true := by
  simp only [ResultFormat.legal, Bool.and_eq_true, beq_iff_eq]
  constructor <;>
  · apply BitVec.eq_of_getLsbD_eq
    intro k hk
    simp only [statusWord, BitVec.getLsbD_extractLsb', BitVec.getLsbD_append]
    interval_cases k <;> simp

theorem b8Result_legal (c : Byte) : ResultFormat.b8.legal (b8Result c) = true := by
  simp only [ResultFormat.legal, b8Result, beq_iff_eq]
  apply BitVec.eq_of_getLsbD_eq
  intro k hk
  simp [BitVec.getLsbD_extractLsb', BitVec.getLsbD_setWidth]

theorem b16Result_legal (c : BitVec 16) : ResultFormat.b16.legal (b16Result c) = true := by
  simp only [ResultFormat.legal, b16Result, beq_iff_eq]
  apply BitVec.eq_of_getLsbD_eq
  intro k hk
  simp [BitVec.getLsbD_extractLsb', BitVec.getLsbD_setWidth]

theorem instNum_ofNat {i : InstNum} : BitVec.ofNat 4 i.toNat = i := by simp

/-- Everything executing an instruction can do. It always answers (R61, R186). -/
theorem exec_ending (i : Instr) (s : State) :
    ∃ u rc rs, exec i s = .next (u.answered i.op.code rc rs) ∧ Ending i s u rc rs := by
  cases i with
  | cfgbp n f0 g q fs =>
    by_cases h : n.toNat < Config.numInst
    · cases hd : domBP f0 g q fs with
      | true =>
        exact ⟨_, _, _, by simp only [exec, execCfgbp, onInst_of_lt h, hd, if_true, configure]; rfl,
          .write ⟨n.toNat, h⟩ _ [] (by simp [Instr.selects]) (fun _ => rfl) (by simp [Coeffs.construct, Instr.op]) hd ⟨_, rfl, rfl⟩⟩
      | false =>
        exact ⟨_, _, _, by simp only [exec, execCfgbp, onInst_of_lt h, hd, configureUndefined]; rfl,
          .undefined ⟨n.toNat, h⟩ (by simp [Instr.selects]) (.inl rfl) hd⟩
    · exact ⟨_, _, _, by simp only [exec, execCfgbp, onInst_of_ge h]; rfl, .illegal n rfl h⟩
  | cfgnotch n f0 q fs =>
    by_cases h : n.toNat < Config.numInst
    · cases hd : domN f0 q fs with
      | true =>
        exact ⟨_, _, _, by simp only [exec, execCfgnotch, onInst_of_lt h, hd, if_true, configure]; rfl,
          .write ⟨n.toNat, h⟩ _ [] (by simp [Instr.selects]) (fun _ => rfl) (by simp [Coeffs.construct, Instr.op]) hd ⟨_, rfl, rfl⟩⟩
      | false =>
        exact ⟨_, _, _, by simp only [exec, execCfgnotch, onInst_of_lt h, hd, configureUndefined]; rfl,
          .undefined ⟨n.toNat, h⟩ (by simp [Instr.selects]) (.inr rfl) hd⟩
    · exact ⟨_, _, _, by simp only [exec, execCfgnotch, onInst_of_ge h]; rfl, .illegal n rfl h⟩
  | reset n =>
    by_cases h : n.toNat < Config.numInst
    · exact ⟨_, _, _, by simp only [exec, execReset, onInst_of_lt h]; rfl,
        .write ⟨n.toNat, h⟩ ((s.getInst ⟨n.toNat, h⟩).withDelays posZero posZero) [] (by simp [Instr.selects])
          (fun hv => hv) (by simp [Instr.op, Inst.withDelays]) rfl ⟨_, rfl, rfl⟩⟩
    · exact ⟨_, _, _, by simp only [exec, execReset, onInst_of_ge h]; rfl, .illegal n rfl h⟩
  | tick n x =>
    by_cases h : n.toNat < Config.numInst
    · cases hc : (s.getInst ⟨n.toNat, h⟩).cfgd with
      | true =>
        exact ⟨_, _, _, by simp only [exec, execTick, onInst_of_lt h, hc, if_true]; rfl,
          .write ⟨n.toNat, h⟩ ((s.getInst ⟨n.toNat, h⟩).tickNext x) _ (by simp [Instr.selects])
            (fun hv => hv) (by simp [Instr.op, Inst.withDelays, Inst.tickNext]) rfl ⟨_, rfl, rfl⟩⟩
      | false =>
        exact ⟨_, _, _, by simp only [exec, execTick, onInst_of_lt h, hc]; rfl,
          .notcfg ⟨n.toNat, h⟩ (by simp [Instr.selects]) rfl hc⟩
    · exact ⟨_, _, _, by simp only [exec, execTick, onInst_of_ge h]; rfl, .illegal n rfl h⟩
  | status =>
    exact ⟨_, _, _, rfl, .answer _ rfl ⟨_, rfl, by
      simpa [resultsLegal, State.status] using statusWord_legal _ _ _ _⟩⟩
  | dec8 b => exact ⟨_, _, _, rfl, .answer _ rfl ⟨_, rfl, rfl⟩⟩
  | dec16 b => exact ⟨_, _, _, rfl, .answer _ rfl ⟨_, rfl, rfl⟩⟩
  | enc8 x =>
    exact ⟨_, _, _, rfl, .answer _ rfl ⟨_, rfl, by simpa [resultsLegal] using b8Result_legal _⟩⟩
  | enc16 x =>
    exact ⟨_, _, _, rfl, .answer _ rfl ⟨_, rfl, by simpa [resultsLegal] using b16Result_legal _⟩⟩

/-- An instruction that answers `t` ended in one of these ways. -/
theorem exec_next {i : Instr} {s t : State} (h : exec i s = .next t) :
    ∃ u rc rs, t = u.answered i.op.code rc rs ∧ Ending i s u rc rs := by
  obtain ⟨u, rc, rs, he, hend⟩ := exec_ending i s
  exact ⟨u, rc, rs, by simpa [he] using h.symm, hend⟩

/-! ## The port and the step -/

/-- Everything the port can do. -/
theorem portMove_cases (s : State) :
    (s.rst = true ∧ portMove s = .internal s.hardwareReset) ∨
    (s.rst = false ∧ ∃ p rest, frame (s.rx ++ s.held) = some (p, rest) ∧ portMove s = .command p (s.accept rest)) ∨
    (s.rst = false ∧ frame (s.rx ++ s.held) = none ∧ (s.held ≠ [] ∨ s.tx ≠ none) ∧ portMove s = .internal s.receive) ∨
    (s.rst = false ∧ frame (s.rx ++ s.held) = none ∧ s.held = [] ∧ s.tx = none ∧
      portMove s = .blocked (if s.rx.isEmpty then .idle else .packetIncomplete)) := by
  unfold portMove
  cases hr : s.rst with
  | true => simp
  | false =>
    rcases hf : frame (s.rx ++ s.held) with _ | ⟨p, rest⟩
    · cases hh : s.held with
      | nil => cases ht : s.tx <;> simp
      | cons b bs => simp
    · simp

/-- Everything a step can do. -/
theorem step_cases (s : State) :
    (s.rst = true ∧ step s = .next s.hardwareReset) ∨
    (s.rst = false ∧ ∃ p rest, frame (s.rx ++ s.held) = some (p, rest) ∧
      ((∃ i, decodePacket Config.build p = .ok i ∧ step s = exec i (s.accept rest)) ∨
       (∃ e, decodePacket Config.build p = .error e ∧ step s = rejectMalformed p (s.accept rest)))) ∨
    (s.rst = false ∧ frame (s.rx ++ s.held) = none ∧ (s.held ≠ [] ∨ s.tx ≠ none) ∧ step s = .next s.receive) ∨
    (s.rst = false ∧ frame (s.rx ++ s.held) = none ∧ s.held = [] ∧ s.tx = none ∧
      step s = .fault (if s.rx.isEmpty then .idle else .packetIncomplete)) := by
  obtain ⟨hr, hp⟩ | ⟨hr, p, rest, hf, hp⟩ | ⟨hr, hf, hh, hp⟩ | ⟨hr, hf, hh, ht, hp⟩ := portMove_cases s
  · exact .inl ⟨hr, by simp [step, hp]⟩
  · refine .inr (.inl ⟨hr, p, rest, hf, ?_⟩)
    cases hd : decodePacket Config.build p with
    | ok i => exact .inl ⟨i, rfl, by simp [step, hp, hd]⟩
    | error e => exact .inr ⟨e, rfl, by simp [step, hp, hd]⟩
  · exact .inr (.inr (.inl ⟨hr, hf, hh, by simp [step, hp]⟩))
  · exact .inr (.inr (.inr ⟨hr, hf, hh, ht, by simp [step, hp]⟩))

/-- A malformed packet is answered ILLEGAL with its OPC as received, and E_ILL is set (R181, R183). -/
theorem rejectMalformed_eq (p : Packet) (s : State) :
    rejectMalformed p s = .next ((setSticky .illegal s).answered (headerOpc p.header) .illegal []) := rfl

/-! ## The start of a run (R210, log 20) -/

/-- At a start nothing has happened yet: no response, no command, no reset asserted, nothing on the stream. -/
theorem State.Start.fresh {s : State} (h : s.Start) :
    s.Ready ∧ s.undef = false ∧ s.pc = 0 ∧ s.observation = [] := by
  obtain ⟨n, rfl⟩ | ⟨-, hu, hrx, hpc, hh, htx, hs, hrst⟩ := h
  · exact ⟨⟨rfl, rfl, rfl⟩, rfl, rfl, rfl⟩
  · exact ⟨⟨hrst, hrx, hh⟩, hu, hpc, by simp [State.observation, htx, hs]⟩

/-- Every start meets the invariant that the steps keep. -/
theorem State.Start.inv {s : State} (h : s.Start) : s.Inv := by
  obtain ⟨n, rfl⟩ | ⟨hv, -, hrx, hpc, -, htx, hs, -⟩ := h
  · exact ⟨(by decide : ∀ k, (State.reset.getInst k).valid = true), rfl, fun _ h => by simp [State.reset] at h,
      fun _ h => by simp [State.reset] at h, rfl⟩
  · exact ⟨hv, by rw [hrx]; rfl, by simp [htx], by simp [hs], by simp [hpc, htx, hs]⟩

end Sys2Proof.Machine
end

