-- ==== Sys2Proof/Laws/PerInstr.lean ====
section
/-! SUPPORT. What holds of every instruction as syntax, one lemma per constructor: its header carries its OPC, its instance
and its operand count (R81, R84), and its operand words are legal in their formats (R82). -/

namespace Sys2Proof.Laws.RoundTrip

/-- The header fields and operand words of an instruction are those of its row of the opcode map. -/
def Statement (i : Instr) : Prop :=
  headerOpc i.header = i.op.code ∧ headerInst i.header = i.inst ∧ headerRsv i.header = 0 ∧
  (headerNops i.header).toNat = i.operandWords.length ∧
  ∃ row, rowOfCode i.op.code = some row ∧ row.op = i.op ∧ row.operands.length = i.operandWords.length ∧
    operandsLegal row.operands i.operandWords = true

theorem fs_legal (fs : Bits32) : OperandFormat.fs.legal (fs.setWidth 64) = true := by
  simp only [OperandFormat.legal, beq_iff_eq]
  apply BitVec.eq_of_getLsbD_eq
  intro k hk
  simp [BitVec.getLsbD_extractLsb', BitVec.getLsbD_setWidth]

theorem b8_legal (b : Byte) : OperandFormat.b8.legal (b.setWidth 64) = true := by
  simp only [OperandFormat.legal, beq_iff_eq]
  apply BitVec.eq_of_getLsbD_eq
  intro k hk
  simp [BitVec.getLsbD_extractLsb', BitVec.getLsbD_setWidth]

theorem b16_legal (b : BitVec 16) : OperandFormat.b16.legal (b.setWidth 64) = true := by
  simp only [OperandFormat.legal, beq_iff_eq]
  apply BitVec.eq_of_getLsbD_eq
  intro k hk
  simp [BitVec.getLsbD_extractLsb', BitVec.getLsbD_setWidth]

/-- The header part of the statement holds of every instruction. -/
theorem header_fields (i : Instr) : headerOpc i.header = i.op.code ∧ headerInst i.header = i.inst ∧
    headerRsv i.header = 0 ∧ (headerNops i.header).toNat = i.operandWords.length := by
  refine ⟨headerOpc_headerWord _ _ _ _, headerInst_headerWord _ _ _ _, headerRsv_headerWord _ _ _ _, ?_⟩
  rw [Instr.header, headerNops_headerWord]
  cases i <;> rfl

theorem cfgbp (n : InstNum) (f0 g q : Bits64) (fs : Bits32) : Statement (.cfgbp n f0 g q fs) := by
  obtain ⟨h1, h2, h3, h4⟩ := header_fields (.cfgbp n f0 g q fs)
  exact ⟨h1, h2, h3, h4, _, rfl, rfl, rfl, by simp [operandsLegal, Instr.operandWords, OperandFormat.legal.eq_1, fs_legal]⟩

theorem cfgnotch (n : InstNum) (f0 q : Bits64) (fs : Bits32) : Statement (.cfgnotch n f0 q fs) := by
  obtain ⟨h1, h2, h3, h4⟩ := header_fields (.cfgnotch n f0 q fs)
  exact ⟨h1, h2, h3, h4, _, rfl, rfl, rfl, by simp [operandsLegal, Instr.operandWords, OperandFormat.legal.eq_1, fs_legal]⟩

theorem reset (n : InstNum) : Statement (.reset n) := by
  obtain ⟨h1, h2, h3, h4⟩ := header_fields (.reset n)
  exact ⟨h1, h2, h3, h4, _, rfl, rfl, rfl, rfl⟩

theorem tick (n : InstNum) (x : Bits64) : Statement (.tick n x) := by
  obtain ⟨h1, h2, h3, h4⟩ := header_fields (.tick n x)
  exact ⟨h1, h2, h3, h4, _, rfl, rfl, rfl, rfl⟩

theorem status : Statement .status := by
  obtain ⟨h1, h2, h3, h4⟩ := header_fields .status
  exact ⟨h1, h2, h3, h4, _, rfl, rfl, rfl, rfl⟩

theorem dec8 (b : Byte) : Statement (.dec8 b) := by
  obtain ⟨h1, h2, h3, h4⟩ := header_fields (.dec8 b)
  exact ⟨h1, h2, h3, h4, _, rfl, rfl, rfl, by simp [operandsLegal, Instr.operandWords, b8_legal]⟩

theorem dec16 (b : BitVec 16) : Statement (.dec16 b) := by
  obtain ⟨h1, h2, h3, h4⟩ := header_fields (.dec16 b)
  exact ⟨h1, h2, h3, h4, _, rfl, rfl, rfl, by simp [operandsLegal, Instr.operandWords, b16_legal]⟩

theorem enc8 (x : Bits64) : Statement (.enc8 x) := by
  obtain ⟨h1, h2, h3, h4⟩ := header_fields (.enc8 x)
  exact ⟨h1, h2, h3, h4, _, rfl, rfl, rfl, rfl⟩

theorem enc16 (x : Bits64) : Statement (.enc16 x) := by
  obtain ⟨h1, h2, h3, h4⟩ := header_fields (.enc16 x)
  exact ⟨h1, h2, h3, h4, _, rfl, rfl, rfl, rfl⟩

end Sys2Proof.Laws.RoundTrip
end

