-- ==== Sys2Proof/Laws/Rounding.lean ====
section
/-! SUPPORT. What each binary64 primitive answers, case by case (R9): a rounded word is the nearest one, a representable
result is exact, a NaN operand gives QNAN, a sign flip keeps the magnitude. -/

namespace Sys2Proof.Machine

/-! ## A rounded word -/

/-- The factor of a sign. -/
abbrev sgn (neg : Bool) : Int := if neg then -1 else 1

/-- A rounded magnitude fits bits 62:0. -/
theorem roundMag_lt (num den : Nat) : roundMag num den < 2 ^ 63 :=
  lt_of_le_of_lt (roundMag_le_inf num den) (by unfold infMag; norm_num)

/-- A rounded word is finite exactly below the middle between the largest finite magnitude and 2^1024. -/
theorem pack_round_finite (neg : Bool) (num den : Nat) (hden : 0 < den) :
    isFinite (pack neg (roundMag num den)) = true ↔ num < overflowUnits * den := by
  rw [isFinite_pack _ (roundMag_lt num den), decide_eq_true_eq, roundMag_lt_inf_iff num den hden]

/-- A rounded word that is not finite is the infinity of its sign. -/
theorem pack_round_inf (neg : Bool) (num den : Nat) (h : isFinite (pack neg (roundMag num den)) = false) :
    pack neg (roundMag num den) = if neg then 0xFFF0000000000000 else 0x7FF0000000000000 := by
  rw [isFinite_pack _ (roundMag_lt num den), decide_eq_false_iff_not] at h
  have := roundMag_le_inf num den
  rw [show roundMag num den = infMag by omega]
  cases neg <;> rfl

/-- A value is its sign times its magnitude. -/
theorem sunits_eq (v : Bits64) : sunits v = sgn (signBit v) * units v := by
  unfold sunits; split <;> simp [*]

/-- roundTiesToEven (R9) for a signed word: no finite word is nearer to the exact ratio, and another value is as near only
when the rounded word is even. -/
theorem pack_round_nearest (neg : Bool) (num den : Nat) (hden : 0 < den)
    (hfin : isFinite (pack neg (roundMag num den)) = true) (c : Bits64) :
    |sunits (pack neg (roundMag num den)) * den - sgn neg * num| ≤ |sunits c * den - sgn neg * num| ∧
    (sunits c ≠ sunits (pack neg (roundMag num den)) →
      |sunits (pack neg (roundMag num den)) * den - sgn neg * num| = |sunits c * den - sgn neg * num| →
      fracField (pack neg (roundMag num den)) % 2 = 0) := by
  have hlt := roundMag_lt num den
  rw [isFinite_pack _ hlt, decide_eq_true_eq] at hfin
  have hpar : fracField (pack neg (roundMag num den)) % 2 = roundMag num den % 2 := by
    rw [fracField_pack _ hlt]; omega
  rw [hpar]
  have key : ∀ m : Nat, ∀ cs : Bool,
     let v : Int := sgn neg * magUnits (roundMag num den)
     let w : Int := sgn cs * magUnits m
     |v * den - sgn neg * num| ≤ |w * den - sgn neg * num| ∧
     (w ≠ v → |v * den - sgn neg * num| = |w * den - sgn neg * num| → roundMag num den % 2 = 0) := by
    intro m cs v w
    obtain ⟨n1, n2⟩ := roundMag_nearest num den hden hfin m
    obtain ⟨z1, z2⟩ := roundMag_nearest num den hden hfin 0
    have habs : ∀ x : Int, |sgn neg * x| = |x| := by intro x; cases neg <;> simp [sgn]
    have ev : v * den - sgn neg * num = sgn neg * (magUnits (roundMag num den) * den - num) := by simp only [v]; ring
    rw [ev, habs]
    by_cases hs : cs = neg
    · subst hs
      have ew : w * den - sgn cs * num = sgn cs * (magUnits m * den - num) := by simp only [w]; ring
      rw [ew, habs]
      refine ⟨n1, fun hne he => n2 (fun e => hne ?_) he⟩
      simp only [w, v, e]
    · have hsg : sgn cs = - sgn neg := by cases cs <;> cases neg <;> simp_all [sgn]
      have ew : w * den - sgn neg * num = sgn neg * (-((magUnits m : Int) * den + num)) := by simp only [w, hsg]; ring
      rw [ew, habs, abs_neg, abs_of_nonneg (by positivity : (0:Int) ≤ (magUnits m : Int) * den + num)]
      simp only [magUnits_zero, Nat.cast_zero, zero_mul, zero_sub, abs_neg, Nat.abs_cast] at z1 z2
      have hm : (0 : Int) ≤ (magUnits m : Int) * den := by positivity
      refine ⟨by omega, fun hne he => ?_⟩
      have h0 : (magUnits m : Int) * den = 0 := by omega
      have hm0 : (magUnits m : Int) = 0 := by
        rcases mul_eq_zero.mp h0 with h | h
        · exact h
        · omega
      apply z2
      · intro h0'; apply hne; simp only [w, v, hm0, ← h0', magUnits_zero]; simp
      · omega
  have := key (magBits c) (signBit c)
  rw [sunits_eq c, units_eq c, sunits_pack neg hlt]
  have e : (if neg = true then -(magUnits (roundMag num den) : Int) else magUnits (roundMag num den))
      = sgn neg * magUnits (roundMag num den) := by
    cases neg <;> simp [sgn]
  rw [e]; exact this

/-! ## The primitives on finite words -/

/-- The product of finite words. -/
theorem fmul_finite {a b : Bits64} (ha : isFinite a = true) (hb : isFinite b = true) :
    fmul a b = pack (signBit a != signBit b) (roundMag (units a * units b) unit) := by
  simp [fmul, not_nan_of_finite ha, not_nan_of_finite hb]

/-- The quotient of a finite word by a non-zero finite one. -/
theorem fdiv_finite {a b : Bits64} (ha : isFinite a = true) (hb : isFinite b = true) (hz : isZero b = false) :
    fdiv a b = pack (signBit a != signBit b) (roundMag (units a * unit) (units b)) := by
  simp [fdiv, not_nan_of_finite ha, not_nan_of_finite hb, hz]

/-- The sum of finite words. -/
theorem fadd_finite {a b : Bits64} (ha : isFinite a = true) (hb : isFinite b = true) : fadd a b = faddFinite a b := by
  simp [fadd, not_nan_of_finite ha, not_nan_of_finite hb]

/-- A rounded word is its exact value rounded once, in the terms of the statements. -/
theorem pack_roundsTo (neg : Bool) (num den : Nat) (hden : 0 < den) :
    RoundsTo (pack neg (roundMag num den)) (sgn neg * num) den := by
  refine ⟨?_, fun h => ?_, fun h c _ => pack_round_nearest neg num den hden h c⟩
  · rw [pack_round_finite neg num den hden, show |sgn neg * (num : Int)| = (num : Int) by cases neg <;> simp [sgn]]
    norm_cast
  · have hpos : 0 < num := by
      rw [← Bool.not_eq_true, pack_round_finite neg num den hden] at h
      have : 0 < overflowUnits * den := Nat.mul_pos overflowUnits_pos hden
      omega
    rw [pack_round_inf neg num den h]
    cases neg <;> simp [sgn]; omega

theorem sgn_xor (a b : Bool) : sgn (a != b) = sgn a * sgn b := by cases a <;> cases b <;> simp [sgn]

theorem abs_sunits (a : Bits64) : |sunits a| = units a := by
  rw [sunits_eq]; cases signBit a <;> simp [sgn]

theorem isInf_pack {neg num den} (h : isFinite (pack neg (roundMag num den)) = false) :
    isInf (pack neg (roundMag num den)) = true := by
  rw [pack_round_inf _ _ _ h]; cases neg <;> decide

/-- A sum that is not an exact zero. -/
theorem faddFinite_ne {a b : Bits64} (h : sunits a + sunits b ≠ 0) :
    faddFinite a b = pack (decide (sunits a + sunits b < 0)) (roundMag (sunits a + sunits b).natAbs 1) := by
  simp [faddFinite, h, roundRatio]

theorem sgn_natAbs (z : Int) : sgn (decide (z < 0)) * (z.natAbs : Int) = z := by
  by_cases h : z < 0
  · simp [sgn, h, abs_of_neg h]
  · simp [sgn, h, abs_of_nonneg (not_lt.mp h)]

/-! ## NaN operands -/

theorem isNaN_qnan : isNaN qnan = true := by decide

theorem fmul_nan {a b : Bits64} (h : isNaN a = true ∨ isNaN b = true) : fmul a b = qnan := by
  rcases h with h | h <;> simp [fmul, h]

theorem fadd_nan {a b : Bits64} (h : isNaN a = true ∨ isNaN b = true) : fadd a b = qnan := by
  rcases h with h | h <;> simp [fadd, h]

theorem fneg_nan {a : Bits64} (h : isNaN a = true) : fneg a = qnan := by simp [fneg, h]

theorem fsub_nan {a b : Bits64} (h : isNaN a = true ∨ isNaN b = true) : fsub a b = qnan := by
  apply fadd_nan; rcases h with h | h
  · exact .inl h
  · right; rw [fneg_nan h]; exact isNaN_qnan

theorem fdiv_nan {a b : Bits64} (h : isNaN a = true ∨ isNaN b = true) : fdiv a b = qnan := by
  rcases h with h | h <;> simp [fdiv, h]

/-! ## Sign flips and classes -/

/-- A sign flip flips bit 63 and nothing else. -/
theorem fneg_eq {a : Bits64} (h : isNaN a = false) : fneg a = pack (!signBit a) (magBits a) := by
  simp only [fneg, h, Bool.false_eq_true, if_false]
  conv_lhs => rw [← pack_fields a]
  have hm := magBits_lt a
  generalize magBits a = m at *
  apply BitVec.eq_of_getLsbD_eq
  intro i hi
  have h1 : ∀ b, (pack b m).getLsbD i = if i = 63 then b else m.testBit i := by
    intro b
    rw [BitVec.getLsbD, pack_toNat b hm]
    by_cases hi63 : i = 63
    · subst hi63
      cases b
      · simp [Nat.testBit_lt_two_pow hm]
      · rw [if_pos rfl, Nat.testBit_two_pow_add_eq, Nat.testBit_lt_two_pow hm]; rfl
    · cases b
      · simp [hi63]
      · rw [if_pos rfl, if_neg hi63, Nat.testBit_two_pow_add_gt (by omega)]
  rw [BitVec.getLsbD_xor, h1, h1]
  by_cases hi63 : i = 63
  · subst hi63; rw [if_pos rfl, if_pos rfl, show negZero.getLsbD 63 = true by decide]; simp
  · have : negZero.getLsbD i = false := by
      simp only [negZero]
      interval_cases i <;> first | rfl | exact absurd rfl hi63
    simp [hi63, this]

theorem fneg_sign {a : Bits64} (h : isNaN a = false) : signBit (fneg a) = !signBit a := by
  rw [fneg_eq h, signBit_pack _ (magBits_lt a)]

theorem fneg_mag {a : Bits64} (h : isNaN a = false) : magBits (fneg a) = magBits a := by
  rw [fneg_eq h]
  have hm := magBits_lt a
  unfold magBits at hm ⊢
  rw [pack_toNat _ hm]
  cases signBit a <;> simp

theorem ext_mag {a b : Bits64} (h : signBit a = signBit b) (h' : magBits a = magBits b) : a = b := by
  rw [← pack_fields a, ← pack_fields b, h, h']

/-- A sign flip keeps the class of a word. -/
theorem fneg_pred {a : Bits64} (h : isNaN a = false) :
    isNaN (fneg a) = false ∧ isInf (fneg a) = isInf a ∧ isZero (fneg a) = isZero a ∧ isFinite (fneg a) = isFinite a := by
  have hm := fneg_mag h
  refine ⟨?_, ?_, ?_, ?_⟩
  · rw [Bool.eq_false_iff, Ne, isNaN_iff, hm, ← isNaN_iff]; simp [h]
  · rw [Bool.eq_iff_iff, isInf_iff, isInf_iff, hm]
  · rw [Bool.eq_iff_iff, isZero_iff, isZero_iff, hm]
  · rw [Bool.eq_iff_iff, isFinite_iff, isFinite_iff, hm]

theorem fneg_units {a : Bits64} (h : isNaN a = false) : units (fneg a) = units a := by
  rw [units_eq, units_eq, fneg_mag h]

theorem fneg_sunits {a : Bits64} (h : isNaN a = false) : sunits (fneg a) = - sunits a := by
  rw [sunits_eq, sunits_eq, fneg_units h, fneg_sign h]; cases signBit a <;> simp [sgn]

/-- An infinity is nothing else. -/
theorem inf_class {a : Bits64} (h : isInf a = true) : isNaN a = false ∧ isZero a = false ∧ isFinite a = false := by
  rw [isInf_iff] at h
  refine ⟨?_, ?_, ?_⟩
  · rw [Bool.eq_false_iff, Ne, isNaN_iff]; omega
  · rw [Bool.eq_false_iff, Ne, isZero_iff]; unfold infMag at h; omega
  · rw [Bool.eq_false_iff, Ne, isFinite_iff]; omega

/-- A zero is finite. -/
theorem zero_class {a : Bits64} (h : isZero a = true) : isNaN a = false ∧ isInf a = false ∧ isFinite a = true := by
  rw [isZero_iff] at h
  refine ⟨?_, ?_, ?_⟩
  · rw [Bool.eq_false_iff, Ne, isNaN_iff]; omega
  · rw [Bool.eq_false_iff, Ne, isInf_iff]; unfold infMag; omega
  · rw [isFinite_iff]; unfold infMag; omega

theorem pack_round_notnan (neg n d) : isNaN (pack neg (roundMag n d)) = false :=
  isNaN_pack_of_le _ (roundMag_lt _ _) (roundMag_le_inf _ _)

theorem faddFinite_notnan (a b) : isNaN (faddFinite a b) = false := by
  unfold faddFinite
  split
  · split <;> decide
  · exact pack_round_notnan _ _ _

/-! ## Zeros and exact results -/

/-- Nothing rounds to nothing. -/
theorem roundMag_zero {d : Nat} (hd : 0 < d) : roundMag 0 d = 0 := by
  have h := (roundMag_lt_inf_iff 0 d hd).mpr (by unfold overflowUnits; generalize 2044 = n; positivity)
  obtain ⟨h1, -⟩ := roundMag_nearest 0 d hd h 0
  simp only [magUnits_zero] at h1
  have h2 : (magUnits (roundMag 0 d) : Int) * d = 0 := le_antisymm (by simpa using h1) (by positivity)
  have h3 : magUnits (roundMag 0 d) = 0 := by
    rcases mul_eq_zero.mp h2 with h | h <;> omega
  exact magUnits_strictMono.injective (h3.trans magUnits_zero.symm)

theorem isZero_pack (neg : Bool) : isZero (pack neg 0) = true := by cases neg <;> decide

theorem isZero_fmul_zero {a b : Bits64} (ha : isFinite a = true) (hb : isZero b = true) : isZero (fmul a b) = true := by
  obtain ⟨b1, b2, b3⟩ := zero_class hb
  rw [fmul_finite ha b3, (units_eq_zero_iff b).mpr hb, Nat.mul_zero, roundMag_zero unit_pos]
  exact isZero_pack _

theorem isZero_fadd {a b : Bits64} (ha : isZero a = true) (hb : isZero b = true) : isZero (fadd a b) = true := by
  have h1 := zero_class ha; have h2 := zero_class hb
  rw [fadd_finite h1.2.2 h2.2.2]
  have : sunits a = 0 := by rw [sunits_eq, (units_eq_zero_iff a).mpr ha]; simp
  have : sunits b = 0 := by rw [sunits_eq, (units_eq_zero_iff b).mpr hb]; simp
  simp [faddFinite, *]; split <;> decide

theorem isZero_fsub {a b : Bits64} (ha : isZero a = true) (hb : isZero b = true) : isZero (fsub a b) = true := by
  have h2 := zero_class hb
  exact isZero_fadd ha (by rw [(fneg_pred h2.1).2.2.1]; exact hb)

/-- A ratio that is a finite magnitude rounds to it. -/
theorem roundMag_exact {num den m : Nat} (hden : 0 < den) (hm : m < infMag) (h : magUnits m * den = num) :
    roundMag num den = m := by
  have hfin : roundMag num den < infMag := by
    rcases Nat.lt_or_ge (roundMag num den) infMag with h' | h'
    · exact h'
    · exfalso
      have e := roundMag_le_inf num den
      have hge : ¬ num < overflowUnits * den := fun hl => by
        have := (roundMag_lt_inf_iff num den hden).mpr hl; omega
      have h1 : magUnits m < overflowUnits := by
        have : magUnits m ≤ magUnits (infMag - 1) := magUnits_strictMono.monotone (by omega)
        have e : magUnits (infMag - 1) < overflowUnits := by
          rw [show infMag - 1 = 2045 * 2 ^ 52 + (2 ^ 53 - 1) by unfold infMag; norm_num,
            magUnits_mk _ _ (by norm_num) (by norm_num)]
          obtain ⟨t, c0, -, c, -⟩ := two_pow_cmp 2045
          rw [c rfl, c0]
          have ht : 0 < t := by
            have := c rfl; by_contra h0
            have : t = 0 := by omega
            subst this
            revert this; generalize hn : 2045 = n at *; intro; have := Nat.two_pow_pos n; omega
          omega
        omega
      apply hge; rw [← h]; exact Nat.mul_lt_mul_of_pos_right h1 hden
  obtain ⟨h1, -⟩ := roundMag_nearest num den hden hfin m
  have : ((magUnits m : Int) * den - num) = 0 := by rw [← h]; push_cast; ring
  rw [this, abs_zero] at h1
  have h2 : (magUnits (roundMag num den) : Int) * den = num := by
    have := abs_nonpos_iff.mp h1; omega
  apply magUnits_strictMono.injective
  have h3 : magUnits (roundMag num den) * den = magUnits m * den := by rw [h]; exact_mod_cast h2
  exact Nat.eq_of_mul_eq_mul_right hden h3

/-- Every k·2^s units with k below 2^53 is a magnitude. -/
theorem magUnits_surj (s : Nat) : ∀ k < 2 ^ 53, ∃ m, m < (s + 2) * 2 ^ 52 ∧ magUnits m = k * 2 ^ s := by
  induction s with
  | zero => intro k hk; exact ⟨k, by omega, by simpa using magUnits_mk 0 k (by omega) (by omega)⟩
  | succ s ih =>
    intro k hk
    rcases Nat.lt_or_ge k (2 ^ 52) with h | h
    · obtain ⟨m, h1, h2⟩ := ih (2 * k) (by omega)
      exact ⟨m, lt_of_lt_of_le h1 (Nat.mul_le_mul_right _ (by omega)), by
        rw [h2, pow_succ', ← Nat.mul_assoc, Nat.mul_comm k 2]⟩
    · exact ⟨(s + 1) * 2 ^ 52 + k, by omega, magUnits_mk _ _ (by omega) (fun _ => h)⟩

/-- A ratio of k·2^s units with k below 2^53 rounds to exactly that. -/
theorem roundMag_repr {num den k s : Nat} (hden : 0 < den) (hk : k < 2 ^ 53) (hs : s ≤ 2045) (h : k * 2 ^ s * den = num) :
    roundMag num den < infMag ∧ magUnits (roundMag num den) = k * 2 ^ s := by
  obtain ⟨m, h1, h2⟩ := magUnits_surj s k hk
  have hm : m < infMag := by unfold infMag; omega
  subst h
  rw [← h2, roundMag_exact hden hm rfl]; exact ⟨hm, rfl⟩

/-- A result that is k·2^s units with k below 2^53 is given exactly. -/
theorem pack_repr (neg : Bool) {num den k s : Nat} (hden : 0 < den) (hk : k < 2 ^ 53) (hs : s ≤ 2045)
    (h : k * 2 ^ s * den = num) :
    isFinite (pack neg (roundMag num den)) = true ∧
    sunits (pack neg (roundMag num den)) = sgn neg * (k * 2 ^ s : Nat) ∧
    signBit (pack neg (roundMag num den)) = neg ∧
    units (pack neg (roundMag num den)) = k * 2 ^ s := by
  obtain ⟨h1, h2⟩ := roundMag_repr hden hk hs h
  have hl := roundMag_lt num den
  refine ⟨by rw [isFinite_pack _ hl]; simpa using h1, ?_, signBit_pack _ hl, by rw [units_pack _ hl, h2]⟩
  rw [sunits_pack _ hl, h2]; cases neg <;> simp [sgn]

/-- The unit as a power of two, without writing the number out. -/
theorem unit_eq : ∃ s : Nat, s = 1074 ∧ unit = 2 ^ s := ⟨1074, rfl, by unfold unit; generalize 1074 = n; rfl⟩

end Sys2Proof.Machine
end

