-- ==== Sys2Proof/Laws/Trig.lean ====
section
/-! SUPPORT. The Taylor sums of SIN64 and COS64 enclose the real sine and cosine: a sum that ends in a positive term lies
above, the next one below, for every non-negative argument (log 5). -/

namespace Sys2Proof.Machine

/-! ## The alternating Taylor sums over the reals -/

/-- The sine's Taylor sum of t + 1 terms. -/
noncomputable def sinTaylor (t : Nat) (x : ℝ) : ℝ :=
  ∑ k ∈ Finset.range (t + 1), (-1) ^ k * x ^ (2 * k + 1) / (2 * k + 1).factorial

/-- The cosine's Taylor sum of t + 1 terms. -/
noncomputable def cosTaylor (t : Nat) (x : ℝ) : ℝ :=
  ∑ k ∈ Finset.range (t + 1), (-1) ^ k * x ^ (2 * k) / (2 * k).factorial

theorem hasDerivAt_sinTaylor (t : Nat) (x : ℝ) : HasDerivAt (sinTaylor t) (cosTaylor t x) x := by
  unfold sinTaylor cosTaylor
  apply HasDerivAt.fun_sum
  intro k _
  have h := ((hasDerivAt_pow (2 * k + 1) x).const_mul ((-1 : ℝ) ^ k)).div_const ((2 * k + 1).factorial : ℝ)
  refine h.congr_deriv ?_
  rw [Nat.factorial_succ]
  have h1 : ((2 * k).factorial : ℝ) ≠ 0 := by exact_mod_cast Nat.factorial_ne_zero _
  have h2 : ((2 * k + 1 : Nat) : ℝ) ≠ 0 := Nat.cast_ne_zero.mpr (Nat.succ_ne_zero (2 * k))
  rw [Nat.cast_mul, Nat.add_sub_cancel]
  field_simp

theorem hasDerivAt_cosTaylor (t : Nat) (x : ℝ) : HasDerivAt (cosTaylor (t + 1)) (-sinTaylor t x) x := by
  have e : cosTaylor (t + 1) = fun x : ℝ =>
      (∑ k ∈ Finset.range (t + 1), (-1) ^ (k + 1) * x ^ (2 * k + 2) / (2 * k + 2).factorial) + 1 := by
    funext y
    rw [cosTaylor, Finset.sum_range_succ']
    simp [mul_add]
  rw [e]
  have hs : -sinTaylor t x = ∑ k ∈ Finset.range (t + 1), -((-1) ^ k * x ^ (2 * k + 1) / (2 * k + 1).factorial) := by
    rw [sinTaylor, Finset.sum_neg_distrib]
  rw [hs]
  apply HasDerivAt.add_const
  apply HasDerivAt.fun_sum
  intro k _
  have h := ((hasDerivAt_pow (2 * k + 2) x).const_mul ((-1 : ℝ) ^ (k + 1))).div_const ((2 * k + 2).factorial : ℝ)
  refine h.congr_deriv ?_
  rw [Nat.factorial_succ (2 * k + 1)]
  have h1 : ((2 * k + 1).factorial : ℝ) ≠ 0 := by exact_mod_cast Nat.factorial_ne_zero _
  have h2 : ((2 * k + 1 + 1 : Nat) : ℝ) ≠ 0 := Nat.cast_ne_zero.mpr (Nat.succ_ne_zero (2 * k + 1))
  rw [Nat.cast_mul, show 2 * k + 2 - 1 = 2 * k + 1 by omega, pow_succ]
  push_cast at h2 ⊢
  field_simp
  ring

/-- A function that starts at 0 and has no negative slope is not negative. -/
theorem nonneg_of_deriv {f f' : ℝ → ℝ} (hf : ∀ x, HasDerivAt f (f' x) x) (h0 : f 0 = 0) (hd : ∀ x, 0 ≤ x → 0 ≤ f' x)
    {x : ℝ} (hx : 0 ≤ x) : 0 ≤ f x := by
  have hm : MonotoneOn f (Set.Ici 0) := by
    apply monotoneOn_of_deriv_nonneg (convex_Ici 0)
    · exact fun y _ => (hf y).continuousAt.continuousWithinAt
    · exact fun y _ => (hf y).differentiableAt.differentiableWithinAt
    · intro y hy
      rw [(hf y).deriv]
      rw [interior_Ici, Set.mem_Ioi] at hy
      exact hd y hy.le
  have := hm (Set.mem_Ici.mpr le_rfl) (Set.mem_Ici.mpr hx) hx
  rwa [h0] at this

theorem taylor_alternates (t : Nat) :
    (∀ x : ℝ, 0 ≤ x → 0 ≤ (-1) ^ t * (cosTaylor t x - Real.cos x)) ∧
    (∀ x : ℝ, 0 ≤ x → 0 ≤ (-1) ^ t * (sinTaylor t x - Real.sin x)) := by
  have step : ∀ t, (∀ x : ℝ, 0 ≤ x → 0 ≤ (-1) ^ t * (cosTaylor t x - Real.cos x)) →
      ∀ x : ℝ, 0 ≤ x → 0 ≤ (-1) ^ t * (sinTaylor t x - Real.sin x) := by
    intro t hc x hx
    refine nonneg_of_deriv (f := fun x => (-1) ^ t * (sinTaylor t x - Real.sin x))
      (fun y => ((hasDerivAt_sinTaylor t y).sub (Real.hasDerivAt_sin y)).const_mul _) ?_ hc hx
    simp [sinTaylor]
  induction t with
  | zero =>
    have h : ∀ x : ℝ, 0 ≤ x → 0 ≤ (-1) ^ 0 * (cosTaylor 0 x - Real.cos x) := by
      intro x _
      simp [cosTaylor, Real.cos_le_one x]
    exact ⟨h, step 0 h⟩
  | succ t ih =>
    have h : ∀ x : ℝ, 0 ≤ x → 0 ≤ (-1) ^ (t + 1) * (cosTaylor (t + 1) x - Real.cos x) := by
      intro x hx
      refine nonneg_of_deriv (f := fun x => (-1) ^ (t + 1) * (cosTaylor (t + 1) x - Real.cos x))
        (fun y => ((hasDerivAt_cosTaylor t y).sub (Real.hasDerivAt_cos y)).const_mul _) ?_ ?_ hx
      · simp [cosTaylor, Finset.sum_range_succ']
      · intro y hy
        have := ih.2 y hy
        rw [pow_succ]; linarith
    exact ⟨h, step _ h⟩

/-! ## Horner's form -/

theorem horner_den_pos (a : Nat) {b : Nat} {c : Nat → Nat} (hb : 0 < b) (hc : ∀ k, 0 < c k) (t k : Nat) :
    0 < (horner a b c t k).2 := by
  induction t generalizing k with
  | zero => exact Nat.one_pos
  | succ t ih => exact Nat.mul_pos (Nat.mul_pos hb (hc k)) (ih (k + 1))

/-- The nested form, as a real number, is the sum of its terms. -/
theorem horner_eq_sum (a : Nat) {b : Nat} {c : Nat → Nat} (hb : 0 < b) (hc : ∀ k, 0 < c k) (t k : Nat) :
    ((horner a b c t k).1 : ℝ) / (horner a b c t k).2
      = ∑ j ∈ Finset.range (t + 1), (-1) ^ j * ((a : ℝ) / b) ^ j / ∏ i ∈ Finset.range j, (c (k + i) : ℝ) := by
  induction t generalizing k with
  | zero => simp [horner]
  | succ t ih =>
    rw [Finset.sum_range_succ']
    have hb' : (b : ℝ) ≠ 0 := by exact_mod_cast hb.ne'
    have hck : (c k : ℝ) ≠ 0 := by exact_mod_cast (hc k).ne'
    have hd : ((horner a b c t (k + 1)).2 : ℝ) ≠ 0 := by exact_mod_cast (horner_den_pos a hb hc t (k + 1)).ne'
    have e : ∀ j ∈ Finset.range (t + 1),
        (-1) ^ (j + 1) * ((a : ℝ) / b) ^ (j + 1) / ∏ i ∈ Finset.range (j + 1), (c (k + i) : ℝ)
          = -((a : ℝ) / b / c k) * ((-1) ^ j * ((a : ℝ) / b) ^ j / ∏ i ∈ Finset.range j, (c (k + 1 + i) : ℝ)) := by
      intro j _
      rw [Finset.prod_range_succ']
      rw [Finset.prod_congr rfl fun i _ => congrArg (fun m => (c m : ℝ))
          (Nat.add_right_comm k i 1 ▸ rfl : k + (i + 1) = k + 1 + i),
        show c (k + 0) = c k from rfl]
      have hp : (∏ i ∈ Finset.range j, (c (k + 1 + i) : ℝ)) ≠ 0 :=
        Finset.prod_ne_zero_iff.mpr fun i _ => by exact_mod_cast (hc _).ne'
      rw [pow_succ, pow_succ]
      field_simp
    rw [Finset.sum_congr rfl e, ← Finset.mul_sum, ← ih (k + 1)]
    simp only [horner]
    push_cast
    simp only [Finset.range_zero, Finset.prod_empty, pow_zero]
    field_simp
    ring

theorem prod_sinDivisor (j : Nat) : ∏ i ∈ Finset.range j, (sinDivisor (0 + i) : ℝ) = (2 * j + 1).factorial := by
  induction j with
  | zero => simp
  | succ j ih =>
    rw [Finset.prod_range_succ, ih, show 2 * (j + 1) + 1 = 2 * j + 1 + 1 + 1 by omega, Nat.factorial_succ (2 * j + 1 + 1),
      Nat.factorial_succ (2 * j + 1), sinDivisor]
    push_cast
    ring

theorem prod_cosDivisor (j : Nat) : ∏ i ∈ Finset.range j, (cosDivisor (0 + i) : ℝ) = (2 * j).factorial := by
  induction j with
  | zero => simp
  | succ j ih =>
    rw [Finset.prod_range_succ, ih, show 2 * (j + 1) = 2 * j + 1 + 1 by omega, Nat.factorial_succ,
      Nat.factorial_succ (2 * j), cosDivisor]
    push_cast
    ring

theorem sinSum_den_pos (t n : Nat) : 0 < (sinSum t n).2 :=
  horner_den_pos _ (Nat.mul_pos unit_pos unit_pos) (fun _ => Nat.mul_pos (by omega) (by omega)) t 0

theorem cosSum_den_pos (t n : Nat) : 0 < (cosSum t n).2 :=
  horner_den_pos _ (Nat.mul_pos unit_pos unit_pos) (fun _ => Nat.mul_pos (by omega) (by omega)) t 0

/-- The model's sine sum of `t + 1` terms, in units, is the Taylor sum. -/
theorem sinSum_eq (t n : Nat) :
    ((sinSum t n).1 : ℝ) / (sinSum t n).2 = unit * sinTaylor t ((n : ℝ) / unit) := by
  have hu : (unit : ℝ) ≠ 0 := by exact_mod_cast unit_pos.ne'
  have h := horner_eq_sum (n * n) (Nat.mul_pos unit_pos unit_pos) (c := sinDivisor)
    (fun _ => Nat.mul_pos (by omega) (by omega)) t 0
  simp only [sinSum]
  push_cast at h ⊢
  rw [mul_div_assoc, h, sinTaylor, Finset.mul_sum, Finset.mul_sum]
  refine Finset.sum_congr rfl fun j _ => ?_
  rw [prod_sinDivisor, ← div_mul_div_comm, ← sq, ← pow_mul, pow_succ]
  field_simp

/-- The model's cosine sum of `t + 1` terms, in units, is the Taylor sum. -/
theorem cosSum_eq (t n : Nat) :
    ((cosSum t n).1 : ℝ) / (cosSum t n).2 = unit * cosTaylor t ((n : ℝ) / unit) := by
  have h := horner_eq_sum (n * n) (Nat.mul_pos unit_pos unit_pos) (c := cosDivisor)
    (fun _ => Nat.mul_pos (by omega) (by omega)) t 0
  simp only [cosSum]
  push_cast at h ⊢
  rw [mul_div_assoc, h, cosTaylor]
  congr 1
  refine Finset.sum_congr rfl fun j _ => ?_
  rw [prod_cosDivisor, ← div_mul_div_comm, ← sq, ← pow_mul]

/-- The two sums of `sinDecided` enclose the sine, in units. -/
theorem sinSum_encloses (n : Nat) :
    ((sinSum (trigTerms + 1) n).1 : ℝ) / (sinSum (trigTerms + 1) n).2 ≤ unit * Real.sin ((n : ℝ) / unit) ∧
    unit * Real.sin ((n : ℝ) / unit) ≤ ((sinSum trigTerms n).1 : ℝ) / (sinSum trigTerms n).2 := by
  have hu : (0 : ℝ) < unit := by exact_mod_cast unit_pos
  have hx : (0 : ℝ) ≤ (n : ℝ) / unit := by positivity
  have h1 := (taylor_alternates (trigTerms + 1)).2 _ hx
  have h2 := (taylor_alternates trigTerms).2 _ hx
  rw [show (-1 : ℝ) ^ (trigTerms + 1) = -1 by norm_num [trigTerms]] at h1
  rw [show (-1 : ℝ) ^ trigTerms = 1 by norm_num [trigTerms]] at h2
  rw [sinSum_eq, sinSum_eq]
  exact ⟨mul_le_mul_of_nonneg_left (by linarith) hu.le, mul_le_mul_of_nonneg_left (by linarith) hu.le⟩

/-- The two sums of `cosDecided` enclose the cosine, in units. -/
theorem cosSum_encloses (n : Nat) :
    ((cosSum (trigTerms + 1) n).1 : ℝ) / (cosSum (trigTerms + 1) n).2 ≤ unit * Real.cos ((n : ℝ) / unit) ∧
    unit * Real.cos ((n : ℝ) / unit) ≤ ((cosSum trigTerms n).1 : ℝ) / (cosSum trigTerms n).2 := by
  have hu : (0 : ℝ) < unit := by exact_mod_cast unit_pos
  have hx : (0 : ℝ) ≤ (n : ℝ) / unit := by positivity
  have h1 := (taylor_alternates (trigTerms + 1)).1 _ hx
  have h2 := (taylor_alternates trigTerms).1 _ hx
  rw [show (-1 : ℝ) ^ (trigTerms + 1) = -1 by norm_num [trigTerms]] at h1
  rw [show (-1 : ℝ) ^ trigTerms = 1 by norm_num [trigTerms]] at h2
  rw [cosSum_eq, cosSum_eq]
  exact ⟨mul_le_mul_of_nonneg_left (by linarith) hu.le, mul_le_mul_of_nonneg_left (by linarith) hu.le⟩

end Sys2Proof.Machine
end

