-- ==== Sys2Proof/Tests/Slice0.lean ====
section
/-! SUPPORT. Tests. Every expected value is taken from the spec's own tables and examples (95_test_vectors.md and the
examples of the rules), named in each docstring; and for every statement with hypotheses, a witness that meets them. -/

-- one theorem after another: kernel evaluations side by side need too many threads
set_option Elab.async false

namespace Sys2Proof.Machine.Test

/-! ## Helpers -/

/-- The response of an outcome. -/
def answer : Host.Outcome State Fault Refusal → Option Response
  | .next t => t.tx
  | .fault _ => none
  | .refused _ => none

/-- The registers an outcome leaves in instance 0. -/
def inst0 : Host.Outcome State Fault Refusal → Option Inst
  | .next t => some (t.getInst 0)
  | .fault _ => none
  | .refused _ => none

/-- A stated start state (R210 (b)) with these two instances. -/
def start (r0 r1 : Inst) : State := { State.reset with inst := #v[r0, r1] }

/-- The test coefficient set T1 (95_test_vectors.md §3) with these delay registers. -/
def t1 (w1 w2 : Bits64) : Inst :=
  { cfgd := true, b0 := some 0x3FE0000000000000, b1 := some 0x3FD0000000000000, b2 := some 0xBFE0000000000000,
    a1 := some 0xBFE0000000000000, a2 := some 0x3FD0000000000000, w1 := w1, w2 := w2 }

/-- A configured instance with five coefficients and delay registers at +0.0. -/
def inst (b0 b1 b2 a1 a2 : Bits64) : Inst :=
  { cfgd := true, b0 := some b0, b1 := some b1, b2 := some b2, a1 := some a1, a2 := some a2, w1 := 0, w2 := 0 }

def okResponse (opc : Byte) (results : List Bits64) : Option Response := some { rc := .ok, opc := opc, results := results }

/-! ## WellFormed: one ill-formed term for each check (R181 (c), (f)) -/

theorem test_wf_refuses_cfgbp_instance_2 : (Instr.cfgbp 2 0 0 0 0).wf Config.build = false := by decide
theorem test_wf_refuses_cfgnotch_instance_2 : (Instr.cfgnotch 2 0 0 0).wf Config.build = false := by decide
theorem test_wf_refuses_reset_instance_15 : (Instr.reset 15).wf Config.build = false := by decide
theorem test_wf_refuses_tick_instance_2 : (Instr.tick 2 0).wf Config.build = false := by decide
theorem test_wf_refuses_dec8_without_converter : (Instr.dec8 0).wf { numInst := 2, convPresent := false } = false := by decide
theorem test_wf_refuses_dec16_without_converter : (Instr.dec16 0).wf { numInst := 2, convPresent := false } = false := by decide
theorem test_wf_refuses_enc8_without_converter : (Instr.enc8 0).wf { numInst := 2, convPresent := false } = false := by decide
theorem test_wf_refuses_enc16_without_converter : (Instr.enc16 0).wf { numInst := 2, convPresent := false } = false := by decide
theorem test_wf_accepts_last_instance : (Instr.tick 1 0).wf Config.build = true := by decide

/-! ## Decode: each constructor from bytes written out by R81, R82, R91 (95_test_vectors.md §5) -/

theorem test_decode_cfgbp : decode Config.build
    ([0x01, 0x40, 0x00, 0x00] ++ [0x00, 0x00, 0x00, 0x00, 0x80, 0x88, 0xC5, 0x40] ++ [0x00, 0x00, 0x00, 0x00, 0x00, 0x00, 0xF0, 0x3F]
      ++ [0x00, 0x00, 0x00, 0x00, 0x00, 0x00, 0xE0, 0x3F] ++ [0x44, 0xAC, 0x00, 0x00, 0x00, 0x00, 0x00, 0x00])
    = .ok (.cfgbp 0 0x40C5888000000000 0x3FF0000000000000 0x3FE0000000000000 44100, []) := by rfl
theorem test_decode_cfgnotch : decode Config.build
    ([0x02, 0x31, 0x00, 0x00] ++ [0x00, 0x00, 0x00, 0x00, 0x00, 0x40, 0x8F, 0x40] ++ [0xCD, 0x3B, 0x7F, 0x66, 0x9E, 0xA0, 0xE6, 0x3F]
      ++ [0x44, 0xAC, 0x00, 0x00, 0x00, 0x00, 0x00, 0x00])
    = .ok (.cfgnotch 1 0x408F400000000000 0x3FE6A09E667F3BCD 44100, []) := by rfl
theorem test_decode_reset : decode Config.build [0x03, 0x01, 0x00, 0x00] = .ok (.reset 1, []) := by rfl
theorem test_decode_tick : decode Config.build ([0x04, 0x11, 0x00, 0x00] ++ [0x00, 0x00, 0x00, 0x00, 0x00, 0x00, 0xF0, 0x3F])
    = .ok (.tick 1 0x3FF0000000000000, []) := by rfl
theorem test_decode_status : decode Config.build [0x08, 0x00, 0x00, 0x00, 0x03] = .ok (.status, [0x03]) := by rfl
theorem test_decode_dec8 : decode Config.build ([0x10, 0x10, 0x00, 0x00] ++ [0xFF, 0x00, 0x00, 0x00, 0x00, 0x00, 0x00, 0x00])
    = .ok (.dec8 0xFF, []) := by rfl
theorem test_decode_dec16 : decode Config.build ([0x11, 0x10, 0x00, 0x00] ++ [0x34, 0x12, 0x00, 0x00, 0x00, 0x00, 0x00, 0x00])
    = .ok (.dec16 0x1234, []) := by rfl
theorem test_decode_enc8 : decode Config.build ([0x12, 0x10, 0x00, 0x00] ++ [0x00, 0x00, 0x00, 0x00, 0x00, 0x00, 0xE0, 0x3F])
    = .ok (.enc8 0x3FE0000000000000, []) := by rfl
theorem test_decode_enc16 : decode Config.build ([0x13, 0x10, 0x00, 0x00] ++ [0x55, 0x55, 0x55, 0x55, 0x55, 0x55, 0xD5, 0x3F])
    = .ok (.enc16 0x3FD5555555555555, []) := by rfl

/-- IL1 to IL8 and IL10 (95_test_vectors.md §5): the decoder refuses each packet by the name of its cause. -/
theorem test_decode_refuses_by_cause :
    decodePacket Config.build { header := 0x00000005, ops := [] } = .error .unknownOpcode ∧
    decodePacket Config.build { header := 0x0000200F, ops := [0, 0] } = .error .unknownOpcode ∧
    decodePacket Config.build { header := 0x00010004, ops := [] } = .error .reservedHeaderBits ∧
    decodePacket Config.build { header := 0x00000004, ops := [] } = .error .operandCount ∧
    decodePacket Config.build { header := 0x00001204, ops := [0] } = .error .instOutOfRange ∧
    decodePacket Config.build { header := 0x00000108, ops := [] } = .error .instMustBeZero ∧
    decodePacket Config.build { header := 0x00001010, ops := [0x100] } = .error .operandBits ∧
    decodePacket Config.build { header := 0x00004001, ops := [0, 0, 0, 0x000000010000AC44] } = .error .operandBits ∧
    decodePacket { numInst := 2, convPresent := false } { header := 0x00001010, ops := [0] } = .error .converterAbsent ∧
    decode Config.build [0x04, 0x10, 0x00] = .error .incomplete :=
  ⟨rfl, rfl, rfl, rfl, rfl, rfl, rfl, rfl, rfl, rfl⟩

/-- The table's numbering: bit 0 of the number is bit 0 of the header; operand words above nbits are zeros. -/
theorem test_decodeTableWord :
    decodeTableWord 32 0x00004101 = some (.cfgbp 1 0 0 0 0) ∧ decodeTableWord 32 0x00001013 = some (.enc16 0) ∧
    decodeTableWord 32 0x00001204 = none := by decide

/-! ## Steps from words: framing, rejects, reset -/

/-- The first step after reset runs the word placed on the stream (STATUS vector, R47). -/
theorem test_step_status_after_reset :
    answer (step (State.reset.withFetchWord 32 0x00000008)) = okResponse 0x08 [0x0000001100000000] := by decide +kernel

/-- NC1, TK12: a tick of an unconfigured instance answers 0x00000402 and sets E_NCFG. -/
theorem test_step_tick_unconfigured :
    (answer (step (State.reset.withFetchWord 32 0x00001004))).map Response.bytes = some [0x02, 0x04, 0x00, 0x00] := by
  decide +kernel

/-- IL9: ILLEGAL wins over NOTCFG. -/
theorem test_step_illegal_before_notcfg :
    (answer (step (State.reset.withFetchWord 32 0x00000004))).map Response.bytes = some [0x01, 0x04, 0x00, 0x00] := by
  decide +kernel

/-- R64: three bytes of a header are received and waited on; with nothing more the block has no step. -/
theorem test_step_incomplete_packet :
    (match step (State.reset.hostSend [0x08, 0x00, 0x00]) with
      | .next t => t.rx = [0x08, 0x00, 0x00] ∧ step t = .fault .packetIncomplete
      | _ => False) := ⟨rfl, rfl⟩

/-- R200: an asserted reset goes before a waiting command. -/
theorem test_step_reset_first :
    step ((State.reset.withFetchWord 32 0x00000008).assertReset) = .next State.reset := rfl

/-! ## BQ.CFGBP, BQ.CFGNOTCH (95_test_vectors.md §2) -/

/-- CF6: bq.cfgbp i, 440.0, 2.0, 4.0, 8000. -/
theorem test_cfgbp_CF6 :
    inst0 (exec (.cfgbp 0 0x407B800000000000 0x4000000000000000 0x4010000000000000 8000) State.reset)
      = some (inst 0x3FB4CC6F02E92645 0x0000000000000000 0xBFB4CC6F02E92645 0xBFFCE297788E5DDB 0x3FED66721FA2DB37) := by
  decide +kernel

/-- CC3: bq.cfgbp i, 11025.0, 1.0, -0.5, 44100 (a0 = +0.0): infinities and a NaN are written. -/
theorem test_cfgbp_CC3 :
    inst0 (exec (.cfgbp 0 0x40C5888000000000 0x3FF0000000000000 0xBFE0000000000000 44100) State.reset)
      = some (inst 0xFFF0000000000000 0x7FF8000000000000 0x7FF0000000000000 0xFFF0000000000000 0x7FF0000000000000) := by
  decide +kernel

/-- CF7: bq.cfgnotch i, 50.0, 30.0, 48000. -/
theorem test_cfgnotch_CF7 :
    inst0 (exec (.cfgnotch 0 0x4049000000000000 0x403E000000000000 48000) State.reset)
      = some (inst 0x3FEFFF1B43461EFE 0xBFFFFEEE59A586A2 0x3FEFFF1B43461EFE 0xBFFFFEEE59A586A2 0x3FEFFE36868C3DFD) := by
  decide +kernel

/-- CC6: bq.cfgnotch i, 11025.0, -0.0, 44100 (al = -Inf). -/
theorem test_cfgnotch_CC6 :
    inst0 (exec (.cfgnotch 0 0x40C5888000000000 0x8000000000000000 44100) State.reset)
      = some (inst 0x8000000000000000 0x0000000000000000 0x8000000000000000 0x0000000000000000 0x7FF8000000000000) := by
  decide +kernel

/-- UD1 to UD8: each is outside its domain; fs = 96000 and fs = 8000 are inside. -/
theorem test_domains :
    domBP 0x40D5888000000000 one64 one64 44100 = false ∧ domN 0x40DD4C0000000000 one64 44100 = false ∧
    domBP posZero one64 one64 44100 = false ∧ domBP 0x408F400000000000 posInf one64 44100 = false ∧
    domN 0x408F400000000000 qnan 44100 = false ∧ domBP 0x408F400000000000 one64 one64 7999 = false ∧
    domN 0x408F400000000000 one64 96001 = false ∧ domBP 0x408F400000000000 one64 one64 0 = false ∧
    domN 0x408F400000000000 one64 96000 = true ∧ domN 0x408F400000000000 one64 8000 = true := by decide +kernel

/-! ## BQ.RESET, BQ.TICK (95_test_vectors.md §3) -/

/-- RS1: T1 with (w1, w2) = (1.375, 1.5). -/
theorem test_reset_RS1 :
    inst0 (exec (.reset 0) (start (t1 0x3FF6000000000000 0x3FF8000000000000) Inst.reset)) = some (t1 0 0) := by
  decide +kernel

/-- TK4, the read-before-write order: y = 0.5, w1 = 0.5, w2 = 1.0. -/
theorem test_tick_TK4 :
    (answer (exec (.tick 0 posZero) (start (t1 one64 posZero) Inst.reset)),
      inst0 (exec (.tick 0 posZero) (start (t1 one64 posZero) Inst.reset)))
      = (okResponse 0x04 [0x3FE0000000000000], some (t1 0x3FE0000000000000 one64)) := by decide +kernel

/-- TK11: negative zero kept: w = -0.0, y = +0.0, on instance 1. -/
theorem test_tick_TK11 :
    (match exec (.tick 1 negZero) (start Inst.reset (inst 0x3FE0000000000000 0 0 0x3FE0000000000000 0)) with
      | .next t => (t.tx, (t.getInst 1).w1, (t.getInst 1).w2)
      | _ => (none, 0, 0)) = (okResponse 0x04 [0x0000000000000000], 0x8000000000000000, 0x0000000000000000) := by
  decide +kernel

/-! ## BQ.STATUS (95_test_vectors.md §5) -/

/-- After configuring both instances and one reject of each kind: 0x0000001100030003. -/
theorem test_status_all_set :
    answer (exec .status { start (t1 0 0) (t1 0 0) with eIll := true, eNcfg := true })
      = okResponse 0x08 [0x0000001100030003] := by decide +kernel

/-- With NUM_INST = 1 and CONV_PRESENT = 0 after reset: 0x0000000000000000. -/
theorem test_status_other_build :
    statusWord { numInst := 1, convPresent := false } [false] false false = 0x0000000000000000 := by decide

/-! ## CV.* (95_test_vectors.md §4) -/

theorem test_dec8_C0 : answer (exec (.dec8 0xC0) State.reset) = okResponse 0x10 [0x3FE0000000000000] := by decide +kernel
theorem test_dec8_7F : answer (exec (.dec8 0x7F) State.reset) = okResponse 0x10 [0xBF80000000000000] := by decide +kernel
theorem test_dec16_1234 : answer (exec (.dec16 0x1234) State.reset) = okResponse 0x11 [0x3FC2340000000000] := by
  decide +kernel
theorem test_dec16_8001 : answer (exec (.dec16 0x8001) State.reset) = okResponse 0x11 [0xBFEFFFC000000000] := by
  decide +kernel
/-- The product rounds up to 1.0 before the truncation (R113). -/
theorem test_enc8_nearest_1_127 : answer (exec (.enc8 0x3F80204081020408) State.reset) = okResponse 0x12 [0x81] := by
  decide +kernel
theorem test_enc8_minus_half : answer (exec (.enc8 0xBFE0000000000000) State.reset) = okResponse 0x12 [0x41] := by
  decide +kernel
theorem test_enc16_nearest_1_32767 : answer (exec (.enc16 0x3F00002000400080) State.reset) = okResponse 0x13 [0x0001] := by
  decide +kernel
theorem test_enc16_minus_half : answer (exec (.enc16 0xBFE0000000000000) State.reset) = okResponse 0x13 [0xC001] := by
  decide +kernel

/-! ## Arithmetic and the trigonometric words (95_test_vectors.md §2, §3) -/

/-- TK8, TK10: overflow and underflow of single operations; R9: exact zero sums. -/
theorem test_arithmetic_corners :
    fadd 0x7FEFFFFFFFFFFFFF 0x7FDFFFFFFFFFFFFF = posInf ∧ fmul 0x3FE0000000000000 0x0000000000000001 = posZero ∧
    fsub negZero negZero = posZero ∧ fadd negZero negZero = negZero ∧ fdiv negOne64 posZero = negInf := by decide +kernel

/-- The intermediates of CF4: w0 = π/2, SIN64(w0) = 1.0, COS64(w0) = 0x3C91A62633145C07; and of CF8: the least argument. -/
theorem test_trig_words :
    sin64 0x3FF921FB54442D18 = 0x3FF0000000000000 ∧ cos64 0x3FF921FB54442D18 = 0x3C91A62633145C07 ∧
    sin64 0x3E0AFC6F70213BE4 = 0x3E0AFC6F70213BE4 ∧ cos64 0x3E0AFC6F70213BE4 = 0x3FF0000000000000 := by decide +kernel

/-! ## Host side: pseudo-instructions and assembler (R92 to R101) -/

/-- R95 to R97 and C6: the defaults. -/
theorem test_pseudo_defaults :
    bqBp 0 0x408F400000000000 44100 = .cfgbp 0 0x408F400000000000 0x3FF0000000000000 0x3FE6A09E667F3BCD 44100 ∧
    bqBpg 0 0x408F400000000000 two64 44100 = .cfgbp 0 0x408F400000000000 0x4000000000000000 0x3FE6A09E667F3BCD 44100 ∧
    bqNotch 1 0x408F400000000000 44100 = .cfgnotch 1 0x408F400000000000 0x3FE6A09E667F3BCD 44100 := ⟨rfl, rfl, rfl⟩

/-- P2, sample k = 1: code 0x4000 through the notch CF5 comes back as bytes AA 2A. -/
theorem test_pcm16_P2 :
    (bqPcm16 0 0x00 0x40 (start (inst 0x3FE5555555555555 0xBC978832EEC5D009 0x3FE5555555555555 0xBC978832EEC5D009
      0x3FD5555555555555) Inst.reset)).map Prod.snd = some (0xAA, 0x2A) := by decide +kernel

/-- P4, k = 0: code 0xFF through the band-pass CF4 comes back as 0xAA. -/
theorem test_pcm8_P4 :
    (bqPcm8 0 0xFF (start (inst 0x3FD5555555555555 0x0000000000000000 0xBFD5555555555555 0xBC978832EEC5D009
      0x3FD5555555555555) Inst.reset)).map Prod.snd = some 0xAA := by decide +kernel

/-- R92 to R94: a line with a comment and a result name; R93: the literal 0.70711. -/
theorem test_asm_cfgbp :
    Asm.line "  bq.cfgbp 0, 1000.0, 0.70711, #0x3FE6A09E667F3BCD, 44100 ; CF1".toList
      = some (.command (.one (.cfgbp 0 0x408F400000000000 0x3FE6A0A5269595FF 0x3FE6A09E667F3BCD 44100)) []) := by
  decide +kernel

theorem test_asm_tick : Asm.line "bq.tick 1, -0.0 -> y".toList
    = some (.command (.one (.tick 1 0x8000000000000000)) ["y".toList]) := by decide +kernel

/-- The points of a literal's form that R93 leaves open, as log 17 settles them. -/
theorem test_asm_literal_forms :
    Asm.f64 "1E3".toList = some 0x408F400000000000 ∧ Asm.f64 "+1e+3".toList = some 0x408F400000000000 ∧
    Asm.f64 "-5.0e-1".toList = some 0xBFE0000000000000 ∧ Asm.f64 "1e400".toList = some posInf ∧
    Asm.f64 ".5".toList = none ∧ Asm.f64 "1e".toList = none := by decide +kernel

theorem test_asm_dec16_bytes_in_file_order : Asm.line "cv.dec16 0x34, 0x12 -> x".toList
    = some (.command (.one (.dec16 0x1234)) ["x".toList]) := by decide +kernel

theorem test_asm_process2_needs_two_instances :
    Asm.line "bq.process2 0, 0, 1.0, inf".toList = none ∧
    Asm.line "bq.process2 0, 1, 1.0, inf".toList = some (.command (.process2 0 1 [(one64, posInf)]) []) := by
  decide +kernel

/-- R94: `cv.enc16 x -> lo, hi` names two bytes, here of the code 0xC001 of -0.5. -/
theorem test_enc16_names_two_bytes :
    ((HostCmd.one (.enc16 0xBFE0000000000000)).run State.reset).map Prod.snd = some [some 0x01, some 0xC0] := by
  decide +kernel

/-- R86, §5: the response to cv.dec8 0xFF travels as 00 10 01 00 and eight result bytes. -/
theorem test_response_bytes :
    (answer (exec (.dec8 0xFF) State.reset)).map Response.bytes
      = some [0x00, 0x10, 0x01, 0x00, 0x00, 0x00, 0x00, 0x00, 0x00, 0xC0, 0xEF, 0x3F] := by decide +kernel

/-! ## Witnesses: for each statement with hypotheses, a state and operands that meet them all -/

/-- Instance 0 configured with T1, instance 1 as after reset. -/
def half : State := start (t1 one64 posZero) Inst.reset

/-- Both instances configured. -/
def both : State := start (t1 one64 posZero) (t1 posZero one64)

/-- `half` is a stated start (R210 (b)), and so is the state after a hardware reset that came after three draws. -/
theorem witness_Start : half.Start ∧ ({ both with draws := 3, rst := true }.hardwareReset).Start :=
  ⟨.inr ⟨by decide +kernel, rfl, rfl, rfl, rfl, rfl, rfl, rfl⟩, .inl ⟨3, rfl⟩⟩

theorem half_inv : (half.hostSend [0x08, 0x00, 0x00, 0x00]).Inv :=
  { instances := by decide +kernel
    partialPacket := rfl
    pending := fun _ h => by simp [half, start, State.reset] at h
    answered := fun _ h => by simp [half, start, State.reset] at h
    onePerCommand := rfl }

/-- Log 18: instance 1 of `half` is not configured, so t[0] is a result, t[1] is none, and t[2] is the next tick's. -/
theorem test_process2_keeps_places :
    ((HostCmd.process2 0 1 [(one64, one64), (one64, one64)]).run half).map (fun p => p.2.map Option.isSome)
      = some [true, false, true, false] := by decide +kernel

theorem witness_StepKeepsInvariant :
    (half.hostSend [0x08, 0x00, 0x00, 0x00]).Inv ∧ ∃ t, step (half.hostSend [0x08, 0x00, 0x00, 0x00]) = .next t :=
  ⟨half_inv, _, rfl⟩

theorem witness_HardwareResetRestoresReset : both.assertReset.rst = true := rfl

theorem witness_CfgdSetOnlyByConfigure :
    (∃ t, exec (.reset 0) half = .next t) ∧ (half.getInst 0).cfgd = true ∧
    ∃ t, exec (.cfgbp 1 0 0 0 0) half = .next t ∧ (Instr.cfgbp 1 0 0 0 0).selects = some (BitVec.ofNat 4 (1 : Fin 2)) :=
  ⟨⟨_, rfl⟩, rfl, _, rfl, rfl⟩

theorem witness_StickyBitsFollowRejects :
    (half.withFetchWord 32 0x05).rst = false ∧ ∃ t, step (half.withFetchWord 32 0x05) = .next t := ⟨rfl, _, rfl⟩

theorem witness_UndefMarksOutOfDomainConfigures :
    (∃ t, exec (.cfgbp 1 0 0 0 0) half = .next t) ∧ domBP 0 0 0 0 = false ∧ domN 0 0 0 = false :=
  ⟨⟨_, rfl⟩, by decide +kernel, by decide +kernel⟩

theorem witness_OnlySelectedInstanceWritten :
    (∃ t, exec (.tick 0 one64) half = .next t) ∧ (Instr.tick 0 one64).selects ≠ some (BitVec.ofNat 4 (1 : Fin 2)) :=
  ⟨⟨_, rfl⟩, by decide⟩

theorem witness_SelectedInstanceIsolated :
    (Instr.tick 0 one64).selects = some (BitVec.ofNat 4 (0 : Fin 2)) ∧ half.getInst 0 = both.getInst 0 ∧
    half.draws = both.draws ∧ (∃ t, exec (.tick 0 one64) half = .next t) ∧ ∃ t, exec (.tick 0 one64) both = .next t :=
  ⟨rfl, rfl, rfl, ⟨_, rfl⟩, _, rfl⟩

/-- The shortest and the longest packet: NOPS = 0 and NOPS = 15. -/
theorem witness_PacketEndFromNopsAlone :
    (∃ p rest, frame [0x08, 0x00, 0x00, 0x00] = some (p, rest)) ∧
    (∃ p rest, frame ([0xFF, 0xF0, 0x00, 0x00] ++ List.replicate 120 0) = some (p, rest)) ∧
    frame ([0xFF, 0xF0, 0x00, 0x00] ++ List.replicate 119 0) = none ∧ ([0x08, 0x00, 0x00] : List Byte).length < 4 :=
  ⟨⟨_, _, rfl⟩, ⟨_, _, rfl⟩, rfl, by decide⟩

theorem witness_DecodeOfEncode : (Instr.tick 1 one64).wf Config.build = true := rfl

theorem witness_EncodeOfDecode :
    ∃ i rest, decode Config.build [0x03, 0x01, 0x00, 0x00, 0x08] = .ok (i, rest) := ⟨_, _, rfl⟩

theorem witness_StepRunsDecodedInstruction :
    (half.withStream (encode (.reset 1) ++ [0x08])).rst = false ∧ (Instr.reset 1).wf Config.build = true ∧
    (half.withStream (encode (.reset 1) ++ [0x08])).rx ++ (half.withStream (encode (.reset 1) ++ [0x08])).held
      = encode (.reset 1) ++ [0x08] := ⟨rfl, rfl, rfl⟩

/-- One ill-formed packet for each cause the build can show (R181 (a), (b), (d), (e), (f), (g)), framed from the stream. -/
theorem witness_IllFormedPacketAnsweredIllegal :
    (∀ w ∈ [0x00010004, 0x00000005, 0x00000004, 0x00000108, 0x00000203],
      (half.withFetchWord 32 w).rst = false ∧
      ∃ p rest, frame ((half.withFetchWord 32 w).rx ++ (half.withFetchWord 32 w).held) = some (p, rest) ∧
        PacketIllFormed Config.build p) ∧
    PacketIllFormed Config.build { header := 0x00001010, ops := [0x100] } ∧
    PacketIllFormed { numInst := 2, convPresent := false } { header := 0x00001010, ops := [0] } := by
  refine ⟨?_, ?_, ?_⟩
  · intro w hw
    simp only [List.mem_cons, List.not_mem_nil, or_false] at hw
    obtain rfl | rfl | rfl | rfl | rfl := hw
    · exact ⟨rfl, _, _, rfl, .inl (by decide)⟩
    · exact ⟨rfl, _, _, rfl, .inr (.inl (by decide))⟩
    · exact ⟨rfl, _, _, rfl, .inr (.inr (.inr (.inr (.inr (.inr (.inl (by decide)))))))⟩
    · exact ⟨rfl, _, _, rfl, .inr (.inr (.inr (.inr (.inr (.inr (.inr (.inl (by decide))))))))⟩
    · exact ⟨rfl, _, _, rfl, .inr (.inr (.inr (.inr (.inr (.inr (.inr (.inr (.inl (by decide)))))))))⟩
  · exact .inr (.inr (.inr (.inr (.inr (.inr (.inr (.inr (.inr (.inr (.inr (.inl ⟨by decide, _, rfl, by decide⟩)))))))))))
  · exact .inr (.inr (.inl (by decide)))

theorem witness_OtherPacketsRunAnInstruction :
    half.rst = false ∧ frame [0x08, 0x00, 0x00, 0x00] = some ({ header := 0x00000008, ops := [] }, []) ∧
    ¬ PacketIllFormed Config.build { header := 0x00000008, ops := [] } := by
  refine ⟨rfl, rfl, ?_⟩
  simp [PacketIllFormed, headerRsv, headerOpc, headerNops, headerInst]

/-- A well-formed tick of the unconfigured instance 1, and an ill-formed one (INST = 2). -/
theorem witness_NotcfgAnswersOnlyWellFormedTicks :
    (∃ p rest, frame (packetBytes 0x00001104) = some (p, rest) ∧ ¬ PacketIllFormed Config.build p ∧
      headerOpc p.header = 0x04 ∧ (half.getInst 1).cfgd = false ∧ ∃ t, step (half.withFetchWord 32 0x00001104) = .next t) ∧
    (∃ p rest, frame (packetBytes 0x00001204) = some (p, rest) ∧ PacketIllFormed Config.build p ∧
      ∃ t, step (half.withFetchWord 32 0x00001204) = .next t) := by
  refine ⟨⟨_, _, rfl, ?_, rfl, rfl, _, rfl⟩, ⟨_, _, rfl, ?_, _, rfl⟩⟩
  · simp only [PacketIllFormed]; decide
  · exact .inr (.inr (.inr (.inr (.inr (.inr (.inr (.inr (.inl (by decide)))))))))

/-- Idle, stuck on a partial packet, receiving one, and with a response to send and no byte waiting. -/
theorem witness_StepOutcomes :
    step half = .fault .idle ∧ step { half with rx := [0x08] } = .fault .packetIncomplete ∧
    (half.hostSend [0x08]).rst = false ∧ frame ((half.hostSend [0x08]).rx ++ (half.hostSend [0x08]).held) = none ∧
    (half.hostSend [0x08]).held ≠ [] ∧
    (∃ t, step (half.hostSend (encode .status)) = .next t ∧ t.rst = false ∧ frame (t.rx ++ t.held) = none ∧ t.tx ≠ none) :=
  ⟨rfl, rfl, rfl, rfl, by decide, _, rfl, rfl, rfl, nofun⟩

theorem witness_MissingInstanceIsRejected :
    (Instr.reset 2).selects = some 2 ∧ Config.numInst ≤ (2 : InstNum).toNat := ⟨rfl, by decide⟩

theorem witness_ResponseWordFields :
    ({ rc := .ok, opc := 0x04, results := List.replicate 15 0 } : Response).results.length < 16 := by decide

theorem witness_CommandsButTickAreIdempotent :
    (Instr.reset 0).op ≠ .tick ∧ (Instr.reset 0).inDomain = true ∧
    ∃ t u, exec (.reset 0) half = .next t ∧ exec (.reset 0) t = .next u := ⟨by decide, rfl, _, _, rfl, rfl⟩

/-- A literal with every part, and the shortest one; the least overflowing power of ten and one below it. -/
theorem witness_DecimalLiteralNearest :
    ({ sign := some true, whole := [1, 2], fraction := some [0, 5], exponent := some (true, some false, [3]) }
      : Asm.DecimalLiteral).wf = true ∧
    ({ sign := none, whole := [0], fraction := none, exponent := none } : Asm.DecimalLiteral).wf = true ∧
    isFinite one64 = true ∧ isFinite (Asm.decimalToF64 true 1 (308 : Nat)) = true ∧
    isFinite (Asm.decimalToF64 true 1 (309 : Nat)) = false ∧
    isFinite (Asm.decimalToF64 false 3 (-((1 : Nat) : Int))) = true := by decide +kernel

theorem witness_CodecChains : (0 : InstNum).toNat < Config.numInst ∧ half.Ready ∧ (half.getInst 0).cfgd = true :=
  ⟨by decide, ⟨rfl, rfl, rfl⟩, rfl⟩

theorem witness_InterleavedStreamIsTwoChannels :
    (0 : InstNum).toNat < Config.numInst ∧ (1 : InstNum).toNat < Config.numInst ∧ (0 : InstNum) ≠ 1 ∧ both.Ready ∧
    (both.getInst 0).cfgd = true ∧ (both.getInst 1).cfgd = true :=
  ⟨by decide, by decide, by decide, ⟨rfl, rfl, rfl⟩, rfl, rfl⟩

/-- Each clause at the edge of its range: a NaN, the words just above 1 and just below -1, and ±1 themselves. -/
theorem witness_ClampCases :
    isNaN qnan = true ∧
    (isNaN 0x3FF0000000000001 = false ∧ (unit : Int) < sunits 0x3FF0000000000001) ∧
    (isNaN 0xBFF0000000000001 = false ∧ sunits 0xBFF0000000000001 < -(unit : Int)) ∧
    (isNaN one64 = false ∧ -(unit : Int) ≤ sunits one64 ∧ sunits one64 ≤ unit) ∧
    (isNaN negOne64 = false ∧ -(unit : Int) ≤ sunits negOne64 ∧ sunits negOne64 ≤ unit) := by decide +kernel

theorem witness_EncoderCornerCodes :
    isNaN qnan = true ∧ isZero negZero = true ∧ (isNaN one64 = false ∧ (unit : Int) ≤ sunits one64) ∧
    (isNaN negOne64 = false ∧ sunits negOne64 ≤ -(unit : Int)) := by decide +kernel

theorem witness_RoundTripErrorBound :
    (isNaN 0x3FEFFFC000000000 = false ∧ |sunits 0x3FEFFFC000000000| ≤ unit) ∧
    (isNaN negOne64 = false ∧ |sunits negOne64| ≤ unit) := by decide +kernel

/-- CF1's parameters. -/
theorem witness_CfgbpWritesBandPass :
    (1 : InstNum).toNat < Config.numInst ∧
    domBP 0x408F400000000000 0x3FE6A0A5269595FF 0x3FE6A0A5269595FF 44100 = true := by decide +kernel

theorem witness_CfgnotchWritesNotch :
    (1 : InstNum).toNat < Config.numInst ∧ domN 0x408F400000000000 defaultQ 44100 = true := by decide +kernel

/-- UD1, at Nyquist, for both commands. -/
theorem witness_OutOfDomainConfigureDraws :
    (0 : InstNum).toNat < Config.numInst ∧ domBP 0x40D5888000000000 one64 one64 44100 = false ∧
    domN 0x40D5888000000000 one64 44100 = false := by decide +kernel

theorem witness_ConfiguringIsConstructing :
    (Instr.cfgnotch 1 0 0 0).op = .cfgnotch ∧ (Instr.cfgbp 0 0 0 0 0).op = .cfgbp ∧
    (Instr.cfgnotch 1 0 0 0).selects = some (BitVec.ofNat 4 (1 : Fin 2)) := ⟨rfl, rfl, rfl⟩

/-- a0 > 0 (q = 1), a0 < 0 (q = -0.0) and a0 = +0.0 (q = -0.5), all in the domain; b0 is no NaN in the first. -/
theorem witness_CoefficientIdentities :
    (domBP 0x40C5888000000000 one64 one64 44100 = true ∧ isNaN (derive 0x40C5888000000000 one64 44100).a0 = false ∧
      0 < sunits (derive 0x40C5888000000000 one64 44100).a0 ∧ isNaN (bandPass 0x40C5888000000000 one64 one64 44100).b0 = false) ∧
    (domBP 0x40C5888000000000 one64 negZero 44100 = true ∧ isNaN (derive 0x40C5888000000000 negZero 44100).a0 = false ∧
      sunits (derive 0x40C5888000000000 negZero 44100).a0 < 0) ∧
    (domBP 0x40C5888000000000 one64 0xBFE0000000000000 44100 = true ∧
      isZero (derive 0x40C5888000000000 0xBFE0000000000000 44100).a0 = true) := by decide +kernel

theorem witness_ResetZeroesDelayRegisters : (1 : InstNum).toNat < Config.numInst := by decide

theorem witness_TickAdvancesRecurrence :
    (0 : InstNum).toNat < Config.numInst ∧ half.getInst 0
      = { cfgd := true, b0 := some 0x3FE0000000000000, b1 := some 0x3FD0000000000000, b2 := some 0xBFE0000000000000,
          a1 := some 0xBFE0000000000000, a2 := some 0x3FD0000000000000, w1 := one64, w2 := posZero } := ⟨by decide, rfl⟩

theorem witness_TickUnconfiguredIsRejected :
    (1 : InstNum).toNat < Config.numInst ∧ (half.getInst 1).cfgd = false := ⟨by decide, rfl⟩

theorem witness_ProcessBufferIsRepeatedTick :
    (0 : InstNum).toNat < Config.numInst ∧ half.Ready ∧ (half.getInst 0).cfgd = true := ⟨by decide, ⟨rfl, rfl, rfl⟩, rfl⟩

/-- A NaN in a delay register, and one in a coefficient. -/
theorem witness_NanPersists :
    (t1 qnan posZero).cfgd = true ∧ (t1 qnan posZero).poisoned = true ∧
    (inst qnan 0 0 0 0).cfgd = true ∧ (inst qnan 0 0 0 0).poisoned = true := by decide +kernel

theorem witness_InterleavedTicksAreIndependent :
    both.Ready ∧ ∀ p ∈ [((0 : InstNum), one64), (1, posZero), (0, posZero)], p.1.toNat < Config.numInst :=
  ⟨⟨rfl, rfl, rfl⟩, by simp⟩

theorem witness_ZeroInputStaysZero :
    (0 : InstNum).toNat < Config.numInst ∧ (start (inst one64 one64 one64 one64 one64) Inst.reset).getInst 0
      = { cfgd := true, b0 := some one64, b1 := some one64, b2 := some one64, a1 := some one64, a2 := some one64,
          w1 := 0x0000000000000000, w2 := 0x0000000000000000 } ∧ isFinite one64 = true ∧ isZero negZero = true :=
  ⟨by decide, rfl, by decide +kernel, by decide +kernel⟩

theorem witness_HostProgramRunsInOrder :
    half.Ready ∧ ∀ i ∈ [Instr.status, .tick 1 one64, .enc8 one64], i.wf Config.build = true :=
  ⟨⟨rfl, rfl, rfl⟩, by decide⟩

/-- Finite sums that stay finite, overflow, and vanish; a difference that vanishes; a NaN and a word that is none. -/
theorem witness_SumCorrectlyRounded :
    isFinite one64 = true ∧ isFinite 0x7FEFFFFFFFFFFFFF = true ∧ isFinite (fadd one64 one64) = true ∧
    isFinite (fadd 0x7FEFFFFFFFFFFFFF 0x7FEFFFFFFFFFFFFF) = false ∧ sunits one64 + sunits negOne64 = 0 ∧
    isFinite (fsub one64 two64) = true ∧ isFinite (fsub 0x7FEFFFFFFFFFFFFF 0xFFEFFFFFFFFFFFFF) = false ∧
    sunits negZero - sunits posZero = 0 ∧ isNaN qnan = true ∧ isNaN negOne64 = false := by
  decide +kernel

theorem witness_ProductCorrectlyRounded :
    isFinite one64 = true ∧ isFinite 0x7FEFFFFFFFFFFFFF = true ∧ isFinite (fmul one64 one64) = true ∧
    isFinite (fmul 0x7FEFFFFFFFFFFFFF two64) = false := by decide +kernel

theorem witness_QuotientCorrectlyRounded :
    isFinite one64 = true ∧ isFinite 1 = true ∧ isZero 1 = false ∧ isFinite (fdiv one64 two64) = true ∧
    isFinite (fdiv one64 1) = false := by decide +kernel

theorem witness_SpecialOperands :
    isNaN qnan = true ∧ (isNaN (fsub posInf posInf) = true ∧ isNaN (fmul posInf posZero) = true ∧
      isNaN (fdiv posZero posZero) = true ∧ isNaN (fadd posInf negInf) = true) ∧
    (isInf posInf = true ∧ isInf negInf = true ∧ signBit posInf ≠ signBit negInf) ∧ isZero negZero = true ∧
    (isNaN posInf = false ∧ isZero posInf = false) ∧ (isNaN negOne64 = false ∧ isZero negOne64 = false) ∧
    isFinite one64 = true ∧ isFinite negZero = true := by decide +kernel

theorem witness_ComparisonAndTruncation :
    isNaN qnan = true ∧ isFinite negZero = true ∧ isFinite 0x7FEFFFFFFFFFFFFF = true := by decide +kernel

theorem witness_IntegerConversionsExact : |(2 ^ 53 - 1 : Int)| < 2 ^ 53 ∧ |(-(2 ^ 53 - 1) : Int)| < 2 ^ 53 := by decide +kernel

theorem witness_PiConstants : isFinite 0x400921FB54442D19 = true := by decide +kernel

/-- SIN64 and COS64 are decided at the arguments of CF4 and CF8. -/
theorem witness_SineCorrectlyRounded :
    isFinite 0x3FF921FB54442D18 = true ∧ sinDecided (units 0x3FF921FB54442D18) ≠ none ∧
    sinDecided (units 0x3E0AFC6F70213BE4) ≠ none ∧ isZero negZero = true := by decide +kernel

theorem witness_CosineCorrectlyRounded :
    isFinite 0x3FF921FB54442D18 = true ∧ cosDecided (units 0x3FF921FB54442D18) ≠ none ∧
    cosDecided (units 0x3E0AFC6F70213BE4) ≠ none := by decide +kernel

end Sys2Proof.Machine.Test
end

section
/-! PROOF. The arithmetic of 00_scope.md (O52 to O60): each primitive is its exact value rounded once, and a value that two
ratios enclose is rounded as they are when they round to one word. -/

namespace Sys2Proof.Machine

/-! ## Rounded once (R9) -/

/-- A signed ratio, packed, is the ratio rounded once. -/
theorem roundRatio_roundsTo (num : Int) {den : Nat} (hden : 0 < den) : RoundsTo (roundRatio num den) num den := by
  have h := pack_roundsTo (decide (num < 0)) num.natAbs den hden
  rwa [sgn_natAbs] at h

theorem sunits_of_isZero {a : Bits64} (h : isZero a = true) : sunits a = 0 := by
  rw [sunits_eq, (units_eq_zero_iff a).mpr h, Nat.cast_zero, mul_zero]

/-- Either signed zero is the value 0 rounded, because its fraction is even. -/
theorem roundsTo_zero {r : Bits64} (hr : isZero r = true) {den : Nat} (hden : 0 < den) : RoundsTo r 0 den := by
  have hfin : isFinite r = true := (zero_class hr).2.2
  have hfrac : fracField r = 0 := by simp [fracField_eq, (isZero_iff r).mp hr]
  have hpos : (0 : Int) < overflowUnits * den := by exact_mod_cast Nat.mul_pos overflowUnits_pos hden
  refine ⟨by simp [hfin, hpos], by simp [hfin], fun _ c _ => ⟨?_, fun _ _ => by simp [hfrac]⟩⟩
  rw [sunits_of_isZero hr, zero_mul, sub_zero, abs_zero]
  exact abs_nonneg _

/-! ## Sum and difference -/

theorem faddFinite_of_sum_zero {a b : Bits64} (h : sunits a + sunits b = 0) :
    faddFinite a b = if signBit a && signBit b then negZero else posZero := by
  rw [faddFinite, if_pos h]

theorem faddFinite_roundsTo (a b : Bits64) : RoundsTo (faddFinite a b) (sunits a + sunits b) 1 := by
  by_cases h : sunits a + sunits b = 0
  · rw [faddFinite_of_sum_zero h, h]
    exact roundsTo_zero (by split <;> decide) Nat.one_pos
  · rw [faddFinite, if_neg h]
    exact roundRatio_roundsTo _ Nat.one_pos

theorem isFinite_fneg {a : Bits64} (h : isFinite a = true) : isFinite (fneg a) = true :=
  (fneg_pred (not_nan_of_finite h).1).2.2.2.trans h

/-- The difference of finite words is the sum with the sign of the second flipped. -/
theorem fsub_finite {a b : Bits64} (ha : isFinite a = true) (hb : isFinite b = true) :
    fsub a b = faddFinite a (fneg b) :=
  fadd_finite ha (isFinite_fneg hb)

/-- Settles O52: an exact zero apart, a sum is its exact value rounded once, and a difference is the sum with the sign of
the second word flipped. -/
theorem sumCorrectlyRounded : Obligations.SumCorrectlyRounded := by
  refine ⟨fun a b ha hb => ?_, fun _ => rfl⟩
  have hnan := (not_nan_of_finite hb).1
  have hneg : sunits a - sunits b = sunits a + sunits (fneg b) := by rw [fneg_sunits hnan, sub_eq_add_neg]
  rw [fadd_finite ha hb, fsub_finite ha hb, hneg, ← fneg_sign hnan]
  exact ⟨faddFinite_roundsTo a b, faddFinite_of_sum_zero, faddFinite_roundsTo a (fneg b), faddFinite_of_sum_zero⟩

/-! ## Product and quotient -/

/-- Settles O53: the product of the magnitudes is rounded once, under the sign the two words give. -/
theorem productCorrectlyRounded : Obligations.ProductCorrectlyRounded := by
  intro a b ha hb
  have hval : sgn (signBit a != signBit b) * (units a * units b : Nat) = sunits a * sunits b := by
    rw [sgn_xor, sunits_eq a, sunits_eq b]; push_cast; ring
  obtain ⟨hfin, -, hnear⟩ := pack_roundsTo (signBit a != signBit b) (units a * units b) unit unit_pos
  rw [hval] at hfin hnear
  rw [fmul_finite ha hb]
  exact ⟨hfin, isInf_pack, signBit_pack _ (roundMag_lt _ _), hnear⟩

/-- Scaling the exact quotient by the signed divisor, or by its magnitude with the sign moved to the dividend, gives one
distance. -/
theorem quotient_distance (a b : Bits64) (x : Int) :
    |x * sunits b - sunits a * unit| = |x * units b - sgn (signBit a != signBit b) * (units a * unit : Nat)| := by
  have hfactor : x * sunits b - sunits a * unit
      = sgn (signBit b) * (x * units b - sgn (signBit a != signBit b) * (units a * unit : Nat)) := by
    rw [sgn_xor, sunits_eq a, sunits_eq b]
    push_cast
    cases signBit b <;> simp only [sgn, if_true, Bool.false_eq_true, if_false] <;> ring
  rw [hfactor, abs_mul]
  cases signBit b <;> simp [sgn]

/-- Settles O54: the quotient of the magnitudes is rounded once, under the sign the two words give. -/
theorem quotientCorrectlyRounded : Obligations.QuotientCorrectlyRounded := by
  intro a b ha hb hz
  have hb0 : 0 < units b := Nat.pos_of_ne_zero fun h => by simp [(units_eq_zero_iff b).mp h] at hz
  rw [fdiv_finite ha hb hz]
  refine ⟨?_, isInf_pack, signBit_pack _ (roundMag_lt _ _), fun hfin c hc => ?_⟩
  · rw [pack_round_finite _ _ _ hb0, abs_sunits, abs_sunits]
    norm_cast
  · simp only [quotient_distance]
    exact pack_round_nearest _ _ _ hb0 hfin c

/-! ## Special operands (R9) -/

/-- A sum that is a NaN is QNAN: the other answers are an operand that is no NaN, or a rounded sum. -/
theorem fadd_qnan_of_isNaN {a b : Bits64} (h : isNaN (fadd a b) = true) : fadd a b = qnan := by
  unfold fadd at h ⊢
  split_ifs at h ⊢ with hnan
  · rfl
  · rfl
  · simp [h] at hnan
  · simp [h] at hnan
  · simp [faddFinite_notnan] at h

/-- A product that is a NaN is QNAN: the other answers are infinities and rounded words. -/
theorem fmul_qnan_of_isNaN {a b : Bits64} (h : isNaN (fmul a b) = true) : fmul a b = qnan := by
  unfold fmul at h ⊢
  split_ifs at h ⊢
  · rfl
  · rfl
  · exact absurd h (by decide)
  · exact absurd h (by decide)
  · simp [pack_round_notnan] at h

/-- A quotient that is a NaN is QNAN: the other answers are infinities, zeros and rounded words. -/
theorem fdiv_qnan_of_isNaN {a b : Bits64} (h : isNaN (fdiv a b) = true) : fdiv a b = qnan := by
  unfold fdiv at h ⊢
  split_ifs at h ⊢
  · rfl
  · rfl
  · exact absurd h (by decide)
  · exact absurd h (by decide)
  · exact absurd h (by decide)
  · exact absurd h (by decide)
  · rfl
  · exact absurd h (by decide)
  · exact absurd h (by decide)
  · simp [pack_round_notnan] at h

/-- An infinity and a word that is neither zero nor NaN multiply to the infinity of the product's sign. -/
theorem fmul_inf {a b : Bits64} (ha : isInf a = true) (hb : isNaN b = false) (hz : isZero b = false) :
    fmul a b = if signBit a = signBit b then posInf else negInf := by
  simp [fmul, ha, hb, hz, inf_class ha]

theorem fmul_comm (a b : Bits64) : fmul a b = fmul b a := by
  simp only [fmul, Bool.or_comm (isNaN a), Bool.or_comm (isInf a), Bool.or_comm (isZero a), bne_comm (a := signBit a),
    Nat.mul_comm (units a)]

theorem fmul_inf_zero {a b : Bits64} (ha : isInf a = true) (hb : isZero b = true) : fmul a b = qnan := by
  simp [fmul, ha, hb, inf_class ha, zero_class hb]

theorem fdiv_inf_inf {a b : Bits64} (ha : isInf a = true) (hb : isInf b = true) : fdiv a b = qnan := by
  simp [fdiv, ha, hb, inf_class ha, inf_class hb]

theorem fdiv_inf_finite {a b : Bits64} (ha : isInf a = true) (hb : isFinite b = true) :
    fdiv a b = if signBit a = signBit b then posInf else negInf := by
  simp [fdiv, ha, inf_class ha, not_nan_of_finite hb]

theorem fdiv_finite_inf {a b : Bits64} (ha : isFinite a = true) (hb : isInf b = true) :
    fdiv a b = if signBit a = signBit b then posZero else negZero := by
  simp [fdiv, hb, inf_class hb, not_nan_of_finite ha]

theorem fdiv_zero_zero {a b : Bits64} (ha : isZero a = true) (hb : isZero b = true) : fdiv a b = qnan := by
  simp [fdiv, ha, hb, zero_class ha, zero_class hb]

/-- Division of a non-zero word, infinite or not, by a zero. -/
theorem fdiv_by_zero {a b : Bits64} (ha : isNaN a = false) (hz : isZero a = false) (hb : isZero b = true) :
    fdiv a b = if signBit a = signBit b then posInf else negInf := by
  simp [fdiv, ha, hz, hb, zero_class hb]

theorem fadd_inf_finite {a b : Bits64} (ha : isInf a = true) (hb : isFinite b = true) : fadd a b = a := by
  simp [fadd, ha, inf_class ha, not_nan_of_finite hb]

theorem fadd_finite_inf {a b : Bits64} (ha : isFinite a = true) (hb : isInf b = true) : fadd a b = b := by
  simp [fadd, hb, inf_class hb, not_nan_of_finite ha]

theorem fadd_inf_inf {a b : Bits64} (ha : isInf a = true) (hb : isInf b = true) :
    fadd a b = if signBit a = signBit b then a else qnan := by
  simp [fadd, ha, hb, inf_class ha, inf_class hb]

theorem fsub_inf_inf {a b : Bits64} (ha : isInf a = true) (hb : isInf b = true) :
    fsub a b = if signBit a = signBit b then qnan else a := by
  have hnan := (inf_class hb).1
  rw [fsub, fadd_inf_inf ha ((fneg_pred hnan).2.1.trans hb), fneg_sign hnan]
  cases signBit a <;> cases signBit b <;> rfl

/-- Settles O55, clause by clause from the equations above. -/
theorem specialOperands : Obligations.SpecialOperands := by
  refine ⟨fun a b h => ⟨fadd_nan h, fsub_nan h, fmul_nan h, fdiv_nan h⟩,
    fun a b => ⟨fadd_qnan_of_isNaN, fadd_qnan_of_isNaN, fmul_qnan_of_isNaN, fdiv_qnan_of_isNaN⟩,
    fun a b ha hb => ?infInf,
    fun a b ha hb => ⟨fmul_inf_zero ha hb, (fmul_comm b a).trans (fmul_inf_zero ha hb)⟩,
    fun a b ha hb hz => ⟨fmul_inf ha hb hz, (fmul_comm b a).trans (fmul_inf ha hb hz)⟩,
    fun a b ha hb => ⟨fdiv_inf_finite ha hb, ?finiteOverInf⟩,
    fun a b => fdiv_zero_zero,
    fun a b => fdiv_by_zero,
    fun a b ha hb => ?infFinite,
    fun a ha => ?selfDifference⟩
  case infInf =>
    rw [fdiv_inf_inf ha hb, fadd_inf_inf ha hb, fsub_inf_inf ha hb]
    exact ⟨rfl, fun hs => if_neg hs, fun hs => ⟨if_pos hs, if_pos hs⟩, fun hs => if_neg hs⟩
  case finiteOverInf =>
    simp only [fdiv_finite_inf hb ha, eq_comm (a := signBit b)]
    rfl
  case infFinite =>
    have hia := (inf_class ha).1
    have haneg : isInf (fneg a) = true := (fneg_pred hia).2.1.trans ha
    refine ⟨fadd_inf_finite ha hb, fadd_finite_inf hb ha, fadd_inf_finite ha (isFinite_fneg hb), ?_⟩
    rw [fsub, fadd_finite_inf hb haneg, fneg, hia]
    rfl
  case selfDifference =>
    have hnan := (not_nan_of_finite ha).1
    have hzero : sunits a + sunits (fneg a) = 0 := by rw [fneg_sunits hnan, add_neg_cancel]
    rw [fsub_finite ha ha, faddFinite_of_sum_zero hzero, fneg_sign hnan, Bool.and_not_self]
    rfl

/-! ## Comparison, truncation, conversion (R7, R10) -/

/-- Comparison of words that are no NaN compares their values, the infinities beyond every finite one. -/
theorem flt_iff {a b : Bits64} (ha : isNaN a = false) (hb : isNaN b = false) :
    flt a b = true ↔ sunits a < sunits b := by
  simp [flt, ha, hb]

theorem flt_nan {a b : Bits64} (h : isNaN a = true ∨ isNaN b = true) : flt a b = false := by
  rcases h with h | h <;> simp [flt, h]

/-- The value of an infinity lies beyond every finite one. -/
theorem abs_sunits_lt_inf {a : Bits64} (ha : isFinite a = true) : |sunits a| < sunits posInf := by
  have hinf : sunits posInf = magUnits infMag := sunits_pack false (m := infMag) (by decide)
  rw [abs_sunits, units_eq, hinf]
  exact_mod_cast magUnits_strictMono ((isFinite_iff a).mp ha)

theorem sunits_negInf : sunits negInf = -sunits posInf := fneg_sunits (a := posInf) (by decide)

theorem trunc_eq (v : Bits64) : trunc v = sgn (signBit v) * (units v / unit : Nat) := by
  unfold trunc; split <;> simp [*]

/-- Settles O56: comparison is that of the values, and the magnitude of a truncation is the quotient of the magnitude. -/
theorem comparisonAndTruncation : Obligations.ComparisonAndTruncation := by
  refine ⟨fun a b => flt_nan, fun a b ha hb => flt_iff (not_nan_of_finite ha).1 (not_nan_of_finite hb).1,
    fun a ha => ?infinities, by decide +kernel, by decide +kernel, fun v _ => ?truncation⟩
  case infinities =>
    have hnan := (not_nan_of_finite ha).1
    obtain ⟨hlo, hhi⟩ := abs_lt.mp (abs_sunits_lt_inf ha)
    rw [← sunits_negInf] at hlo
    refine ⟨(flt_iff hnan (by decide)).mpr hhi, ?_, (flt_iff (by decide) hnan).mpr hlo, ?_⟩
    · exact Bool.eq_false_iff.mpr fun h => hhi.not_gt ((flt_iff (by decide) hnan).mp h)
    · exact Bool.eq_false_iff.mpr fun h => hlo.not_gt ((flt_iff hnan (by decide)).mp h)
  case truncation =>
    have habs : |trunc v| = (units v / unit : Nat) := by
      rw [trunc_eq, abs_mul, Nat.abs_cast]; cases signBit v <;> simp [sgn]
    have hsign : trunc v * sunits v = (units v / unit * units v : Nat) := by
      rw [trunc_eq, sunits_eq]; cases signBit v <;> simp [sgn]
    rw [habs, abs_sunits, hsign]
    refine ⟨by exact_mod_cast Nat.div_mul_le_self _ _, ?_, Int.natCast_nonneg _⟩
    exact_mod_cast Nat.lt_mul_of_div_lt (Nat.lt_succ_self (units v / unit)) unit_pos

/-- An integer of fewer than 54 bits is a finite word. -/
theorem intToF64_exact {n : Int} (hn : |n| < 2 ^ 53) :
    isFinite (intToF64 n) = true ∧ sunits (intToF64 n) = n * unit := by
  obtain ⟨s, hs, hu⟩ := unit_eq
  have hk : n.natAbs < 2 ^ 53 := by rw [Int.abs_eq_natAbs] at hn; omega
  have hmag : n.natAbs * 2 ^ s * 1 = (n * unit).natAbs := by
    rw [Int.natAbs_mul, Int.natAbs_natCast, mul_one, ← hu]
  obtain ⟨hfin, hval, -, -⟩ := pack_repr (decide (n * unit < 0)) Nat.one_pos hk (by omega) hmag
  refine ⟨hfin, hval.trans ?_⟩
  rw [← mul_one (n.natAbs * 2 ^ s), hmag, sgn_natAbs]

/-- Settles O57: the magnitude is its own significand, and an unsigned word of 32 bits lies in the range. -/
theorem integerConversionsExact : Obligations.IntegerConversionsExact := by
  refine ⟨fun n => intToF64_exact, fun n => intToF64_exact ?_⟩
  have := n.isLt
  rw [Nat.abs_cast]
  omega

/-! ## Nearest to a real value that two ratios enclose (R6, R11) -/

/-- The word is finite, and no finite word lies nearer to the real value. -/
def IsNearest (r : Bits64) (y : ℝ) : Prop :=
  isFinite r = true ∧ ∀ c : Bits64, isFinite c = true →
    |(sunits r : ℝ) / (unit : ℝ) - y| ≤ |(sunits c : ℝ) / (unit : ℝ) - y|

/-- A point no farther than another from both ends of an interval is no farther from all between. -/
theorem abs_sub_le_of_between {r c lo hi z : ℝ} (hlo : |r - lo| ≤ |c - lo|) (hhi : |r - hi| ≤ |c - hi|)
    (h1 : lo ≤ z) (h2 : z ≤ hi) : |r - z| ≤ |c - z| := by
  rw [← sq_le_sq] at hlo hhi ⊢
  rcases le_total c r with h | h
  · nlinarith [mul_nonneg (sub_nonneg.mpr h) (sub_nonneg.mpr h1)]
  · nlinarith [mul_nonneg (sub_nonneg.mpr h) (sub_nonneg.mpr h2)]

theorem abs_sub_div {d : ℝ} (hd : 0 < d) (x n : ℝ) : |x - n / d| = |x * d - n| / d := by
  rw [← abs_of_pos hd, ← abs_div, abs_of_pos hd, sub_div, mul_div_cancel_right₀ _ hd.ne']

/-- What rounding to nearest says of the ratio as a real number. -/
theorem RoundsTo.real_nearest {r c : Bits64} {num : Int} {den : Nat} (h : RoundsTo r num den) (hden : 0 < den)
    (hr : isFinite r = true) (hc : isFinite c = true) :
    |(sunits r : ℝ) - num / den| ≤ |(sunits c : ℝ) - num / den| := by
  have hd : (0 : ℝ) < den := by exact_mod_cast hden
  rw [abs_sub_div hd, abs_sub_div hd]
  apply div_le_div_of_nonneg_right _ hd.le
  exact_mod_cast (h.2.2 hr c hc).1

/-- A rounded ratio that is not finite is beyond every finite word, on the side its sign says. -/
theorem RoundsTo.overflow {r : Bits64} {num : Int} {den : Nat} (h : RoundsTo r num den) (hden : 0 < den)
    (hr : isFinite r = false) :
    (r = negInf ∧ (num : ℝ) / den ≤ -overflowUnits) ∨ (r = posInf ∧ (overflowUnits : ℝ) ≤ num / den) := by
  have hd : (0 : ℝ) < den := by exact_mod_cast hden
  obtain ⟨hfin, hinf, -⟩ := h
  have hbig : (overflowUnits * den : Int) ≤ |num| := not_lt.mp fun hlt => by simp [hfin.mpr hlt] at hr
  rw [hinf hr, div_le_iff₀ hd, le_div_iff₀ hd]
  by_cases hneg : num < 0
  · rw [abs_of_neg hneg] at hbig
    exact .inl ⟨if_pos hneg, by rw [neg_mul]; exact_mod_cast le_neg_of_le_neg hbig⟩
  · rw [abs_of_nonneg (not_lt.mp hneg)] at hbig
    exact .inr ⟨if_neg hneg, by exact_mod_cast hbig⟩

/-- One word that rounds both ends of an interval around a value below the overflow bound is finite: its sign would put
one of the ends beyond the value. -/
theorem isFinite_of_enclosure {r : Bits64} {z : ℝ} {n1 n2 : Int} {d1 d2 : Nat} (hd1 : 0 < d1) (hd2 : 0 < d2)
    (r1 : RoundsTo r n1 d1) (r2 : RoundsTo r n2 d2) (hlo : (n1 : ℝ) / d1 ≤ z) (hhi : z ≤ (n2 : ℝ) / d2)
    (hz : |z| < overflowUnits) : isFinite r = true := by
  obtain ⟨hz1, hz2⟩ := abs_lt.mp hz
  by_contra h
  rw [Bool.not_eq_true] at h
  rcases r1.overflow hd1 h with ⟨hneg, -⟩ | ⟨-, hbig⟩
  · rcases r2.overflow hd2 h with ⟨-, hbig⟩ | ⟨hpos, -⟩
    · linarith
    · exact absurd (hneg.symm.trans hpos) (by decide)
  · linarith

theorem four_units_lt_overflow : 4 * unit < overflowUnits := by decide +kernel

/-- Two ratios that enclose a value and round to one word round the value: the word is nearest to both ends. -/
theorem isNearest_of_enclosure {y : ℝ} {n1 n2 : Int} {d1 d2 : Nat} (hd1 : 0 < d1) (hd2 : 0 < d2)
    (hsame : roundRatio n1 d1 = roundRatio n2 d2) (hlo : (n1 : ℝ) / d1 ≤ unit * y) (hhi : unit * y ≤ (n2 : ℝ) / d2)
    (hy : |y| ≤ 4) : IsNearest (roundRatio n2 d2) y := by
  have hu : (0 : ℝ) < unit := by exact_mod_cast unit_pos
  have hov : (4 * unit : ℝ) < overflowUnits := by exact_mod_cast four_units_lt_overflow
  have hz : |unit * y| < overflowUnits := by
    rw [abs_mul, abs_of_pos hu]
    nlinarith
  have r1 := hsame ▸ roundRatio_roundsTo n1 hd1
  have r2 := roundRatio_roundsTo n2 hd2
  have hfin := isFinite_of_enclosure hd1 hd2 r1 r2 hlo hhi hz
  refine ⟨hfin, fun c hc => ?_⟩
  have hscale : ∀ x : ℝ, |x / unit - y| = |x - unit * y| / unit := fun x => by
    rw [abs_sub_comm, abs_sub_div hu, abs_sub_comm, mul_comm y]
  rw [hscale, hscale]
  exact div_le_div_of_nonneg_right
    (abs_sub_le_of_between (r1.real_nearest hd1 hfin hc) (r2.real_nearest hd2 hfin hc) hlo hhi) hu.le

/-! ## The constants (R11) -/

/-- π cut after 20 decimals, and the next decimal up, both round to PI64. -/
theorem pi_bounds_round :
    roundRatio (314159265358979323846 * unit) (10 ^ 20) = Config.pi64 ∧
    roundRatio (314159265358979323847 * unit) (10 ^ 20) = Config.pi64 := by decide +kernel

theorem pi64_isNearest : IsNearest Config.pi64 Real.pi := by
  have hu : (0 : ℝ) < unit := by exact_mod_cast unit_pos
  have hgt := Real.pi_gt_d20
  have hlt := Real.pi_lt_d20
  obtain ⟨hl, hh⟩ := pi_bounds_round
  rw [← hh]
  refine isNearest_of_enclosure (by norm_num) (by norm_num) (hl.trans hh.symm) ?_ ?_ ?_
  · push_cast
    nlinarith
  · push_cast
    nlinarith
  · rw [abs_of_pos Real.pi_pos]
    exact Real.pi_le_four

/-- Settles O58: π lies between two decimals that both round to PI64; the doubling is computed. -/
theorem piConstants : Obligations.PiConstants :=
  ⟨rfl, pi64_isNearest.2, rfl, by decide +kernel, by decide +kernel⟩

/-! ## Sine and cosine (R6, R11, D7) -/

theorem sinDecided_isNearest {n : Nat} {r : Bits64} (h : sinDecided n = some r) :
    IsNearest r (Real.sin ((n : ℝ) / unit)) := by
  unfold sinDecided at h
  split_ifs at h with hsame
  obtain rfl := Option.some.inj h
  obtain ⟨hlo, hhi⟩ := sinSum_encloses n
  exact isNearest_of_enclosure (sinSum_den_pos (trigTerms + 1) n) (sinSum_den_pos trigTerms n) hsame hlo hhi
    ((Real.abs_sin_le_one _).trans (by norm_num))

theorem cosDecided_isNearest {n : Nat} {r : Bits64} (h : cosDecided n = some r) :
    IsNearest r (Real.cos ((n : ℝ) / unit)) := by
  unfold cosDecided at h
  split_ifs at h with hsame
  obtain rfl := Option.some.inj h
  obtain ⟨hlo, hhi⟩ := cosSum_encloses n
  exact isNearest_of_enclosure (cosSum_den_pos (trigTerms + 1) n) (cosSum_den_pos trigTerms n) hsame hlo hhi
    ((Real.abs_cos_le_one _).trans (by norm_num))

/-- Flipping the sign of a word mirrors its distances. -/
theorem fneg_distance {a : Bits64} (ha : isFinite a = true) (y : ℝ) :
    |(sunits (fneg a) : ℝ) / unit - y| = |(sunits a : ℝ) / unit - -y| := by
  rw [fneg_sunits (not_nan_of_finite ha).1, Int.cast_neg, neg_div, ← neg_add', abs_neg, sub_neg_eq_add]

/-- The nearest word of the opposite value is the word with its sign flipped. -/
theorem IsNearest.neg {r : Bits64} {y : ℝ} (h : IsNearest r y) : IsNearest (fneg r) (-y) := by
  obtain ⟨hfin, hnear⟩ := h
  refine ⟨isFinite_fneg hfin, fun c hc => ?_⟩
  rw [fneg_distance hfin, neg_neg, ← fneg_distance hc]
  exact hnear _ (isFinite_fneg hc)

theorem sunits_cast (v : Bits64) :
    (sunits v : ℝ) / unit = if signBit v then -((units v : ℝ) / unit) else (units v : ℝ) / unit := by
  unfold sunits; split <;> push_cast <;> ring

theorem isNearest_zero {v : Bits64} (h : isZero v = true) : IsNearest v 0 := by
  refine ⟨(zero_class h).2.2, fun c _ => ?_⟩
  simp [sunits_of_isZero h]

theorem sin64_isNearest {v : Bits64} (hfin : isFinite v = true)
    (hdec : isZero v = true ∨ sinDecided (units v) ≠ none) :
    IsNearest (sin64 v) (Real.sin ((sunits v : ℝ) / unit)) := by
  by_cases hz : isZero v = true
  · have hsin : sin64 v = v := by simp [sin64, hfin, hz]
    rw [hsin, sunits_of_isZero hz, Int.cast_zero, zero_div, Real.sin_zero]
    exact isNearest_zero hz
  obtain ⟨r, hr⟩ := Option.ne_none_iff_exists'.mp (hdec.resolve_left hz)
  have hnear := sinDecided_isNearest hr
  have hsin : sin64 v = if signBit v then fneg r else r := by simp [sin64, hfin, hz, hr]
  rw [hsin, sunits_cast]
  split
  · rw [Real.sin_neg]
    exact hnear.neg
  · exact hnear

theorem cos64_isNearest {v : Bits64} (hfin : isFinite v = true) (hdec : cosDecided (units v) ≠ none) :
    IsNearest (cos64 v) (Real.cos ((sunits v : ℝ) / unit)) := by
  obtain ⟨r, hr⟩ := Option.ne_none_iff_exists'.mp hdec
  have hnear := cosDecided_isNearest hr
  have hcos : cos64 v = r := by simp [cos64, hfin, hr]
  rw [hcos, sunits_cast]
  split
  · rwa [Real.cos_neg]
  · exact hnear

/-- Settles O59: the two Taylor sums enclose the sine, which is odd. -/
theorem sineCorrectlyRounded : Obligations.SineCorrectlyRounded := fun _ => sin64_isNearest

/-- Settles O60: the two Taylor sums enclose the cosine, which is even. -/
theorem cosineCorrectlyRounded : Obligations.CosineCorrectlyRounded := fun _ => cos64_isNearest

end Sys2Proof.Machine
end

section
/-! PROOF. The state of 10_state.md (O1 to O3, O5 to O9, O51): what each way an instruction can end does to the registers,
the flags, UNDEF and the port, and from it the invariant of every step. -/

namespace Sys2Proof.Machine

/-! ## What an ending does to the state (R31, R35, R37, R40, R46) -/

/-- A command selects one instance at most. -/
theorem selected_unique {i : Instr} {j k : Fin Config.numInst} (hj : i.selects = some (BitVec.ofNat 4 j))
    (hk : i.selects = some (BitVec.ofNat 4 k)) : j = k :=
  instNum_injective (Option.some.inj (hj.symm.trans hk))

section
variable {i : Instr} {s u : State} {rc : ResultCode} {rs : List Bits64}

/-- Before it answers, a command touches neither the port nor the program index. -/
theorem Ending.port_unchanged (h : Ending i s u rc rs) :
    u.rx = s.rx ∧ u.tx = s.tx ∧ u.sent = s.sent ∧ u.pc = s.pc := by
  cases h <;> simp

/-- A command writes the registers of one instance at most, the one it selects (R32). -/
theorem Ending.getInst_of_not_selected (h : Ending i s u rc rs) {k : Fin Config.numInst}
    (hk : i.selects ≠ some (BitVec.ofNat 4 k)) : u.getInst k = s.getInst k := by
  cases h with
  | answer => rfl
  | write j r rs hsel =>
    exact State.getInst_setInst_of_ne s r fun hjk => hk (hjk ▸ hsel)
  | undefined j hsel =>
    exact State.getInst_setInst_of_ne s _ fun hjk => hk (hjk ▸ hsel)
  | illegal => exact setSticky_getInst s k .illegal
  | notcfg => exact setSticky_getInst s k .notcfg

/-- A command leaves every register set that meets R46 one that meets it. -/
theorem Ending.valid (h : Ending i s u rc rs) {k : Fin Config.numInst} (hv : (s.getInst k).valid = true) :
    (u.getInst k).valid = true := by
  by_cases hk : i.selects = some (BitVec.ofNat 4 k)
  · cases h with
    | answer => exact hv
    | write j r rs hsel hvalid =>
      obtain rfl := selected_unique hsel hk
      simpa using hvalid hv
    | undefined j hsel =>
      obtain rfl := selected_unique hsel hk
      simp
    | illegal => simpa using hv
    | notcfg => simpa using hv
  · rwa [h.getInst_of_not_selected hk]

/-- `cfgd` is set by a configure command on the instance it selects, and nothing clears it (R35). -/
theorem Ending.cfgd_iff (h : Ending i s u rc rs) (k : Fin Config.numInst) :
    (u.getInst k).cfgd = true ↔ (s.getInst k).cfgd = true ∨
      ((i.op = .cfgbp ∨ i.op = .cfgnotch) ∧ i.selects = some (BitVec.ofNat 4 k)) := by
  by_cases hk : i.selects = some (BitVec.ofNat 4 k)
  · cases h with
    | answer rs hsel => simp [hsel] at hk
    | write j r rs hsel hvalid hcfgd =>
      obtain rfl := selected_unique hsel hk
      simp [hcfgd, hk]
    | undefined j hsel hop =>
      obtain rfl := selected_unique hsel hk
      simp [hop, hk]
    | illegal n hsel hge => exact absurd (Option.some.inj (hsel.symm.trans hk)) (instNum_ne hge k)
    | notcfg j hsel hop => simp [hop]
  · simp [h.getInst_of_not_selected hk, hk]

/-- The sticky bits record the result code (R183). -/
theorem Ending.sticky (h : Ending i s u rc rs) :
    u.eIll = (s.eIll || rc == .illegal) ∧ u.eNcfg = (s.eNcfg || rc == .notcfg) := by
  cases h <;> simp

/-- UNDEF is marked by a command with parameters outside its domain whose instance exists, and by no other (R40, R132). -/
theorem Ending.undef_iff (h : Ending i s u rc rs) :
    u.undef = true ↔ s.undef = true ∨
      (i.inDomain = false ∧ ∃ n, i.selects = some n ∧ n.toNat < Config.numInst) := by
  cases h with
  | answer rs hsel => simp [hsel]
  | write k r rs hsel hvalid hcfgd hdom => simp [hdom]
  | undefined k hsel hop hdom => exact ⟨fun _ => .inr ⟨hdom, _, hsel, instNum_lt k⟩, fun _ => rfl⟩
  | illegal n hsel hge =>
    rw [setSticky_undef]
    refine ⟨.inl, fun hor => hor.resolve_right fun ⟨_, m, hm, hlt⟩ => hge ?_⟩
    rwa [Option.some.inj (hsel.symm.trans hm)]
  | notcfg k hsel hop => cases i <;> simp_all [Instr.op, Instr.inDomain]

/-- What a command answers is a response the block may give (R84, R182, R183). -/
theorem Ending.response_wf (h : Ending i s u rc rs) : ({ rc := rc, opc := i.op.code, results := rs } : Response).wf = true := by
  cases h with
  | answer rs hsel hres => obtain ⟨row, hrow, hlegal⟩ := hres; simp [Response.wf, hrow, hlegal]
  | write k r rs hsel hvalid hcfgd hdom hres => obtain ⟨row, hrow, hlegal⟩ := hres; simp [Response.wf, hrow, hlegal]
  | undefined k hsel hop => obtain hop | hop := hop <;> rw [hop] <;> rfl
  | illegal => rfl
  | notcfg k hsel hop => rw [hop]; rfl

end

/-! ## The invariant (R46, R43, R61) -/

theorem hardwareReset_inv (s : State) : s.hardwareReset.Inv := State.Start.inv (.inl ⟨s.draws, rfl⟩)

/-- Once the pending response is sent, it is one of the responses sent. -/
theorem State.Inv.accept {s : State} (h : s.Inv) (rest : List Byte) : (s.accept rest).Inv where
  instances := h.instances
  partialPacket := rfl
  pending := by simp
  answered := by
    intro r hr
    obtain hr | hr := List.mem_append.mp hr
    · exact h.answered r hr
    · exact h.pending r (Option.mem_toList.mp hr)
  onePerCommand := by simp [h.onePerCommand]

/-- Receiving is accepting, except for the bytes, which complete no packet. -/
theorem State.Inv.receive {s : State} (h : s.Inv) (hframe : frame (s.rx ++ s.held) = none) : s.receive.Inv :=
  { h.accept [] with partialPacket := hframe }

/-- Answering, once the response before is sent, adds the one response of one command (R61). -/
theorem State.Inv.answer {u : State} (h : u.Inv) (htx : u.tx = none) {opc : Byte} {rc : ResultCode}
    {rs : List Bits64} (hwf : ({ rc := rc, opc := opc, results := rs } : Response).wf = true) :
    (u.answered opc rc rs).Inv where
  instances := h.instances
  partialPacket := h.partialPacket
  pending := by simpa using hwf
  answered := h.answered
  onePerCommand := by simp [h.onePerCommand, htx]

/-- The invariant speaks of the instances, the received bytes, the responses and the program index only. -/
theorem State.Inv.of_port_unchanged {s u : State} (h : s.Inv)
    (hport : u.rx = s.rx ∧ u.tx = s.tx ∧ u.sent = s.sent ∧ u.pc = s.pc)
    (hvalid : ∀ k, (s.getInst k).valid = true → (u.getInst k).valid = true) : u.Inv := by
  obtain ⟨hrx, htx, hsent, hpc⟩ := hport
  exact
    { instances := fun k => hvalid k (h.instances k)
      partialPacket := hrx ▸ h.partialPacket
      pending := htx ▸ h.pending
      answered := hsent ▸ h.answered
      onePerCommand := by rw [hpc, hsent, htx, h.onePerCommand] }

/-- A command keeps the invariant when the response before it is sent. -/
theorem exec_inv {i : Instr} {s t : State} (h : s.Inv) (htx : s.tx = none) (he : exec i s = .next t) : t.Inv := by
  obtain ⟨u, rc, rs, rfl, hend⟩ := exec_next he
  have hu : u.Inv := h.of_port_unchanged hend.port_unchanged fun _ => hend.valid
  obtain ⟨-, htxu, -, -⟩ := hend.port_unchanged
  exact hu.answer (htxu.trans htx) hend.response_wf

/-- So does the reject of a packet that is no instruction (R183). -/
theorem rejectMalformed_inv {p : Packet} {s t : State} (h : s.Inv) (htx : s.tx = none)
    (he : rejectMalformed p s = .next t) : t.Inv := by
  obtain rfl : _ = t := Host.Outcome.next.inj ((rejectMalformed_eq p s).symm.trans he)
  have hu : (setSticky .illegal s).Inv := h.of_port_unchanged (by simp) fun k hv => by simpa using hv
  exact hu.answer htx rfl

/-- Settles O3: each of the moves a step can make keeps the invariant. -/
theorem stepKeepsInvariant : Obligations.StepKeepsInvariant := by
  intro s t hinv hstep
  obtain ⟨-, hr⟩ | ⟨-, p, rest, -, ⟨i, -, he⟩ | ⟨e, -, he⟩⟩ | ⟨-, hframe, -, hr⟩ | ⟨-, -, -, -, hb⟩ := step_cases s
  · obtain rfl := Host.Outcome.next.inj (hr.symm.trans hstep)
    exact hardwareReset_inv s
  · exact exec_inv (hinv.accept rest) rfl (he.symm.trans hstep)
  · exact rejectMalformed_inv (hinv.accept rest) rfl (he.symm.trans hstep)
  · obtain rfl := Host.Outcome.next.inj (hr.symm.trans hstep)
    exact hinv.receive hframe
  · simp [hb] at hstep

/-- Settles O2: the reset state is a start of a run. -/
theorem resetMeetsInvariant : Obligations.ResetMeetsInvariant := State.Start.inv (.inl ⟨0, rfl⟩)

/-- Settles O1: each field reads as the table of R47 says. -/
theorem resetLeavesStatedValues : Obligations.ResetLeavesStatedValues :=
  ⟨State.getInst_reset, rfl, rfl, rfl, rfl, rfl⟩

/-! ## Registers and flags (R32, R35, R37, R40) -/

/-- Settles O5: answering leaves the registers to the ending. -/
theorem cfgdSetOnlyByConfigure : Obligations.CfgdSetOnlyByConfigure := by
  intro i s t k he
  obtain ⟨u, rc, rs, rfl, hend⟩ := exec_next he
  exact hend.cfgd_iff k

/-- Settles O8: answering leaves the registers to the ending. -/
theorem onlySelectedInstanceWritten : Obligations.OnlySelectedInstanceWritten := by
  intro i s t k he hk
  obtain ⟨u, rc, rs, rfl, hend⟩ := exec_next he
  exact hend.getInst_of_not_selected hk

/-- Settles O6: a command and a reject record their result code, and a step without a command answers nothing. -/
theorem stickyBitsFollowRejects : Obligations.StickyBitsFollowRejects := by
  intro s t hrst hstep
  obtain ⟨hrst', -⟩ | ⟨-, p, rest, -, ⟨i, -, he⟩ | ⟨e, -, he⟩⟩ | ⟨-, -, -, hr⟩ | ⟨-, -, -, -, hb⟩ := step_cases s
  · simp [hrst] at hrst'
  · obtain ⟨u, rc, rs, rfl, hend⟩ := exec_next (he.symm.trans hstep)
    simpa using hend.sticky
  · obtain rfl := Host.Outcome.next.inj ((rejectMalformed_eq p _).symm.trans (he.symm.trans hstep))
    simp
  · obtain rfl := Host.Outcome.next.inj (hr.symm.trans hstep)
    simp
  · simp [hb] at hstep

/-- The commands whose parameters can lie outside the domain are the configure commands (R131). -/
theorem outOfDomain_iff (i : Instr) :
    (i.inDomain = false ∧ ∃ n, i.selects = some n ∧ n.toNat < Config.numInst) ↔
      (∃ n f0 g q fs, i = .cfgbp n f0 g q fs ∧ n.toNat < Config.numInst ∧ domBP f0 g q fs = false) ∨
      (∃ n f0 q fs, i = .cfgnotch n f0 q fs ∧ n.toNat < Config.numInst ∧ domN f0 q fs = false) := by
  cases i <;> simp [Instr.inDomain, Instr.selects, and_comm]

/-- Settles O7: a command marks UNDEF when it is outside its domain and its instance exists. -/
theorem undefMarksOutOfDomainConfigures : Obligations.UndefMarksOutOfDomainConfigures := by
  intro i s t he
  obtain ⟨u, rc, rs, rfl, hend⟩ := exec_next he
  rw [← outOfDomain_iff]
  exact hend.undef_iff

/-! ## One instance in isolation (R32, R45) -/

/-- The INST field of an existing instance selects it. -/
theorem onInst_ofNat (op : Opcode) (k : Fin Config.numInst) (s : State)
    (f : Fin Config.numInst → Host.Outcome State Fault Refusal) : onInst op (BitVec.ofNat 4 k) s f = f k := by
  rw [onInst_of_lt (instNum_lt k)]
  exact congrArg f (Fin.ext (instNum_toNat k))

/-- The words a configure command draws depend on the draw counter alone. -/
theorem State.drawnCoeffs_congr {s s' : State} (h : s.draws = s'.draws) : s.drawnCoeffs = s'.drawnCoeffs := by
  simp only [State.drawnCoeffs, h]

/-- Two endings show the same registers of instance `k` and the same response. -/
def AgreeOn (k : Fin Config.numInst) (o o' : Host.Outcome State Fault Refusal) : Prop :=
  ∀ t t', o = .next t → o' = .next t' → t.getInst k = t'.getInst k ∧ t.tx = t'.tx

theorem respond_agreeOn {k : Fin Config.numInst} {u u' : State} (opc : Byte) (rc : ResultCode) (rs : List Bits64)
    (h : u.getInst k = u'.getInst k) : AgreeOn k (respond opc rc rs u) (respond opc rc rs u') := by
  intro t t' ht ht'
  obtain rfl := Host.Outcome.next.inj ht
  obtain rfl := Host.Outcome.next.inj ht'
  exact ⟨h, rfl⟩

theorem configure_agreeOn (op : Opcode) (k : Fin Config.numInst) (c : Coeffs) (s s' : State) :
    AgreeOn k (configure op k c s) (configure op k c s') :=
  respond_agreeOn _ _ _ (by simp)

theorem configureUndefined_agreeOn (op : Opcode) (k : Fin Config.numInst) {s s' : State} (h : s.draws = s'.draws) :
    AgreeOn k (configureUndefined op k s) (configureUndefined op k s') :=
  respond_agreeOn _ _ _ (by simp [State.drawnCoeffs_congr h])

/-- An instance command reads the registers of its instance and the draw counter, and nothing else of the state. -/
theorem exec_agreeOn {i : Instr} {s s' : State} {k : Fin Config.numInst} (hsel : i.selects = some (BitVec.ofNat 4 k))
    (hinst : s.getInst k = s'.getInst k) (hdraws : s.draws = s'.draws) : AgreeOn k (exec i s) (exec i s') := by
  cases i with
  | cfgbp n f0 g q fs =>
    obtain rfl := Option.some.inj hsel
    simp only [exec, execCfgbp, onInst_ofNat]
    split
    · exact configure_agreeOn _ _ _ _ _
    · exact configureUndefined_agreeOn _ _ hdraws
  | cfgnotch n f0 q fs =>
    obtain rfl := Option.some.inj hsel
    simp only [exec, execCfgnotch, onInst_ofNat]
    split
    · exact configure_agreeOn _ _ _ _ _
    · exact configureUndefined_agreeOn _ _ hdraws
  | reset n =>
    obtain rfl := Option.some.inj hsel
    simp only [exec, execReset, onInst_ofNat]
    exact respond_agreeOn _ _ _ (by simp [hinst])
  | tick n x =>
    obtain rfl := Option.some.inj hsel
    simp only [exec, execTick, onInst_ofNat, hinst]
    split
    · exact respond_agreeOn _ _ _ (by simp)
    · exact respond_agreeOn _ _ _ (by simp [hinst])
  | status | dec8 | dec16 | enc8 | enc16 => simp [Instr.selects] at hsel

/-- Settles O9: the two runs agree on the selected instance and on the response. -/
theorem selectedInstanceIsolated : Obligations.SelectedInstanceIsolated :=
  fun _ _ _ t t' _ hsel hinst hdraws => exec_agreeOn hsel hinst hdraws t t'

/-! ## The STATUS word (R39, R170) -/

/-- Bit k of the CFGD field is the k-th configured bit. -/
theorem cfgdField_getLsbD (cs : List Bool) {k : Nat} (hk : k < 16) : (cfgdField cs).getLsbD k = cs.getD k false := by
  induction cs generalizing k with
  | nil => simp [cfgdField]
  | cons c cs ih =>
    cases k with
    | zero => simp [cfgdField]
    | succ k =>
      have htail := ih (show k < 16 by omega)
      simp only [cfgdField, BitVec.getLsbD_or, BitVec.getLsbD_shiftLeft, BitVec.getLsbD_setWidth, List.getD_cons_succ]
      simp [htail, hk]

section
variable (b : Build) (cs : List Bool) (e n : Bool)

theorem statusWord_cfgd {k : Nat} (hk : k < 16) : (statusWord b cs e n).getLsbD k = cs.getD k false := by
  rw [← cfgdField_getLsbD cs hk]
  simp only [statusWord, BitVec.getLsbD_append, hk, if_true]

theorem statusWord_eIll : (statusWord b cs e n).getLsbD 16 = e := by
  simp only [statusWord, BitVec.getLsbD_append]
  simp

theorem statusWord_eNcfg : (statusWord b cs e n).getLsbD 17 = n := by
  simp only [statusWord, BitVec.getLsbD_append]
  simp

theorem statusWord_conv : (statusWord b cs e n).getLsbD 36 = b.convPresent := by
  simp only [statusWord, BitVec.getLsbD_append]
  simp

theorem statusWord_ninst : (statusWord b cs e n).extractLsb' 32 4 = BitVec.ofNat 4 (b.numInst - 1) := by
  apply BitVec.eq_of_getLsbD_eq
  intro k hk
  simp only [statusWord, BitVec.getLsbD_extractLsb', BitVec.getLsbD_append]
  interval_cases k <;> simp

/-- Both reserved fields read 0. -/
theorem statusWord_reserved :
    (statusWord b cs e n).extractLsb' 18 14 = 0 ∧ (statusWord b cs e n).extractLsb' 37 27 = 0 := by
  simpa [ResultFormat.legal] using statusWord_legal b cs e n

end

theorem State.cfgd_getD (s : State) (k : Fin Config.numInst) :
    (s.inst.toList.map Inst.cfgd).getD k false = (s.getInst k).cfgd := by
  have hk : s.inst[(k : Nat)]? = some (s.getInst k) := Vector.getElem?_eq_getElem k.isLt
  simp [hk]

/-- Settles O51: the fields of the word are those of `statusWord`. -/
theorem statusAnswersStatusWord : Obligations.StatusAnswersStatusWord := by
  refine ⟨rfl, fun s => ?_⟩
  obtain ⟨hlow, hhigh⟩ := statusWord_reserved Config.build (s.inst.toList.map Inst.cfgd) s.eIll s.eNcfg
  refine ⟨s.status, rfl, fun k => ?_, fun k hge hlt => ?_, statusWord_eIll _ _ _ _, statusWord_eNcfg _ _ _ _, hlow, ?_,
    statusWord_conv _ _ _ _, hhigh⟩
  · rw [State.status, statusWord_cfgd _ _ _ _ (k.isLt.trans (by decide)), State.cfgd_getD]
  · rw [State.status, statusWord_cfgd _ _ _ _ hlt]
    exact List.getD_eq_default _ _ (by simpa using hge)
  · rw [State.status, statusWord_ninst]; rfl

end Sys2Proof.Machine
end

section
/-! PROOF. The command port of 20_memory.md (O15, O19, O20, O23, O50): which step the block takes, what a command's packet
decodes to, that every command is answered, and how a host program runs whose bytes are sent at once. -/

namespace Sys2Proof

/-! ## An encoded instruction decodes to itself (R81, R82, R84, R88) -/

/-- What is written per constructor holds of every instruction. -/
theorem Laws.RoundTrip.statement (i : Instr) : Laws.RoundTrip.Statement i := by
  cases i with
  | cfgbp n f0 g q fs => exact cfgbp n f0 g q fs
  | cfgnotch n f0 q fs => exact cfgnotch n f0 q fs
  | reset n => exact reset n
  | tick n x => exact tick n x
  | status => exact status
  | dec8 b => exact dec8 b
  | dec16 b => exact dec16 b
  | enc8 x => exact enc8 x
  | enc16 x => exact enc16 x

/-- The operand words of an instruction give back its operands (R83). -/
theorem assemble_operandWords (i : Instr) : assemble i.op i.inst i.operandWords = .ok i := by
  cases i with
  | cfgbp n f0 g q fs => simp [assemble, Instr.op, Instr.inst, Instr.operandWords, extract_zext fs (m := 64) (by decide)]
  | cfgnotch n f0 q fs => simp [assemble, Instr.op, Instr.inst, Instr.operandWords, extract_zext fs (m := 64) (by decide)]
  | dec8 b => simp [assemble, Instr.op, Instr.operandWords, extract_zext b (m := 64) (by decide)]
  | dec16 b => simp [assemble, Instr.op, Instr.operandWords, extract_zext b (m := 64) (by decide)]
  | reset | tick | status | enc8 | enc16 => rfl

/-- A well-formed instruction passes what its row asks of the build and of the INST field: causes (c), (e) and (f) of
R181. -/
theorem Instr.wf_row {b : Build} {i : Instr} {row : OpRow} (hwf : i.wf b = true) (hrow : rowOfCode i.op.code = some row) :
    (row.converter = true → b.convPresent = true) ∧ (row.takesInst = false → i.inst = 0) ∧
      (row.takesInst = true → i.inst.toNat < b.numInst) := by
  cases i with
  | cfgbp | cfgnotch | reset | tick =>
    obtain rfl := Option.some.inj hrow
    exact ⟨nofun, nofun, fun _ => of_decide_eq_true hwf⟩
  | status =>
    obtain rfl := Option.some.inj hrow
    exact ⟨nofun, fun _ => rfl, nofun⟩
  | dec8 | dec16 | enc8 | enc16 =>
    obtain rfl := Option.some.inj hrow
    exact ⟨fun _ => hwf, fun _ => rfl, nofun⟩

/-- No check of R88 refuses the packet of a well-formed instruction. -/
theorem decodePacket_encodePacket {b : Build} {i : Instr} (hwf : i.wf b = true) :
    decodePacket b (encodePacket i) = .ok i := by
  obtain ⟨hopc, hinst, hrsv, hnops, row, hrow, hop, hlen, hlegal⟩ := Laws.RoundTrip.statement i
  obtain ⟨hconv, hzero, hlt⟩ := Instr.wf_row hwf hrow
  have hc : (row.converter && !b.convPresent) = false := by simpa using hconv
  have hf : (row.takesInst && decide (b.numInst ≤ i.inst.toNat)) = false := by simpa using hlt
  simpa [decodePacket, decodeRow, encodePacket, hopc, hinst, hrsv, hnops, hrow, hop, hlen, hlegal, hc, hf,
    assemble_operandWords] using hzero

/-- The encoding of an instruction is framed as its packet, whatever follows it (R62, R64). -/
theorem frame_encode (i : Instr) (rest : List Byte) : frame (encode i ++ rest) = some (encodePacket i, rest) := by
  obtain ⟨-, -, -, hnops⟩ := Laws.RoundTrip.header_fields i
  exact frame_bytes (encodePacket i) rest hnops.symm

end Sys2Proof

namespace Sys2Proof.Machine

/-! ## Which step the block takes (R64, R66, R70, R194) -/

section
variable {s : State}

/-- With a complete packet on the stream that decodes, a step executes its instruction. -/
theorem step_of_frame {p : Packet} {rest : List Byte} {i : Instr} (hrst : s.rst = false)
    (hframe : frame (s.rx ++ s.held) = some (p, rest)) (hdec : decodePacket Config.build p = .ok i) :
    step s = exec i (s.accept rest) := by
  simp [step, portMove, hrst, hframe, hdec]

/-- With no complete packet, but bytes waiting or a response unsent, a step takes the bytes in and sends the response. -/
theorem step_receive (hrst : s.rst = false) (hframe : frame (s.rx ++ s.held) = none) (hwork : s.held ≠ [] ∨ s.tx ≠ none) :
    step s = .next s.receive := by
  have hbusy : (s.held.isEmpty && s.tx.isNone) = false := by
    rw [Bool.and_eq_false_iff]
    simpa [Option.isSome_iff_ne_none] using hwork
  simp [step, portMove, hrst, hframe, hbusy]

/-- There is no step when nothing is asserted, waiting or unsent and what has been received is no complete packet. -/
theorem step_blocked (hrst : s.rst = false) (htx : s.tx = none) (hheld : s.held = []) (hframe : frame s.rx = none) :
    step s = .fault (if s.rx.isEmpty then .idle else .packetIncomplete) := by
  simp [step, portMove, hrst, hheld, htx, hframe]

/-- Every other state has a next one. -/
theorem step_next_or_blocked (s : State) :
    (∃ t, step s = .next t) ∨ (s.rst = false ∧ s.tx = none ∧ s.held = [] ∧ frame s.rx = none) := by
  obtain ⟨-, hr⟩ | ⟨-, p, rest, -, ⟨i, -, he⟩ | ⟨e, -, he⟩⟩ | ⟨-, -, -, hr⟩ | ⟨hrst, hframe, hheld, htx, -⟩ := step_cases s
  · exact .inl ⟨_, hr⟩
  · obtain ⟨u, rc, rs, hu, -⟩ := exec_ending i (s.accept rest)
    exact .inl ⟨_, he.trans hu⟩
  · exact .inl ⟨_, he.trans (rejectMalformed_eq p _)⟩
  · exact .inl ⟨_, hr⟩
  · exact .inr ⟨hrst, htx, hheld, by simpa [hheld] using hframe⟩

/-- A fault comes from a blocked state. -/
theorem blocked_of_step_fault {f : Fault} (h : step s = .fault f) :
    s.rst = false ∧ s.tx = none ∧ s.held = [] ∧ frame s.rx = none :=
  (step_next_or_blocked s).resolve_left fun ⟨t, ht⟩ => by simp [ht] at h

/-- The block is idle when, beyond being blocked, it has received nothing (R194). -/
theorem step_idle_iff : step s = .fault .idle ↔ s.rst = false ∧ s.tx = none ∧ s.held = [] ∧ s.rx = [] := by
  constructor
  · intro h
    obtain ⟨hrst, htx, hheld, hframe⟩ := blocked_of_step_fault h
    refine ⟨hrst, htx, hheld, ?_⟩
    simpa [step_blocked hrst htx hheld hframe] using h
  · rintro ⟨hrst, htx, hheld, hrx⟩
    simp [step_blocked hrst htx hheld (by rw [hrx, frame_nil]), hrx]

end

/-- Settles O19: a state has a next one unless it is blocked. -/
theorem stepOutcomes : Obligations.StepOutcomes := by
  refine ⟨fun s r h => ?_, fun s => ⟨?_, ?_⟩, fun s => step_idle_iff, fun s => step_receive⟩
  · obtain ⟨t, ht⟩ | ⟨hrst, htx, hheld, hframe⟩ := step_next_or_blocked s
    · simp [ht] at h
    · simp [step_blocked hrst htx hheld hframe] at h
  · rintro ⟨f, hf⟩
    exact blocked_of_step_fault hf
  · rintro ⟨hrst, htx, hheld, hframe⟩
    exact ⟨_, step_blocked hrst htx hheld hframe⟩

/-- A step runs the well-formed instruction whose encoding stands at the head of the stream. -/
theorem step_of_encode {s : State} {i : Instr} {rest : List Byte} (hrst : s.rst = false) (hwf : i.wf Config.build = true)
    (hstream : s.rx ++ s.held = encode i ++ rest) : step s = exec i (s.accept rest) :=
  step_of_frame hrst (hstream ▸ frame_encode i rest) (decodePacket_encodePacket hwf)

/-- Settles O15: the state after accepting the packet is the one the statement writes out. -/
theorem stepRunsDecodedInstruction : Obligations.StepRunsDecodedInstruction :=
  fun _ _ _ => step_of_encode

/-! ## Every command is answered (R61, R66, R31, R186) -/

/-- No command touches the bytes the host has sent or the reset line. -/
theorem Ending.host_unchanged {i : Instr} {s u : State} {rc : ResultCode} {rs : List Bits64} (h : Ending i s u rc rs) :
    u.held = s.held ∧ u.rst = s.rst := by
  cases h <;> simp

/-- Settles O20: however an instruction ends, it answers, and no ending touches the port. -/
theorem everyInstructionAnswers : Obligations.EveryInstructionAnswers := by
  intro i s
  obtain ⟨u, rc, rs, he, hend⟩ := exec_ending i s
  obtain ⟨hrx, -, hsent, hpc⟩ := hend.port_unchanged
  obtain ⟨hheld, hrst⟩ := hend.host_unchanged
  exact ⟨_, rc, rs, he, rfl, congrArg (· + 1) hpc, hrx, hheld, hsent, hrst⟩

/-! ## Idempotent commands (R65) -/

/-- Carried out again right after it answered, the operation leaves the same state and the same response, and counts one
command more. -/
def Repeatable (f : State → Host.Outcome State Fault Refusal) : Prop :=
  ∀ s t, f s = .next t → f t = .next { t with pc := t.pc + 1 }

/-- An answer that does not depend on the state, after a write that is idempotent. -/
theorem respond_repeatable {opc : Byte} {rc : ResultCode} {rs : List Bits64} {w : State → State}
    (hw : ∀ s, w ((w s).answered opc rc rs) = (w s).answered opc rc rs) : Repeatable fun s => respond opc rc rs (w s) := by
  intro s t ht
  obtain rfl := Host.Outcome.next.inj ht
  exact congrArg (respond opc rc rs) (hw s)

theorem reject_illegal_repeatable (opc : Byte) : Repeatable (reject opc .illegal) :=
  respond_repeatable fun _ => rfl

/-- On a missing instance the command is rejected, both times. -/
theorem onInst_repeatable {op : Opcode} {n : InstNum} {f : State → Fin Config.numInst → Host.Outcome State Fault Refusal}
    (hf : ∀ k, Repeatable (f · k)) : Repeatable fun s => onInst op n s (f s) := by
  by_cases h : n.toNat < Config.numInst
  · simpa only [onInst_of_lt h] using hf ⟨n.toNat, h⟩
  · simp only [onInst_of_ge h]
    exact reject_illegal_repeatable op.code

/-- Registers written twice are written once. -/
theorem State.setInst_answered_setInst (s : State) (k : Fin Config.numInst) (r : Inst) (opc : Byte) (rc : ResultCode)
    (rs : List Bits64) : ((s.setInst k r).answered opc rc rs).setInst k r = (s.setInst k r).answered opc rc rs := by
  simp [State.setInst, State.answered]

/-- The coefficients a configure command writes inside its domain do not depend on the state (R136). -/
theorem configure_repeatable (op : Opcode) (k : Fin Config.numInst) (c : Coeffs) : Repeatable (configure op k c) :=
  respond_repeatable fun s => s.setInst_answered_setInst k c.construct _ _ _

/-- Zeroing zeroed delay registers writes what they hold (R150). -/
theorem execReset_repeatable (n : InstNum) : Repeatable (execReset n) :=
  onInst_repeatable fun k => respond_repeatable fun s => by
    simpa [Inst.withDelays] using s.setInst_answered_setInst k ((s.getInst k).withDelays posZero posZero) _ _ _

/-- Reading the STATUS word changes nothing that it shows (R170). -/
theorem execStatus_repeatable : Repeatable execStatus := by
  intro s t ht
  obtain rfl := Host.Outcome.next.inj ht
  rfl

/-- The domain of a configure command is a condition on its operands, which are the same both times (R131, R133). -/
theorem execCfgbp_repeatable {n : InstNum} {f0 g q : Bits64} {fs : Bits32} (hdom : domBP f0 g q fs = true) :
    Repeatable (execCfgbp n f0 g q fs) :=
  onInst_repeatable fun k => by simpa only [hdom, if_true] using configure_repeatable .cfgbp k (bandPass f0 g q fs)

theorem execCfgnotch_repeatable {n : InstNum} {f0 q : Bits64} {fs : Bits32} (hdom : domN f0 q fs = true) :
    Repeatable (execCfgnotch n f0 q fs) :=
  onInst_repeatable fun k => by simpa only [hdom, if_true] using configure_repeatable .cfgnotch k (notch f0 q fs)

/-- Every instruction but BQ.TICK, inside its domain, writes and answers the same again. -/
theorem exec_repeatable {i : Instr} (hop : i.op ≠ .tick) (hdom : i.inDomain = true) : Repeatable (exec i) := by
  cases i with
  | cfgbp n f0 g q fs => exact execCfgbp_repeatable hdom
  | cfgnotch n f0 q fs => exact execCfgnotch_repeatable hdom
  | reset n => exact execReset_repeatable n
  | tick n x => exact absurd rfl hop
  | status => exact execStatus_repeatable
  | dec8 | dec16 | enc8 | enc16 => exact respond_repeatable (w := id) fun _ => rfl

/-- Settles O23: the second sending is the repetition. -/
theorem commandsButTickAreIdempotent : Obligations.CommandsButTickAreIdempotent := by
  intro i s t u hop hdom ht hu
  exact Host.Outcome.next.inj (hu.symm.trans (exec_repeatable hop hdom s t ht))

/-! ## Bytes that wait are not seen by the command before them (R70) -/

/-- The host sends these bytes after the outcome `o`. -/
def thenSend (bs : List Byte) : Host.Outcome State Fault Refusal → Host.Outcome State Fault Refusal
  | .next s => .next (s.hostSend bs)
  | .fault f => .fault f
  | .refused r => .refused r

theorem onInst_hostSend {op : Opcode} {n : InstNum} {s : State} {bs : List Byte}
    {f g : Fin Config.numInst → Host.Outcome State Fault Refusal} (h : ∀ k, g k = thenSend bs (f k)) :
    onInst op n (s.hostSend bs) g = thenSend bs (onInst op n s f) := by
  by_cases hn : n.toNat < Config.numInst
  · simpa only [onInst_of_lt hn] using h _
  · simp only [onInst_of_ge hn]; rfl

/-- Bytes sent before a command executes and after it are the same. -/
theorem exec_hostSend (i : Instr) (s : State) (bs : List Byte) : exec i (s.hostSend bs) = thenSend bs (exec i s) := by
  cases i with
  | cfgbp n f0 g q fs =>
    simp only [exec, execCfgbp]
    exact onInst_hostSend fun k => by rw [apply_ite (thenSend bs)]; rfl
  | cfgnotch n f0 q fs =>
    simp only [exec, execCfgnotch]
    exact onInst_hostSend fun k => by rw [apply_ite (thenSend bs)]; rfl
  | reset n =>
    simp only [exec, execReset]
    exact onInst_hostSend fun k => rfl
  | tick n x =>
    simp only [exec, execTick, State.hostSend_getInst]
    exact onInst_hostSend fun k => by rw [apply_ite (thenSend bs)]; rfl
  | status | dec8 | dec16 | enc8 | enc16 => rfl

/-! ## A host program (R66, R70, R209) -/

@[simp] theorem State.hostSend_nil (s : State) : s.hostSend [] = s := by simp [State.hostSend]

/-- The command `i`, sent to the block in state `s`, is run by one step, whatever is sent after it: the response before is
sent, and `t` is the next state, ready for a new packet, with the response `r` pending. -/
structure RunsCommand (i : Instr) (s t : State) (r : Response) : Prop where
  step_eq : ∀ rest, step (s.hostSend (encode i ++ rest)) = .next (t.hostSend rest)
  ready : t.Ready
  pending : t.tx = some r
  opc : r.opc = i.op.code
  index : t.pc = s.pc + 1
  sent : t.sent = s.observation

/-- With its packet taken off a stream that was empty before, a state is ready and the bytes after the packet wait. -/
theorem State.Ready.hostSend_accept {s : State} (hs : s.Ready) (bs rest : List Byte) :
    (s.hostSend bs).accept rest = s.sendResponse.hostSend rest := by
  obtain ⟨-, hrx, hheld⟩ := hs
  simp [State.accept, State.hostSend, State.sendResponse, hrx, hheld]

theorem runsCommand_of_ready {i : Instr} {s : State} (hs : s.Ready) (hwf : i.wf Config.build = true) :
    ∃ t r, RunsCommand i s t r := by
  obtain ⟨t, rc, rs, he, htx, hpc, hrx, hheld, hsent, hrst⟩ := everyInstructionAnswers i s.sendResponse
  obtain ⟨hrst', hrx', hheld'⟩ := hs
  refine ⟨t, _, fun rest => ?_, ⟨hrst.trans hrst', hrx.trans hrx', hheld.trans hheld'⟩, htx, rfl, hpc, hsent⟩
  have hstream : (s.hostSend (encode i ++ rest)).rx ++ (s.hostSend (encode i ++ rest)).held = encode i ++ rest := by
    simp [hrx', hheld']
  rw [step_of_encode (s := s.hostSend (encode i ++ rest)) hrst' hwf hstream,
    State.Ready.hostSend_accept ⟨hrst', hrx', hheld'⟩, exec_hostSend, he, thenSend]

theorem RunsCommand.issue {i : Instr} {s t : State} {r : Response} (h : RunsCommand i s t r) : issue i s = some (t, r) := by
  have hstep : step (s.hostSend (encode i)) = .next t := by simpa using h.step_eq []
  simp [Machine.issue, hstep, h.pending]

/-- The program `is` run from `s`, sent at once and one command after the other: both leave `t`, with the responses `rs`. -/
structure RunsProgram (is : List Instr) (s t : State) (rs : List Response) : Prop where
  atOnce : runSteps is.length (s.hostSend (programBytes is)) = .next t
  oneByOne : issueAll is s = some (t, rs)
  opcs : rs.map Response.opc = is.map fun i => i.op.code
  index : t.pc = s.pc + is.length
  shown : t.observation = s.observation ++ rs
  ready : t.Ready
  pending : is ≠ [] ∨ s.tx ≠ none → t.tx ≠ none

theorem RunsProgram.nil {s : State} (hs : s.Ready) : RunsProgram [] s s [] where
  atOnce := by simp [programBytes, runSteps]
  oneByOne := rfl
  opcs := rfl
  index := rfl
  shown := by simp
  ready := hs
  pending := by simp

theorem RunsProgram.cons {i : Instr} {is : List Instr} {s t u : State} {r : Response} {rs : List Response}
    (hi : RunsCommand i s t r) (his : RunsProgram is t u rs) : RunsProgram (i :: is) s u (r :: rs) where
  atOnce := by
    rw [List.length_cons, runSteps, programBytes, List.flatMap_cons, hi.step_eq]
    exact his.atOnce
  oneByOne := by simp [issueAll, hi.issue, his.oneByOne]
  opcs := by simp [hi.opc, his.opcs]
  index := by rw [his.index, hi.index, List.length_cons]; omega
  shown := by
    have ht : t.observation = s.observation ++ [r] := by simp [State.observation.eq_1 t, hi.sent, hi.pending]
    simp [his.shown, ht]
  ready := his.ready
  pending := fun _ => his.pending (.inr (by simp [hi.pending]))

/-- A program of well-formed commands runs from any state that is ready. -/
theorem runsProgram_of_ready {is : List Instr} {s : State} (hs : s.Ready) (hwf : ∀ i ∈ is, i.wf Config.build = true) :
    ∃ t rs, RunsProgram is s t rs := by
  induction is generalizing s with
  | nil => exact ⟨s, [], .nil hs⟩
  | cons i is ih =>
    obtain ⟨t, r, hi⟩ := runsCommand_of_ready hs (hwf i List.mem_cons_self)
    obtain ⟨u, rs, his⟩ := ih hi.ready fun j hj => hwf j (List.mem_cons_of_mem i hj)
    exact ⟨u, r :: rs, .cons hi his⟩

/-- A state that is ready with a response pending takes a step that sends it and does nothing else. -/
theorem State.Ready.step_sends {t : State} (ht : t.Ready) (htx : t.tx ≠ none) : step t = .next t.receive := by
  obtain ⟨hrst, hrx, hheld⟩ := ht
  exact step_receive hrst (by simp [hrx, hheld]) (.inr htx)

/-- Settles O50: the run is the commands' runs in a row, and the step after the last command sends its response. -/
theorem hostProgramRunsInOrder : Obligations.HostProgramRunsInOrder := by
  intro s is hs hwf
  obtain ⟨t, rs, h⟩ := runsProgram_of_ready hs hwf
  exact ⟨t, rs, h.atOnce, h.oneByOne, h.opcs, h.index, h.shown, fun hne =>
    ⟨t.receive, h.ready.step_sends (h.pending (.inl hne)), ⟨h.index, rfl⟩, h.shown⟩⟩

end Sys2Proof.Machine
end

section
/-! PROOF. The encoding of 30_encoding.md (O10 to O14, O17, O22): what the checks of R88 accept, that decoding and encoding
are inverse, and the fields and lengths of headers, packets and responses. -/

namespace Sys2Proof

/-! ## What the checks of R88 accept -/

/-- The packet passes the checks of the row, causes (c) to (g) of R181. -/
structure OpRow.Accepts (row : OpRow) (b : Build) (p : Packet) : Prop where
  converter : row.converter = true → b.convPresent = true
  operandCount : (headerNops p.header).toNat = row.operands.length
  instZero : row.takesInst = false → headerInst p.header = 0
  instExists : row.takesInst = true → (headerInst p.header).toNat < b.numInst
  operandBits : operandsLegal row.operands p.ops = true

/-- A row decodes what it accepts, and the operands are then assembled. -/
theorem decodeRow_ok_iff {b : Build} {row : OpRow} {p : Packet} {i : Instr} :
    decodeRow b row p = .ok i ↔ row.Accepts b p ∧ assemble row.op (headerInst p.header) p.ops = .ok i := by
  unfold decodeRow
  constructor
  · intro h
    split_ifs at h with hconv hcount hzero hinst hbits
    exact ⟨⟨by simpa using hconv, not_not.mp hcount, by simpa using hzero, by simpa using hinst, by simpa using hbits⟩, h⟩
  · rintro ⟨⟨hconv, hcount, hzero, hinst, hbits⟩, h⟩
    rw [if_neg (by simpa using hconv), if_neg (not_not.mpr hcount), if_neg (by simpa using hzero),
      if_neg (by simpa using hinst), if_neg (by simpa using hbits), h]

/-- A packet decodes through the row of its OPC, when its reserved header bits are 0. -/
theorem decodePacket_ok_iff {b : Build} {p : Packet} {i : Instr} :
    decodePacket b p = .ok i ↔
      headerRsv p.header = 0 ∧ ∃ row, rowOfCode (headerOpc p.header) = some row ∧ decodeRow b row p = .ok i := by
  unfold decodePacket
  by_cases hrsv : headerRsv p.header = 0
  · cases hrow : rowOfCode (headerOpc p.header) <;> simp [hrsv]
  · rw [if_pos hrsv]
    exact iff_of_false nofun fun h => hrsv h.1

theorem decode_ok_iff {b : Build} {bs rest : List Byte} {i : Instr} :
    decode b bs = .ok (i, rest) ↔ ∃ p, frame bs = some (p, rest) ∧ decodePacket b p = .ok i := by
  unfold decode
  rcases hf : frame bs with _ | ⟨p, rest'⟩
  · simp
  · cases hd : decodePacket b p <;> simp [hd, and_comm]

/-- The legal FS, B8 and B16 operands lose no bit when they are assembled (R82, R83). -/
theorem operandWords_of_assemble {row : OpRow} {n : InstNum} {ops : List Bits64} {i : Instr} (hrow : row ∈ opcodeTable)
    (hlegal : operandsLegal row.operands ops = true) (h : assemble row.op n ops = .ok i) :
    i.op = row.op ∧ i.inst = (if row.takesInst then n else 0) ∧ i.operandWords = ops := by
  simp only [opcodeTable, List.mem_cons, List.not_mem_nil, or_false] at hrow
  obtain rfl | rfl | rfl | rfl | rfl | rfl | rfl | rfl | rfl := hrow
  all_goals
    simp only [assemble] at h
    split at h <;> cases h
    refine ⟨rfl, rfl, ?_⟩
  · simp_all [operandsLegal, Instr.operandWords, fs_of_legal]
  · simp_all [operandsLegal, Instr.operandWords, fs_of_legal]
  · rfl
  · rfl
  · rfl
  · simp_all [operandsLegal, Instr.operandWords, b8_of_legal]
  · simp_all [operandsLegal, Instr.operandWords, b16_of_legal]
  · rfl
  · rfl

/-- What a row asks of the build and of INST is all that well-formedness asks. -/
theorem Instr.wf_of_row {b : Build} {i : Instr} {row : OpRow} (hrow : rowOfCode i.op.code = some row)
    (hconv : row.converter = true → b.convPresent = true) (hlt : row.takesInst = true → i.inst.toNat < b.numInst) :
    i.wf b = true := by
  cases i with
  | cfgbp | cfgnotch | reset | tick =>
    obtain rfl := Option.some.inj hrow
    exact decide_eq_true (hlt rfl)
  | status => rfl
  | dec8 | dec16 | enc8 | enc16 =>
    obtain rfl := Option.some.inj hrow
    exact hconv rfl

/-- A row of the map carries the OPC value of its operation. -/
theorem code_of_mem_opcodeTable : ∀ row ∈ opcodeTable, row.op.code = row.code := by decide

/-- A complete packet that decodes is the packet of its instruction, which is well-formed: no bit of it is free (R89). -/
theorem encodePacket_of_decodePacket {b : Build} {p : Packet} {i : Instr} (hlen : p.ops.length = (headerNops p.header).toNat)
    (h : decodePacket b p = .ok i) : i.wf b = true ∧ p = encodePacket i := by
  obtain ⟨hrsv, row, hrow, hdec⟩ := decodePacket_ok_iff.mp h
  obtain ⟨hacc, hasm⟩ := decodeRow_ok_iff.mp hdec
  obtain ⟨hmem, hcode⟩ := rowOfCode_some hrow
  obtain ⟨hop, hinst, hops⟩ := operandWords_of_assemble hmem hacc.operandBits hasm
  have hopc : i.op.code = headerOpc p.header := by rw [hop, code_of_mem_opcodeTable row hmem, hcode]
  have hinst' : i.inst = headerInst p.header := by
    rw [hinst]
    split_ifs with ht
    · rfl
    · exact (hacc.instZero (by simpa using ht)).symm
  have hnops : BitVec.ofNat 4 i.operandWords.length = headerNops p.header := by simp [hops, hlen]
  refine ⟨Instr.wf_of_row (hopc ▸ hrow) hacc.converter (hinst' ▸ hacc.instExists), ?_⟩
  have hheader : i.header = p.header := by
    rw [Instr.header, hopc, hinst', hnops, ← hrsv, headerWord_fields]
  rw [encodePacket, hheader, hops]

/-! ## Decoding and encoding are inverse (O13, O14) -/

/-- Settles O13: the encoding is framed as its packet, and no check of R88 refuses that packet. -/
theorem decodeOfEncode : Obligations.DecodeOfEncode :=
  fun _ i rest hwf => decode_ok_iff.mpr ⟨encodePacket i, frame_encode i rest, decodePacket_encodePacket hwf⟩

/-- Settles O14: the packet framing finds stands at the head of the bytes, and it is the packet of its instruction. -/
theorem encodeOfDecode : Obligations.EncodeOfDecode := by
  intro b bs i rest h
  obtain ⟨p, hframe, hdec⟩ := decode_ok_iff.mp h
  obtain ⟨hbytes, hlen⟩ := frame_some hframe
  obtain ⟨hwf, rfl⟩ := encodePacket_of_decodePacket hlen hdec
  exact ⟨hwf, hbytes⟩

/-! ## What is not ill-formed is accepted (R88, R181; O17) -/

/-- With as many operand words as its row counts, an instruction is always assembled. -/
theorem assemble_total {row : OpRow} (n : InstNum) {ops : List Bits64} (hrow : row ∈ opcodeTable)
    (hlen : ops.length = row.operands.length) : ∃ i, assemble row.op n ops = .ok i := by
  simp only [opcodeTable, List.mem_cons, List.not_mem_nil, or_false] at hrow
  obtain rfl | rfl | rfl | rfl | rfl | rfl | rfl | rfl | rfl := hrow
  · obtain ⟨f0, g, q, fs, rfl⟩ := List.length_eq_four.mp hlen
    exact ⟨_, rfl⟩
  · obtain ⟨f0, q, fs, rfl⟩ := List.length_eq_three.mp hlen
    exact ⟨_, rfl⟩
  · obtain rfl := List.length_eq_zero_iff.mp hlen
    exact ⟨_, rfl⟩
  · obtain ⟨x, rfl⟩ := List.length_eq_one_iff.mp hlen
    exact ⟨_, rfl⟩
  · obtain rfl := List.length_eq_zero_iff.mp hlen
    exact ⟨_, rfl⟩
  all_goals
    obtain ⟨x, rfl⟩ := List.length_eq_one_iff.mp hlen
    exact ⟨_, rfl⟩

end Sys2Proof

namespace Sys2Proof.Machine

/-- A packet that shows none of the causes (a) to (g) has its reserved header bits 0 and is accepted by the row of its
OPC. -/
theorem accepts_of_not_illFormed {b : Build} {p : Packet} (hlen : p.ops.length = (headerNops p.header).toNat)
    (h : ¬ PacketIllFormed b p) :
    headerRsv p.header = 0 ∧ ∃ row, rowOfCode (headerOpc p.header) = some row ∧ row.Accepts b p := by
  simp only [PacketIllFormed, not_or, not_and, not_not, not_exists] at h
  obtain ⟨hrsv, hopc, hconv, h01, h02, h0308, hone, hzero, hinst, hbits01, hbits02, hbits10, hbits11⟩ := h
  refine ⟨hrsv, ?_⟩
  generalize headerOpc p.header = c at *
  simp only [List.mem_cons, List.not_mem_nil, or_false] at hopc
  obtain rfl | rfl | rfl | rfl | rfl | rfl | rfl | rfl | rfl := hopc
  · have hcount := congrArg BitVec.toNat (h01 rfl)
    obtain ⟨f0, g, q, fs, hops⟩ := List.length_eq_four.mp (hlen.trans hcount)
    exact ⟨_, rfl, nofun, hcount, nofun, fun _ => not_le.mp (hinst (by decide)),
      by simp [operandsLegal, OperandFormat.legal, hops, hbits01 rfl fs (by simp [hops])]⟩
  · have hcount := congrArg BitVec.toNat (h02 rfl)
    obtain ⟨f0, q, fs, hops⟩ := List.length_eq_three.mp (hlen.trans hcount)
    exact ⟨_, rfl, nofun, hcount, nofun, fun _ => not_le.mp (hinst (by decide)),
      by simp [operandsLegal, OperandFormat.legal, hops, hbits02 rfl fs (by simp [hops])]⟩
  · exact ⟨_, rfl, nofun, congrArg BitVec.toNat (h0308 (by decide)), nofun, fun _ => not_le.mp (hinst (by decide)), rfl⟩
  · have hcount := congrArg BitVec.toNat (hone (by decide))
    obtain ⟨x, hops⟩ := List.length_eq_one_iff.mp (hlen.trans hcount)
    exact ⟨_, rfl, nofun, hcount, nofun, fun _ => not_le.mp (hinst (by decide)), by rw [hops]; rfl⟩
  · exact ⟨_, rfl, nofun, congrArg BitVec.toNat (h0308 (by decide)), fun _ => hzero (by decide), nofun, rfl⟩
  all_goals
    have hcount := congrArg BitVec.toNat (hone (by decide))
    obtain ⟨x, hops⟩ := List.length_eq_one_iff.mp (hlen.trans hcount)
    refine ⟨_, rfl, fun _ => by simpa using hconv (by decide), hcount, fun _ => hzero (by decide), nofun, ?_⟩
  · simp [operandsLegal, OperandFormat.legal, hops, hbits10 rfl x (by simp [hops])]
  · simp [operandsLegal, OperandFormat.legal, hops, hbits11 rfl x (by simp [hops])]
  · rw [hops]; rfl
  · rw [hops]; rfl

/-- Settles O17: the row of its OPC accepts the packet, which then decodes, and a packet that decodes is an instruction's. -/
theorem otherPacketsRunAnInstruction : Obligations.OtherPacketsRunAnInstruction := by
  intro s p rest hrst hframe hformed
  obtain ⟨-, hlen⟩ := frame_some hframe
  obtain ⟨hrsv, row, hrow, hacc⟩ := accepts_of_not_illFormed hlen hformed
  obtain ⟨i, hasm⟩ := assemble_total (headerInst p.header) (rowOfCode_some hrow).1 (hlen.trans hacc.operandCount)
  have hdec : decodePacket Config.build p = .ok i :=
    decodePacket_ok_iff.mpr ⟨hrsv, row, hrow, decodeRow_ok_iff.mpr ⟨hacc, hasm⟩⟩
  obtain ⟨hwf, hp⟩ := encodePacket_of_decodePacket hlen hdec
  exact ⟨i, hwf, hp, step_of_frame hrst hframe hdec⟩

/-! ## Where a packet ends (R62, R90; O10) -/

theorem takeWords_eq_none_iff {n : Nat} {bs : List Byte} : takeWords n bs = none ↔ bs.length < 8 * n := by
  refine ⟨takeWords_none, fun hlt => ?_⟩
  rcases h : takeWords n bs with _ | ⟨ws, rest⟩
  · rfl
  · obtain ⟨rfl, rfl⟩ := takeWords_some h
    rw [List.length_append, flatMap_bytes64_length] at hlt
    omega

/-- Four bytes are a header whatever they are, and its NOPS field says how many bytes are still to come. -/
theorem frame_eq_none_iff {b0 b1 b2 b3 : Byte} {bs : List Byte} :
    frame (b0 :: b1 :: b2 :: b3 :: bs) = none ↔ bs.length < 8 * (headerNops (word32 b0 b1 b2 b3)).toNat := by
  rw [← takeWords_eq_none_iff, frame]
  rcases takeWords _ bs with _ | ⟨ws, rest⟩ <;> simp

/-- The header of a packet is its first four bytes. -/
theorem header_of_frame {b0 b1 b2 b3 : Byte} {bs rest : List Byte} {p : Packet}
    (h : frame (b0 :: b1 :: b2 :: b3 :: bs) = some (p, rest)) : p.header = word32 b0 b1 b2 b3 := by
  have hbytes := (frame_some h).1
  simp only [Packet.bytes, bytes32, List.cons_append, List.cons.injEq] at hbytes
  obtain ⟨rfl, rfl, rfl, rfl, -⟩ := hbytes
  exact (word32_extract p.header).symm

theorem frame_eq_none_of_length_lt {bs : List Byte} (h : bs.length < 4) : frame bs = none := by
  rcases bs with _ | ⟨b0, _ | ⟨b1, _ | ⟨b2, _ | ⟨b3, bs⟩⟩⟩⟩
  · rfl
  · rfl
  · rfl
  · rfl
  · simp only [List.length_cons] at h
    omega

/-! ## The status word of a response (R85, R86; O22) -/

section
variable (r : Response)

/-- The word's fields, from the bottom: RC, reserved, OPC, NRES, reserved. -/
theorem Response.statusWord_fields :
    r.statusWord.extractLsb' 0 4 = r.rc.code ∧ r.statusWord.extractLsb' 4 4 = 0 ∧ r.statusWord.extractLsb' 8 8 = r.opc ∧
    r.statusWord.extractLsb' 16 4 = BitVec.ofNat 4 r.results.length ∧ r.statusWord.extractLsb' 20 12 = 0 := by
  refine ⟨?_, ?_, ?_, ?_, ?_⟩ <;>
  · apply BitVec.eq_of_getLsbD_eq
    intro k hk
    simp only [statusWord, BitVec.getLsbD_append, BitVec.getLsbD_extractLsb']
    interval_cases k <;> simp

/-- NRES counts the result words, as long as there are fewer than 16 of them. -/
theorem Response.statusWord_nres_toNat (h : r.results.length < 16) :
    (r.statusWord.extractLsb' 16 4).toNat = r.results.length := by
  obtain ⟨-, -, -, hnres, -⟩ := r.statusWord_fields
  rw [hnres, BitVec.toNat_ofNat, Nat.mod_eq_of_lt h]

theorem Response.bytes_length : r.bytes.length = 4 + 8 * r.results.length := by
  rw [bytes, List.length_append, bytes32_length, flatMap_bytes64_length]

end

/-- Settles O10: framing reads NOPS and takes as many operand words as it says, and a field of 4 bits says 15 at most. -/
theorem packetEndFromNopsAlone : Obligations.PacketEndFromNopsAlone := by
  refine ⟨fun bs => frame_eq_none_of_length_lt, fun b0 b1 b2 b3 bs => ⟨frame_eq_none_iff, fun p rest h => ?_⟩, fun r hr => ?_⟩
  · obtain ⟨hbytes, hops⟩ := frame_some h
    have hlen : p.bytes.length = 4 + 8 * (headerNops p.header).toNat := hops ▸ p.bytes_length
    have hnops := (headerNops p.header).isLt
    exact ⟨header_of_frame h, hbytes, hlen, by omega, by omega⟩
  · rw [r.statusWord_nres_toNat hr, r.bytes_length]

/-- Settles O22: the word is its fields, and the response is the word and the result words. -/
theorem responseWordFields : Obligations.ResponseWordFields := by
  intro r hr
  obtain ⟨hrc, hlow, hopc, -, hhigh⟩ := r.statusWord_fields
  exact ⟨hrc, hlow, hopc, r.statusWord_nres_toNat hr, hhigh, r.bytes_length⟩

/-! ## Header words and words written out (R82, R83, R91; O11, O12) -/

/-- With the reserved bits 0, a header word is the sum of its fields, each in its place. -/
theorem headerWord_eq_add (c : Byte) (n : InstNum) (k : BitVec 4) :
    headerWord c n k 0 = (c.setWidth 32 + k.setWidth 32 * 0x1000) + n.setWidth 32 * 0x100 := by
  apply BitVec.eq_of_toNat_eq
  have hc := c.isLt
  have hn := n.isLt
  have hk := k.isLt
  simp only [headerWord, BitVec.toNat_append, ← Nat.shiftLeft_add_eq_or_of_lt hc, ← Nat.shiftLeft_add_eq_or_of_lt hn,
    ← Nat.shiftLeft_add_eq_or_of_lt hk]
  simp [Nat.shiftLeft_eq]
  omega

/-- Settles O11: the fields of each command's header, added up. -/
theorem headerWordsOfCommands : Obligations.HeaderWordsOfCommands :=
  ⟨fun n _ _ _ _ => headerWord_eq_add 0x01 n 4, fun n _ _ _ => headerWord_eq_add 0x02 n 3,
    fun n => headerWord_eq_add 0x03 n 0, fun n _ => headerWord_eq_add 0x04 n 1,
    show headerWord 0x08 0 0 0 = 0x00000008 by decide, fun _ => show headerWord 0x10 0 1 0 = 0x00001010 by decide,
    fun _ => show headerWord 0x11 0 1 0 = 0x00001011 by decide, fun _ => show headerWord 0x12 0 1 0 = 0x00001012 by decide,
    fun _ => show headerWord 0x13 0 1 0 = 0x00001013 by decide⟩

/-- Settles O12: the decoder evaluated on the four packets. -/
theorem encodedWordsDecode : Obligations.EncodedWordsDecode := ⟨rfl, rfl, rfl, rfl⟩

end Sys2Proof.Machine
end

section
/-! PROOF. Decimal literals (R93, log 17; O24): a literal's text is taken apart at its exponent letter and its point, each
part reads as what it writes, and the value that the parts stand for is rounded once. -/

namespace Sys2Proof.Machine.Asm

/-! ## The separators are in no run of digits -/

/-- No sign, point or exponent letter is a digit. -/
theorem ne_of_mem_digitText {c d : Char} {ds : List (Fin 10)} (hc : c ∈ digitText ds)
    (hd : d ∈ ['-', '+', '.', 'e', 'E', 'i', 'n', '#']) : c ≠ d := by
  obtain ⟨i, rfl⟩ := mem_digitText hc
  exact (digit_char i).2 d hd

theorem digitText_no_point (ds : List (Fin 10)) : ∀ c ∈ digitText ds, (c == '.') = false :=
  fun _ hc => beq_eq_false_iff_ne.mpr (ne_of_mem_digitText hc (by decide))

theorem digitText_no_exponent (ds : List (Fin 10)) : ∀ c ∈ digitText ds, (c == 'e' || c == 'E') = false :=
  fun _ hc => Bool.or_eq_false_iff.mpr ⟨beq_eq_false_iff_ne.mpr (ne_of_mem_digitText hc (by decide)),
    beq_eq_false_iff_ne.mpr (ne_of_mem_digitText hc (by decide))⟩

theorem signText_no_exponent (sign : Option Bool) : ∀ c ∈ signText sign, (c == 'e' || c == 'E') = false := by
  match sign with
  | none => exact nofun
  | some true | some false => simp [signText]

theorem fractionText_no_exponent (fraction : Option (List (Fin 10))) :
    ∀ c ∈ fractionText fraction, (c == 'e' || c == 'E') = false := by
  cases fraction with
  | none => exact nofun
  | some ds => exact List.forall_mem_cons.mpr ⟨rfl, digitText_no_exponent ds⟩

/-! ## The parts of a literal -/

/-- The part before the exponent reads as its digits, the exponent less the number of digits after the point. -/
theorem mantissa_text (neg : Bool) {whole : List (Fin 10)} {fraction : Option (List (Fin 10))} (k : Int) (hw : whole ≠ [])
    (hf : fraction.all (!·.isEmpty) = true) :
    mantissa neg (digitText whole ++ fractionText fraction) k
      = some (decimalToF64 neg (digitsValue (whole ++ fraction.getD [])) (k - (fraction.getD []).length)) := by
  cases fraction with
  | none =>
    simp [mantissa, fractionText, splitOn_none _ (digitText_no_point whole), decimal_digitText hw]
  | some ds =>
    have hds : ds ≠ [] := by simpa using hf
    have hsplit : splitOn (· == '.') (digitText whole ++ '.' :: digitText ds) = [digitText whole, digitText ds] := by
      rw [splitOn_append rfl _ _ (digitText_no_point whole), splitOn_none _ (digitText_no_point ds)]
    simp [mantissa, fractionText, hsplit, decimal_digitText hw, decimal_digitText hds, digitText_append,
      decimal_digitText (List.append_ne_nil_of_left_ne_nil hw ds)]

theorem DecimalLiteral.wf_iff (l : DecimalLiteral) : l.wf = true ↔
    l.whole ≠ [] ∧ l.fraction.all (!·.isEmpty) = true ∧ l.exponent.all (!·.2.2.isEmpty) = true := by
  simp [DecimalLiteral.wf, and_assoc]

/-- A literal without its sign reads as its digits and its scale. -/
theorem unsignedLiteral_text (l : DecimalLiteral) (neg : Bool) (hwf : l.wf = true) :
    unsignedLiteral neg (digitText l.whole ++ fractionText l.fraction ++ exponentText l.exponent)
      = some (decimalToF64 neg l.digits l.scale) := by
  obtain ⟨hw, hf, he⟩ := l.wf_iff.mp hwf
  obtain ⟨sign, whole, fraction, exponent⟩ := l
  have hno : ∀ c ∈ digitText whole ++ fractionText fraction, (c == 'e' || c == 'E') = false :=
    List.forall_mem_append.mpr ⟨digitText_no_exponent whole, fractionText_no_exponent fraction⟩
  cases exponent with
  | none =>
    simp only [exponentText, List.append_nil, unsignedLiteral, splitOn_none _ hno]
    exact mantissa_text neg 0 hw hf
  | some e =>
    obtain ⟨upper, esign, ds⟩ := e
    have hds : ds ≠ [] := by simpa using he
    have hsplit : splitOn (fun c => c == 'e' || c == 'E')
        (digitText whole ++ fractionText fraction ++ exponentText (some (upper, esign, ds)))
          = [digitText whole ++ fractionText fraction, signText esign ++ digitText ds] := by
      rw [exponentText, splitOn_append (by cases upper <;> rfl) _ _ hno,
        splitOn_none _ (List.forall_mem_append.mpr ⟨signText_no_exponent esign, digitText_no_exponent ds⟩)]
    simp only [unsignedLiteral, hsplit, exponent_text esign hds]
    exact mantissa_text neg _ hw hf

/-- A well-formed literal's text, sign included, is read as that literal and as no other kind of operand. -/
theorem f64_text (l : DecimalLiteral) (hwf : l.wf = true) : f64 l.text = some (decimalToF64 l.neg l.digits l.scale) := by
  obtain ⟨d, ds, hds⟩ := List.exists_cons_of_ne_nil (l.wf_iff.mp hwf).1
  rw [← unsignedLiteral_text l l.neg hwf, DecimalLiteral.text, DecimalLiteral.neg, hds]
  match l.sign with
  | none => exact f64_of_digit d _
  | some true => exact f64_of_sign_digit true d _
  | some false => exact f64_of_sign_digit false d _

/-! ## The value of a literal (R9, R93) -/

theorem decimalToF64_natCast (neg : Bool) (d k : Nat) :
    decimalToF64 neg d k = pack neg (roundMag (d * 10 ^ k * unit) 1) := by
  simp [decimalToF64]

theorem decimalToF64_neg_natCast (neg : Bool) (d k : Nat) :
    decimalToF64 neg d (-(k : Int)) = pack neg (roundMag (d * unit) (10 ^ k)) := by
  cases k with
  | zero => simp [decimalToF64]
  | succ k => rw [decimalToF64, if_neg (by omega), neg_neg, Int.toNat_natCast]

/-- Settles O24: a literal's text reads as its parts, and the value they stand for is packed as a ratio rounded once. -/
theorem decimalLiteralNearest : Obligations.DecimalLiteralNearest := by
  refine ⟨f64_text, fun neg d k => ?_, rfl, rfl, rfl, by decide +kernel⟩
  rw [decimalToF64_natCast, decimalToF64_neg_natCast]
  refine ⟨signBit_pack neg (roundMag_lt _ _), ?_, signBit_pack neg (roundMag_lt _ _), ?_⟩
  · exact_mod_cast pack_roundsTo neg (d * 10 ^ k * unit) 1 Nat.one_pos
  · exact_mod_cast pack_roundsTo neg (d * unit) (10 ^ k) (by positivity)

end Sys2Proof.Machine.Asm
end

section
/-! PROOF. The pseudo-instructions (R98 to R101; O25, O26): what the host gets back for a command it sends, the codec chains,
and that an interleaved stream on two instances is the two channels apart. -/

namespace Sys2Proof.Machine

/-! ## One command sent and answered (R61, R71) -/

/-- A command sent to a ready block is executed once the response before it is sent, and its response comes back. -/
theorem issue_of_exec {i : Instr} {s u : State} {opc : Byte} {rc : ResultCode} {rs : List Bits64} (hs : s.Ready)
    (hwf : i.wf Config.build = true) (he : exec i s.sendResponse = .next (u.answered opc rc rs)) :
    issue i s = some (u.answered opc rc rs, { rc := rc, opc := opc, results := rs }) := by
  have ⟨hrst, hrx, hheld⟩ := hs
  have hstream : (s.hostSend (encode i)).rx ++ (s.hostSend (encode i)).held = encode i ++ [] := by simp [hrx, hheld]
  have hstep : step (s.hostSend (encode i)) = .next (u.answered opc rc rs) := by
    rw [step_of_encode (s := s.hostSend (encode i)) hrst hwf hstream, hs.hostSend_accept, State.hostSend_nil, he]
  simp [issue, hstep]

/-- The result word of a command that completes with one is what the host forwards. -/
theorem issueFor_of_exec {i : Instr} {s u : State} {opc : Byte} {w : Bits64} (hs : s.Ready)
    (hwf : i.wf Config.build = true) (he : exec i s.sendResponse = .next (u.answered opc .ok [w])) :
    issueFor i s = some (u.answered opc .ok [w], w) := by
  simp [issueFor, issue_of_exec hs hwf he]

theorem issueAll_cons {i : Instr} {is : List Instr} {s t u : State} {r : Response} {rs : List Response}
    (hi : issue i s = some (t, r)) (his : issueAll is t = some (u, rs)) : issueAll (i :: is) s = some (u, r :: rs) := by
  simp [issueAll, hi, his]

/-! ## One tick sent (R151) -/

/-- The response to a completed tick. -/
def tickResponse (y : Bits64) : Response := { rc := .ok, opc := Opcode.tick.code, results := [y] }

/-- The state after the host has sent a tick of the sample `x` to the configured instance `k`. -/
def State.afterTick (s : State) (k : Fin Config.numInst) (x : Bits64) : State :=
  (s.sendResponse.setInst k ((s.getInst k).tickNext x)).answered Opcode.tick.code .ok [(s.getInst k).tickOut x]

section
variable {s : State} {k j : Fin Config.numInst} (x : Bits64)

@[simp] theorem State.afterTick_inst : (s.afterTick k x).inst = s.inst.set k ((s.getInst k).tickNext x) := rfl

@[simp] theorem State.afterTick_getInst_self : (s.afterTick k x).getInst k = (s.getInst k).tickNext x := by
  simp [State.afterTick]

theorem State.afterTick_getInst_of_ne (h : k ≠ j) : (s.afterTick k x).getInst j = s.getInst j := by
  simp [State.afterTick, State.getInst_setInst_of_ne _ _ h]

theorem State.Ready.afterTick (hs : s.Ready) : (s.afterTick k x).Ready := hs

end

section
variable {s : State} {n : InstNum} {hn : n.toNat < Config.numInst} (x : Bits64)

/-- On a configured instance a tick completes with the filter's output and shifts the delay registers. -/
theorem exec_tick_configured (hc : (s.getInst ⟨n.toNat, hn⟩).cfgd = true) :
    exec (.tick n x) s = .next ((s.setInst ⟨n.toNat, hn⟩ ((s.getInst ⟨n.toNat, hn⟩).tickNext x)).answered
      Opcode.tick.code .ok [(s.getInst ⟨n.toNat, hn⟩).tickOut x]) := by
  simp only [exec, execTick, onInst_of_lt hn, hc, if_true, respond_eq]

theorem issue_tick (hs : s.Ready) (hc : (s.getInst ⟨n.toNat, hn⟩).cfgd = true) :
    issue (.tick n x) s
      = some (s.afterTick ⟨n.toNat, hn⟩ x, tickResponse ((s.getInst ⟨n.toNat, hn⟩).tickOut x)) :=
  issue_of_exec hs (decide_eq_true hn) (exec_tick_configured (s := s.sendResponse) x hc)

theorem issueFor_tick (hs : s.Ready) (hc : (s.getInst ⟨n.toNat, hn⟩).cfgd = true) :
    issueFor (.tick n x) s = some (s.afterTick ⟨n.toNat, hn⟩ x, (s.getInst ⟨n.toNat, hn⟩).tickOut x) :=
  issueFor_of_exec hs (decide_eq_true hn) (exec_tick_configured (s := s.sendResponse) x hc)

end

/-! ## The codec chains (R99, R100) -/

/-- The state after the host has sent a converter command of the operation `op` that completes with the result word `w`. -/
def State.afterResult (s : State) (op : Opcode) (w : Bits64) : State := s.sendResponse.answered op.code .ok [w]

section
variable {s : State} (hs : s.Ready)
include hs

theorem issueFor_dec8 (b : Byte) : issueFor (.dec8 b) s = some (s.afterResult .dec8 (dec8Value b), dec8Value b) :=
  issueFor_of_exec hs rfl rfl

theorem issueFor_dec16 (b : BitVec 16) : issueFor (.dec16 b) s = some (s.afterResult .dec16 (dec16Value b), dec16Value b) :=
  issueFor_of_exec hs rfl rfl

theorem issueFor_enc8 (x : Bits64) :
    issueFor (.enc8 x) s = some (s.afterResult .enc8 (b8Result (enc8Code x)), b8Result (enc8Code x)) :=
  issueFor_of_exec hs rfl rfl

theorem issueFor_enc16 (x : Bits64) :
    issueFor (.enc16 x) s = some (s.afterResult .enc16 (b16Result (enc16Code x)), b16Result (enc16Code x)) :=
  issueFor_of_exec hs rfl rfl

theorem State.Ready.afterResult (op : Opcode) (w : Bits64) : (s.afterResult op w).Ready := hs

end

/-- The low byte of an 8-bit result word is the code. -/
theorem b8Result_low (c : Byte) : (b8Result c).extractLsb' 0 8 = c := extract_zext c (by decide)

/-- A byte of a 16-bit result word, below bit 16, is that byte of the code. -/
theorem b16Result_byte (c : BitVec 16) {k : Nat} (hk : k + 8 ≤ 16) :
    (b16Result c).extractLsb' k 8 = c.extractLsb' k 8 := by
  apply BitVec.eq_of_getLsbD_eq
  intro i hi
  simp only [b16Result, BitVec.getLsbD_extractLsb', BitVec.getLsbD_setWidth]
  simp [hi, show k + i < 64 by omega]

theorem bqPcm16_of_issueFor {s s1 s2 s3 : State} {n : InstNum} {lo hi : Byte} {x y o : Bits64}
    (hdec : issueFor (.dec16 (hi ++ lo)) s = some (s1, x)) (htick : issueFor (.tick n x) s1 = some (s2, y))
    (henc : issueFor (.enc16 y) s2 = some (s3, o)) :
    bqPcm16 n lo hi s = some (s3, o.extractLsb' 0 8, o.extractLsb' 8 8) := by
  simp [bqPcm16, hdec, htick, henc]

theorem bqPcm8_of_issueFor {s s1 s2 s3 : State} {n : InstNum} {b : Byte} {x y o : Bits64}
    (hdec : issueFor (.dec8 b) s = some (s1, x)) (htick : issueFor (.tick n x) s1 = some (s2, y))
    (henc : issueFor (.enc8 y) s2 = some (s3, o)) : bqPcm8 n b s = some (s3, o.extractLsb' 0 8) := by
  simp [bqPcm8, hdec, htick, henc]

/-- Settles O25: each chain is three commands in a row, of which the tick alone writes a register. -/
theorem codecChains : Obligations.CodecChains := by
  intro s n hn hs hc
  refine ⟨fun lo hi => ?_, fun b => ?_⟩
  · have hs1 := hs.afterResult .dec16 (dec16Value (hi ++ lo))
    have htick := issueFor_tick (dec16Value (hi ++ lo)) hs1 (hn := hn) hc
    have hchain := bqPcm16_of_issueFor (issueFor_dec16 hs _) htick (issueFor_enc16 (hs1.afterTick _) _)
    rw [b16Result_byte _ (by decide), b16Result_byte _ (by decide)] at hchain
    exact ⟨_, hchain, rfl⟩
  · have hs1 := hs.afterResult .dec8 (dec8Value b)
    have htick := issueFor_tick (dec8Value b) hs1 (hn := hn) hc
    have hchain := bqPcm8_of_issueFor (issueFor_dec8 hs _) htick (issueFor_enc8 (hs1.afterTick _) _)
    rw [b8Result_low] at hchain
    exact ⟨_, hchain, rfl⟩

/-! ## Buffers and interleaved streams (R98, R101, R153) -/

theorem bqProcess_cons (n : InstNum) (x : Bits64) (xs : List Bits64) :
    bqProcess n (x :: xs) = .tick n x :: bqProcess n xs := rfl

theorem bqProcess2_cons (m n : InstNum) (f : Bits64 × Bits64) (frames : List (Bits64 × Bits64)) :
    bqProcess2 m n (f :: frames) = .tick m f.1 :: .tick n f.2 :: bqProcess2 m n frames := rfl

/-- A buffer of ticks runs the recurrence over it and writes no other register. -/
theorem issueAll_bqProcess {n : InstNum} (hn : n.toNat < Config.numInst) (xs : List Bits64) {s : State} (hs : s.Ready)
    (hc : (s.getInst ⟨n.toNat, hn⟩).cfgd = true) :
    ∃ t, issueAll (bqProcess n xs) s = some (t, ((s.getInst ⟨n.toNat, hn⟩).process xs).2.map tickResponse) ∧ t.Ready ∧
      t.inst = s.inst.set n.toNat ((s.getInst ⟨n.toNat, hn⟩).process xs).1 hn := by
  induction xs generalizing s with
  | nil => exact ⟨s, rfl, hs, by simp [Inst.process, State.getInst]⟩
  | cons x xs ih =>
    obtain ⟨t, hrun, ht, hinst⟩ := ih (s := s.afterTick ⟨n.toNat, hn⟩ x) (hs.afterTick x) (by simpa using hc)
    rw [State.afterTick_getInst_self] at hrun hinst
    refine ⟨t, issueAll_cons (issue_tick x hs hc) hrun, ht, ?_⟩
    rw [hinst, State.afterTick_inst, Vector.set_set, Inst.process]

/-- An interleaved buffer runs the recurrence of each of the two instances over its own channel. -/
theorem issueAll_bqProcess2 {m n : InstNum} (hm : m.toNat < Config.numInst) (hn : n.toNat < Config.numInst)
    (hne : m.toNat ≠ n.toNat) (frames : List (Bits64 × Bits64)) {s : State} (hs : s.Ready)
    (hcm : (s.getInst ⟨m.toNat, hm⟩).cfgd = true) (hcn : (s.getInst ⟨n.toNat, hn⟩).cfgd = true) :
    ∃ t, issueAll (bqProcess2 m n frames) s = some (t, interleave
        (((s.getInst ⟨m.toNat, hm⟩).process (frames.map Prod.fst)).2.map tickResponse)
        (((s.getInst ⟨n.toNat, hn⟩).process (frames.map Prod.snd)).2.map tickResponse)) ∧
      t.inst = (s.inst.set m.toNat ((s.getInst ⟨m.toNat, hm⟩).process (frames.map Prod.fst)).1 hm).set n.toNat
        ((s.getInst ⟨n.toNat, hn⟩).process (frames.map Prod.snd)).1 hn := by
  have hmn : (⟨m.toNat, hm⟩ : Fin Config.numInst) ≠ ⟨n.toNat, hn⟩ := fun h => hne (Fin.mk.inj_iff.mp h)
  induction frames generalizing s with
  | nil => exact ⟨s, rfl, by simp [Inst.process, State.getInst]⟩
  | cons f frames ih =>
    have hs1 : (s.afterTick ⟨m.toNat, hm⟩ f.1).Ready := hs.afterTick f.1
    have hn1 : (s.afterTick ⟨m.toNat, hm⟩ f.1).getInst ⟨n.toNat, hn⟩ = s.getInst ⟨n.toNat, hn⟩ :=
      State.afterTick_getInst_of_ne f.1 hmn
    have hm2 : ((s.afterTick ⟨m.toNat, hm⟩ f.1).afterTick ⟨n.toNat, hn⟩ f.2).getInst ⟨m.toNat, hm⟩
        = (s.getInst ⟨m.toNat, hm⟩).tickNext f.1 := by
      rw [State.afterTick_getInst_of_ne f.2 hmn.symm, State.afterTick_getInst_self]
    have hn2 : ((s.afterTick ⟨m.toNat, hm⟩ f.1).afterTick ⟨n.toNat, hn⟩ f.2).getInst ⟨n.toNat, hn⟩
        = (s.getInst ⟨n.toNat, hn⟩).tickNext f.2 := by
      rw [State.afterTick_getInst_self, hn1]
    have hl := issue_tick f.1 hs hcm
    have hr := issue_tick f.2 hs1 (hn1 ▸ hcn)
    obtain ⟨t, hrun, hinst⟩ := ih (hs1.afterTick (k := ⟨n.toNat, hn⟩) f.2) (by simpa [hm2] using hcm) (by simpa [hn2] using hcn)
    rw [hm2, hn2] at hrun hinst
    rw [hn1] at hr
    refine ⟨t, issueAll_cons hl (issueAll_cons hr hrun), ?_⟩
    rw [hinst, State.afterTick_inst, hn1, State.afterTick_inst, Vector.set_comm _ _ hne.symm, Vector.set_set,
      Vector.set_set]
    rfl

/-- Settles O26: both ways the registers and the outputs of each instance are those of its own channel. -/
theorem interleavedStreamIsTwoChannels : Obligations.InterleavedStreamIsTwoChannels := by
  intro s m n frames hm hn hne hs hcm hcn
  have hne' : m.toNat ≠ n.toNat := fun h => hne (BitVec.eq_of_toNat_eq h)
  obtain ⟨t, hrun, hinst⟩ := issueAll_bqProcess2 hm hn hne' frames hs hcm hcn
  obtain ⟨t1, hrun1, hs1, hinst1⟩ := issueAll_bqProcess hm (frames.map Prod.fst) hs hcm
  have hn1 : t1.getInst ⟨n.toNat, hn⟩ = s.getInst ⟨n.toNat, hn⟩ := by
    simp [State.getInst, hinst1, Vector.getElem_set_ne hm hn hne']
  obtain ⟨t2, hrun2, -, hinst2⟩ := issueAll_bqProcess hn (frames.map Prod.snd) hs1 (hn1 ▸ hcn)
  rw [hn1] at hrun2 hinst2
  exact ⟨t, t1, t2, _, _, hrun1, hrun2, hrun, by rw [hinst, hinst2, hinst1]⟩

end Sys2Proof.Machine
end

section
/-! PROOF. The sample converter of 40_converter.md (O27 to O36). A truncation is integer division toward zero, a decoded
code is its value exactly, and a truncated scaled sample lies less than one step from the exact product, because a rounded
product does not cross an integer. -/

namespace Sys2Proof.Machine

theorem unit_cast_pos : (0 : Int) < unit := Int.natCast_pos.mpr unit_pos

/-! ## Truncation as integer division (R10) -/

theorem trunc_eq_tdiv (v : Bits64) : trunc v = (sunits v).tdiv unit := by
  unfold trunc sunits
  split
  · rw [Int.neg_tdiv]; rfl
  · rfl

/-- Truncation moves a value by less than 1. -/
theorem abs_trunc_sub_lt (v : Bits64) : |trunc v * unit - sunits v| < unit := by
  have hdecomp := Int.mul_tdiv_add_tmod (sunits v) unit
  have hrem : ((sunits v).tmod unit).natAbs < unit := by
    rw [Int.natAbs_tmod]
    exact Nat.mod_lt _ unit_pos
  have hdiff : trunc v * unit - sunits v = -(sunits v).tmod unit := by rw [trunc_eq_tdiv]; linarith
  rw [hdiff, abs_neg, Int.abs_eq_natAbs]
  exact_mod_cast hrem

/-! ## The clamp (R110) -/

theorem units_one64 : units one64 = unit := by decide +kernel

theorem sunits_one64 : sunits one64 = unit := by decide +kernel

theorem sunits_negOne64 : sunits negOne64 = -unit := by decide +kernel

section
variable {x : Bits64}

theorem clamp_nan (h : isNaN x = true) : clamp x = posZero := by simp [clamp, h]

theorem clamp_above (h : isNaN x = false) (hgt : (unit : Int) < sunits x) : clamp x = one64 := by
  have hone : flt one64 x = true := (flt_iff (by decide) h).mpr (sunits_one64.trans_lt hgt)
  simp [clamp, h, hone]

theorem flt_one64_of_le (h : isNaN x = false) (hle : sunits x ≤ unit) : flt one64 x = false :=
  Bool.eq_false_iff.mpr fun hlt => ((flt_iff (by decide) h).mp hlt).not_ge (hle.trans_eq sunits_one64.symm)

theorem clamp_below (h : isNaN x = false) (hlt : sunits x < -(unit : Int)) : clamp x = negOne64 := by
  have hone : flt one64 x = false := flt_one64_of_le h (by omega)
  have hneg : flt x negOne64 = true := (flt_iff h (by decide)).mpr (hlt.trans_eq sunits_negOne64.symm)
  simp [clamp, h, hone, hneg]

theorem clamp_within (h : isNaN x = false) (hlo : -(unit : Int) ≤ sunits x) (hhi : sunits x ≤ unit) : clamp x = x := by
  have hone : flt one64 x = false := flt_one64_of_le h hhi
  have hneg : flt x negOne64 = false :=
    Bool.eq_false_iff.mpr fun hlt => ((flt_iff h (by decide)).mp hlt).not_ge (sunits_negOne64.trans_le hlo)
  simp [clamp, h, hone, hneg]

end

/-- Settles O31: the four arms of the clamp, and the two infinities. -/
theorem clampCases : Obligations.ClampCases := fun _ =>
  ⟨clamp_nan, clamp_above, clamp_below, clamp_within, by decide +kernel, by decide +kernel⟩

/-- The value of a clamped word. -/
theorem sunits_clamp (x : Bits64) :
    sunits (clamp x) = if isNaN x then 0 else max (-(unit : Int)) (min unit (sunits x)) := by
  cases h : isNaN x with
  | true => rw [clamp_nan h]; rfl
  | false =>
    rw [if_neg Bool.false_ne_true]
    rcases lt_or_ge (unit : Int) (sunits x) with hgt | hhi
    · rw [clamp_above h hgt, sunits_one64]; omega
    rcases lt_or_ge (sunits x) (-(unit : Int)) with hlt | hlo
    · rw [clamp_below h hlt, sunits_negOne64]; omega
    · rw [clamp_within h hlo hhi]; omega

theorem abs_sunits_clamp_le (x : Bits64) : |sunits (clamp x)| ≤ unit := by
  rw [sunits_clamp, abs_le]
  split <;> omega

/-- A word in [-1, 1] is finite: its magnitude bits are at most those of 1.0. -/
theorem isFinite_of_abs_le {x : Bits64} (h : |sunits x| ≤ unit) : isFinite x = true := by
  rw [abs_sunits, ← units_one64, Nat.cast_le, units_eq, units_eq, magUnits_strictMono.le_iff_le] at h
  exact (isFinite_iff x).mpr (h.trans_lt (by decide))

/-! ## Exact and rounded products (R9) -/

/-- A product of finite words that fits 53 bits is exact. -/
theorem fmul_exact {a b : Bits64} {k s : Nat} (ha : isFinite a = true) (hb : isFinite b = true) (hk : k < 2 ^ 53)
    (hs : s ≤ 2045) (h : k * 2 ^ s * unit = units a * units b) :
    isFinite (fmul a b) = true ∧ sunits (fmul a b) * unit = sunits a * sunits b := by
  obtain ⟨hfin, hval, -, -⟩ := pack_repr (signBit a != signBit b) unit_pos hk hs h
  rw [fmul_finite ha hb]
  refine ⟨hfin, ?_⟩
  rw [hval, mul_assoc, ← Nat.cast_mul, h, sgn_xor, sunits_eq a, sunits_eq b]
  push_cast
  ring

theorem int53_lt_overflow : 2 ^ 53 * unit < overflowUnits := by decide +kernel

section
variable {c f : Bits64} {n : Nat} (hf : isFinite f = true) (hval : sunits f = n * unit) (hn : n + 1 < 2 ^ 53)
  (hc : |sunits c| ≤ unit)
include hf hval hn hc

/-- The rounded product of a word in [-1, 1] and an integer word is finite, and no integer lies nearer to the exact
product. -/
theorem fmul_nearer_than_integer {j : Int} (hj : |j| < 2 ^ 53) :
    |sunits (fmul c f) - sunits c * n| ≤ |j * unit - sunits c * n| := by
  have hu := unit_cast_pos
  obtain ⟨hfin, -, -, hnear⟩ := productCorrectlyRounded c f (isFinite_of_abs_le hc) hf
  have hexact : sunits c * sunits f = sunits c * n * unit := by rw [hval, mul_assoc]
  have hmag : |sunits c * n| < overflowUnits := by
    calc |sunits c * n| = |sunits c| * n := by rw [abs_mul, Nat.abs_cast]
      _ ≤ unit * 2 ^ 53 := mul_le_mul hc (by exact_mod_cast (by omega : n ≤ 2 ^ 53)) (by positivity) hu.le
      _ < overflowUnits := by rw [mul_comm]; exact_mod_cast int53_lt_overflow
  have hfinite : isFinite (fmul c f) = true := by
    rw [hfin, hexact, abs_mul, Nat.abs_cast]
    exact mul_lt_mul_of_pos_right hmag hu
  obtain ⟨hjfin, hjval⟩ := intToF64_exact hj
  have h := (hnear hfinite (intToF64 j) hjfin).1
  rw [hexact, hjval, ← sub_mul, ← sub_mul, abs_mul, abs_mul, Nat.abs_cast] at h
  exact le_of_mul_le_mul_right h hu

/-- Rounding does not carry the product over an integer. -/
theorem fmul_between_integers {j : Int} (hj : |j| < 2 ^ 53) :
    (sunits c * n ≤ j * unit → sunits (fmul c f) ≤ j * unit) ∧
    (j * unit ≤ sunits c * n → j * unit ≤ sunits (fmul c f)) := by
  have h := fmul_nearer_than_integer hf hval hn hc hj
  constructor
  · intro hle
    rw [abs_of_nonneg (sub_nonneg.mpr hle)] at h
    linarith [le_abs_self (sunits (fmul c f) - sunits c * n)]
  · intro hle
    rw [abs_of_nonpos (sub_nonpos.mpr hle)] at h
    linarith [neg_abs_le (sunits (fmul c f) - sunits c * n)]

/-- The truncated product keeps the range of the integer. -/
theorem abs_trunc_fmul_le : |trunc (fmul c f)| ≤ n := by
  obtain ⟨hlo, hhi⟩ := abs_le.mp hc
  have hup := (fmul_between_integers hf hval hn hc (j := n) (by rw [Nat.abs_cast]; omega)).1 (by nlinarith)
  have hdown := (fmul_between_integers hf hval hn hc (j := -n) (by rw [abs_neg, Nat.abs_cast]; omega)).2 (by nlinarith)
  obtain ⟨hbelow, habove⟩ := abs_lt.mp (abs_trunc_sub_lt (fmul c f))
  rw [abs_le]
  constructor
  · by_contra! hbeyond
    nlinarith
  · by_contra! hbeyond
    nlinarith

/-- The truncated rounded product lies less than 1 from the exact product: rounding reaches at most the next integer, and
truncation stops before it. -/
theorem abs_trunc_fmul_sub_lt : |trunc (fmul c f) * unit - sunits c * n| < unit := by
  obtain ⟨hlo, hhi⟩ := abs_le.mp (abs_trunc_fmul_le hf hval hn hc)
  obtain ⟨hbelow, habove⟩ := abs_lt.mp (abs_trunc_sub_lt (fmul c f))
  have hprev := (fmul_between_integers hf hval hn hc (j := trunc (fmul c f) - 1) (by rw [abs_lt]; omega)).1
  have hnext := (fmul_between_integers hf hval hn hc (j := trunc (fmul c f) + 1) (by rw [abs_lt]; omega)).2
  rw [abs_lt]
  constructor
  · by_contra! hfar
    linarith [hnext (by linarith)]
  · by_contra! hfar
    linarith [hprev (by linarith)]

end

/-! ## What decoding and encoding a sample come to (R111 to R114) -/

/-- The word `w` is exactly the code `v` divided by `N`. -/
structure DecodesTo (N : Nat) (v : Int) (w : Bits64) : Prop where
  finite : isFinite w = true
  value : sunits w * N = v * unit

/-- The integer `t` keeps the full scale `n` and lies less than 1 from `n` times the clamped sample. -/
structure TruncatesTo (n : Nat) (x : Bits64) (t : Int) : Prop where
  range : |t| ≤ n
  near : |t * unit - sunits (clamp x) * n| < unit

theorem steps_pos {N s : Nat} (hunit : 2 ^ s * N = unit) : 0 < N := Nat.pos_of_mul_pos_left (hunit ▸ unit_pos)

/-- With `2^s` units in `1 / N`, a word decodes a code exactly when it has `2^s` units per step. -/
theorem decodesTo_iff {N s : Nat} {v : Int} {w : Bits64} (hunit : 2 ^ s * N = unit) :
    DecodesTo N v w ↔ isFinite w = true ∧ sunits w = v * 2 ^ s := by
  have hN : (N : Int) ≠ 0 := by exact_mod_cast (steps_pos hunit).ne'
  have hval : sunits w * N = v * unit ↔ sunits w = v * 2 ^ s := by
    rw [← hunit, Nat.cast_mul, Nat.cast_pow, Nat.cast_ofNat, ← mul_assoc, mul_left_inj' hN]
  exact ⟨fun ⟨hfin, h⟩ => ⟨hfin, hval.mp h⟩, fun ⟨hfin, h⟩ => ⟨hfin, hval.mpr h⟩⟩

/-- An integer scaled by a power of two is exact. -/
theorem decodesTo_scaled {N s : Nat} {v : Int} {scale : Bits64} (hunit : 2 ^ s * N = unit) (hs : s ≤ 2045)
    (hfin : isFinite scale = true) (hval : sunits scale = 2 ^ s) (hv : |v| < 2 ^ 53) :
    DecodesTo N v (fmul (intToF64 v) scale) := by
  obtain ⟨hvfin, hvval⟩ := intToF64_exact hv
  have hmag : v.natAbs * 2 ^ s * unit = units (intToF64 v) * units scale := by
    zify
    rw [← abs_sunits, ← abs_sunits, hvval, hval, abs_mul, Nat.abs_cast, abs_pow, abs_two]
    ring
  have hk : v.natAbs < 2 ^ 53 := by rw [Int.abs_eq_natAbs] at hv; omega
  obtain ⟨hprod, hexact⟩ := fmul_exact hvfin hfin hk hs hmag
  refine (decodesTo_iff hunit).mpr ⟨hprod, mul_right_cancel₀ unit_cast_pos.ne' ?_⟩
  rw [hexact, hvval, hval, mul_right_comm]

/-- A step of the 8-bit decoder, in units. -/
theorem unit_eq_128_steps : 2 ^ 1067 * 128 = unit := by decide +kernel

/-- A step of the 16-bit decoder, in units. -/
theorem unit_eq_32768_steps : 2 ^ 1059 * 32768 = unit := by decide +kernel

theorem sunits_scale8 : sunits scale8 = 2 ^ 1067 := by decide +kernel

theorem sunits_scale16 : sunits scale16 = 2 ^ 1059 := by decide +kernel

theorem abs_b8Int_sub_le (b : Byte) : |b8Int b - 128| ≤ 128 := by
  have := b.isLt
  rw [b8Int, abs_le]
  omega

theorem abs_b16Int_le (b : BitVec 16) : |b16Int b| ≤ 32768 :=
  abs_le.mpr ⟨b.le_toInt, b.toInt_lt.le⟩

theorem dec8_decodesTo (b : Byte) : DecodesTo 128 (b8Int b - 128) (dec8Value b) :=
  decodesTo_scaled unit_eq_128_steps (by decide) (by decide) sunits_scale8 ((abs_b8Int_sub_le b).trans_lt (by decide))

theorem dec16_decodesTo (b : BitVec 16) : DecodesTo 32768 (b16Int b) (dec16Value b) :=
  decodesTo_scaled unit_eq_32768_steps (by decide) (by decide) sunits_scale16 ((abs_b16Int_le b).trans_lt (by decide))

/-- Clamping, scaling and truncating a sample. -/
theorem truncatesTo_scaled {full : Bits64} {n : Nat} (hfin : isFinite full = true) (hval : sunits full = n * unit)
    (hn : n + 1 < 2 ^ 53) (x : Bits64) : TruncatesTo n x (trunc (fmul (clamp x) full)) :=
  ⟨abs_trunc_fmul_le hfin hval hn (abs_sunits_clamp_le x), abs_trunc_fmul_sub_lt hfin hval hn (abs_sunits_clamp_le x)⟩

theorem sunits_full8 : sunits full8 = (127 : Nat) * unit := by decide +kernel

theorem sunits_full16 : sunits full16 = (32767 : Nat) * unit := by decide +kernel

theorem enc8_truncatesTo (x : Bits64) : TruncatesTo 127 x (enc8Trunc x) :=
  truncatesTo_scaled (by decide) sunits_full8 (by decide) x

theorem enc16_truncatesTo (x : Bits64) : TruncatesTo 32767 x (enc16Trunc x) :=
  truncatesTo_scaled (by decide) sunits_full16 (by decide) x

/-- The 8-bit code is the truncated sample with the bias. -/
theorem b8Int_enc8Code (x : Bits64) : b8Int (enc8Code x) = enc8Trunc x + 128 := by
  obtain ⟨hlo, hhi⟩ := abs_le.mp (enc8_truncatesTo x).range
  rw [b8Int, enc8Code, BitVec.toNat_ofInt]
  omega

/-- The 16-bit code stands for the truncated sample. -/
theorem b16Int_enc16Code (x : Bits64) : b16Int (enc16Code x) = enc16Trunc x := by
  obtain ⟨hlo, hhi⟩ := abs_le.mp (enc16_truncatesTo x).range
  exact BitVec.toInt_ofInt_eq_self (by decide) (by omega) (by omega)

/-! ## The four commands (O27 to O30) -/

/-- Settles O27: the scaled code fits 53 bits, so the product is exact. -/
theorem dec8AnswersExactValue : Obligations.Dec8AnswersExactValue := by
  intro b s
  obtain ⟨hfin, hval⟩ := dec8_decodesTo b
  exact ⟨dec8Value b, rfl, hfin, hval, fun hb => by subst hb; decide +kernel⟩

/-- Settles O28: the scaled code fits 53 bits, so the product is exact. -/
theorem dec16AnswersExactValue : Obligations.Dec16AnswersExactValue := by
  intro b s
  obtain ⟨hfin, hval⟩ := dec16_decodesTo b
  exact ⟨dec16Value b, rfl, hfin, hval, fun hb => by subst hb; decide +kernel⟩

/-- Settles O29: the biased sample lies in 1 to 255, so its low byte is the sample itself. -/
theorem enc8AnswersTruncatedCode : Obligations.Enc8AnswersTruncatedCode :=
  fun x _ => ⟨enc8Code x, rfl, b8Int_enc8Code x⟩

/-- Settles O30: the truncated sample fits 16 bits. -/
theorem enc16AnswersTruncatedCode : Obligations.Enc16AnswersTruncatedCode :=
  fun x _ => ⟨enc16Code x, rfl, b16Int_enc16Code x⟩

/-! ## Corner cases and ranges (O32 to O34) -/

/-- A sample that clamps to an integer is encoded without a remainder. -/
theorem TruncatesTo.eq_of_integer {n : Nat} {x : Bits64} {t j : Int} (h : TruncatesTo n x t)
    (hj : sunits (clamp x) = j * unit) : t = j * n := by
  have hnear := h.near
  rw [hj, show t * unit - j * unit * n = (t - j * n) * unit by ring, abs_mul, Nat.abs_cast] at hnear
  have hlt : |t - j * n| < 1 := lt_of_mul_lt_mul_right (hnear.trans_eq (one_mul _).symm) (Int.natCast_nonneg _)
  exact sub_eq_zero.mp (Int.abs_lt_one_iff.mp hlt)

/-- The two codes of a sample that clamps to an integer. -/
theorem codes_of_integer {x : Bits64} {j : Int} (hj : sunits (clamp x) = j * unit) :
    enc8Code x = BitVec.ofInt 8 (j * 127 + 128) ∧ enc16Code x = BitVec.ofInt 16 (j * 32767) := by
  rw [enc8Code, (enc8_truncatesTo x).eq_of_integer hj, enc16Code, (enc16_truncatesTo x).eq_of_integer hj]
  exact ⟨rfl, rfl⟩

/-- Settles O32: at the corners the clamped sample is 0, 1 or -1. -/
theorem encoderCornerCodes : Obligations.EncoderCornerCodes := by
  intro x
  refine ⟨fun hnan => codes_of_integer (j := 0) ?nan, fun hzero => codes_of_integer (j := 0) ?zero,
    fun hnan hge => codes_of_integer (j := 1) ?above, fun hnan hle => codes_of_integer (j := -1) ?below⟩
  case nan => rw [sunits_clamp, if_pos hnan, zero_mul]
  case zero =>
    rw [sunits_clamp, sunits_of_isZero hzero]
    split <;> omega
  case above => rw [sunits_clamp, hnan, if_neg Bool.false_ne_true]; omega
  case below => rw [sunits_clamp, hnan, if_neg Bool.false_ne_true]; omega

/-- A decoded word in terms of its code: the lower bound, the upper bound, and when the magnitude is 1. -/
theorem DecodesTo.range {N : Nat} {v : Int} {w : Bits64} (h : DecodesTo N v w) (hlo : -(N : Int) ≤ v) (hhi : v < N) :
    -(unit : Int) ≤ sunits w ∧ sunits w * N ≤ (N - 1) * unit ∧ (|sunits w| = unit ↔ v = -N) := by
  have hu := unit_cast_pos
  have hN : (0 : Int) < N := by omega
  have hval := h.value
  refine ⟨?_, hval ▸ mul_le_mul_of_nonneg_right (by omega) hu.le, fun habs => ?_, fun hv => ?_⟩
  · apply le_of_mul_le_mul_right _ hN
    rw [hval]
    nlinarith
  · have : |v| = N := by
      apply mul_right_cancel₀ hu.ne'
      rw [← Nat.abs_cast unit, ← abs_mul, ← hval, abs_mul, habs, Nat.abs_cast, Nat.abs_cast, mul_comm]
    rcases abs_eq hN.le |>.mp this with h | h <;> omega
  · have : sunits w = -unit := by
      apply mul_right_cancel₀ hN.ne'
      rw [hval, hv]
      ring
    rw [this, abs_neg, Nat.abs_cast]

/-- Settles O33: a decoded word is its code over 2^7 or 2^15, and only the most negative code has that magnitude. -/
theorem decoderRange : Obligations.DecoderRange := by
  refine ⟨fun b => ?_, fun b => ?_⟩
  · have hb := b.isLt
    have hcode : b8Int b - 128 = -(128 : Nat) ↔ b = 0x00 := by
      rw [b8Int, ← BitVec.toNat_inj]
      simp
    obtain ⟨hlo, hhi, habs⟩ := (dec8_decodesTo b).range (by rw [b8Int]; omega) (by rw [b8Int]; omega)
    exact ⟨hlo, hhi, habs.trans hcode⟩
  · have hcode : b16Int b = -(32768 : Nat) ↔ b = 0x8000 := BitVec.toInt_inj (y := 0x8000)
    obtain ⟨hlo, hhi, habs⟩ := (dec16_decodesTo b).range b.le_toInt b.toInt_lt
    exact ⟨hlo, hhi, habs.trans hcode⟩

/-- Settles O34: the truncated samples keep the full scale, and the most negative code would stand for one beyond it. -/
theorem encoderRange : Obligations.EncoderRange := by
  intro x
  obtain ⟨hlo8, hhi8⟩ := abs_le.mp (enc8_truncatesTo x).range
  obtain ⟨hlo16, hhi16⟩ := abs_le.mp (enc16_truncatesTo x).range
  refine ⟨fun h => ?_, fun h => ?_, hlo8, hhi8, hlo16, hhi16⟩
  · have hcode := b8Int_enc8Code x
    rw [h, show b8Int 0x00 = 0 from rfl] at hcode
    omega
  · have hcode := b16Int_enc16Code x
    rw [h, show b16Int 0x8000 = -32768 from rfl] at hcode
    omega

/-! ## Encoding and decoding in a row (O35, O36) -/

/-- The round trip of a sample in [-1, 1] errs by less than two steps: the truncation errs by less than one, and the step is
wider than the encoder's by the sample itself. -/
theorem TruncatesTo.round_trip {n : Nat} {x w : Bits64} {t : Int} (henc : TruncatesTo n x t) (hdec : DecodesTo (n + 1) t w)
    (hnan : isNaN x = false) (hx : |sunits x| ≤ unit) : |sunits w - sunits x| * (n + 1 : Nat) < 2 * unit := by
  have hnear := henc.near
  obtain ⟨hlo, hhi⟩ := abs_le.mp hx
  rw [clamp_within hnan hlo hhi] at hnear
  calc |sunits w - sunits x| * (n + 1 : Nat)
      = |(sunits w - sunits x) * (n + 1 : Nat)| := by rw [abs_mul, Nat.abs_cast]
    _ = |(t * unit - sunits x * n) - sunits x| := by rw [sub_mul, hdec.value]; push_cast; ring_nf
    _ ≤ |t * unit - sunits x * n| + |sunits x| := abs_sub _ _
    _ < 2 * unit := by omega

theorem dec8_enc8_decodesTo (x : Bits64) : DecodesTo 128 (enc8Trunc x) (dec8Value (enc8Code x)) := by
  have h := dec8_decodesTo (enc8Code x)
  rwa [b8Int_enc8Code, add_sub_cancel_right] at h

theorem dec16_enc16_decodesTo (x : Bits64) : DecodesTo 32768 (enc16Trunc x) (dec16Value (enc16Code x)) := by
  have h := dec16_decodesTo (enc16Code x)
  rwa [b16Int_enc16Code] at h

/-- Settles O35: two steps bound the round trip, and the model evaluates the rule's two examples to nearly two. -/
theorem roundTripErrorBound : Obligations.RoundTripErrorBound := by
  refine ⟨fun x hnan hx => ⟨?_, ?_⟩, by decide +kernel, by decide +kernel⟩
  · have h := (enc16_truncatesTo x).round_trip (dec16_enc16_decodesTo x) hnan hx
    omega
  · have h := (enc8_truncatesTo x).round_trip (dec8_enc8_decodesTo x) hnan hx
    omega

/-- A code `v / N`, scaled by `N - 1` and truncated, is one step nearer to zero. -/
theorem mul_pred_tdiv {v N : Int} (hv : |v| ≤ N) : (v * (N - 1)).tdiv N = v - v.sign := by
  have hpos : ∀ m : Int, 0 < m → m ≤ N → (m * (N - 1)).tdiv N = m - 1 := fun m hm hmN => by
    have hsplit : m * (N - 1) = N - m + (m - 1) * N := by ring
    rw [Int.tdiv_eq_ediv_of_nonneg (mul_nonneg hm.le (by omega)), hsplit, Int.add_mul_ediv_right _ _ (by omega),
      Int.ediv_eq_zero_of_lt (by omega) (by omega), zero_add]
  obtain ⟨hlo, hhi⟩ := abs_le.mp hv
  rcases lt_trichotomy v 0 with h | rfl | h
  · have hneg := hpos (-v) (by omega) (by omega)
    rw [neg_mul, Int.neg_tdiv] at hneg
    rw [Int.sign_eq_neg_one_of_neg h]
    omega
  · simp
  · rw [Int.sign_eq_one_of_pos h, hpos v h hhi]

/-- A decoded code of at most `N` steps is inside the clamp's range. -/
theorem DecodesTo.clamp_eq {N : Nat} {v : Int} {w : Bits64} (h : DecodesTo N v w) (hN : 0 < N) (hv : |v| ≤ N) :
    clamp w = w := by
  have hle : |sunits w| ≤ unit := by
    have hscaled : |sunits w| * N = |v| * unit := by
      rw [← Nat.abs_cast N, ← abs_mul, h.value, abs_mul, Nat.abs_cast]
    nlinarith [unit_cast_pos, mul_le_mul_of_nonneg_right hv unit_cast_pos.le]
  obtain ⟨hlo, hhi⟩ := abs_le.mp hle
  exact clamp_within (not_nan_of_finite h.finite).1 hlo hhi

section
variable {N s : Nat} {v : Int} {w full : Bits64} (hdec : DecodesTo N v w) (hunit : 2 ^ s * N = unit) (hs : s ≤ 2045)
  (hv : |v| ≤ N) (hN : N ≤ 2 ^ 26) (hfin : isFinite full = true) (hval : sunits full = (N - 1 : Nat) * unit)
include hdec hunit hs hv hN hfin hval

/-- A decoded code times the full scale fits 53 bits, so that the product is exact. -/
theorem DecodesTo.fmul_full : sunits (fmul w full) = 2 ^ s * (v * (N - 1)) := by
  obtain ⟨hwfin, hwval⟩ := (decodesTo_iff hunit).mp hdec
  have hN0 : 1 ≤ N := steps_pos hunit
  have hmag : v.natAbs * (N - 1) * 2 ^ s * unit = units w * units full := by
    zify
    rw [← abs_sunits, ← abs_sunits, hwval, hval, abs_mul, abs_mul, Nat.abs_cast, Nat.abs_cast, abs_pow, abs_two]
    ring
  have hk : v.natAbs * (N - 1) < 2 ^ 53 := by
    have hvN : v.natAbs ≤ N := by rw [Int.abs_eq_natAbs] at hv; omega
    calc v.natAbs * (N - 1) ≤ 2 ^ 26 * 2 ^ 26 := Nat.mul_le_mul (hvN.trans hN) (by omega)
      _ < 2 ^ 53 := by norm_num
  apply mul_right_cancel₀ unit_cast_pos.ne'
  rw [(fmul_exact hwfin hfin hk hs hmag).2, hwval, hval]
  push_cast [hN0]
  ring

/-- Encoding a decoded code truncates it to one step nearer to zero. -/
theorem DecodesTo.trunc_fmul_full : trunc (fmul (clamp w) full) = v - v.sign := by
  rw [hdec.clamp_eq (steps_pos hunit) hv, trunc_eq_tdiv, hdec.fmul_full hunit hs hv hN hfin hval, ← hunit]
  push_cast
  rw [Int.mul_tdiv_mul_of_pos _ _ (by positivity), mul_pred_tdiv hv]

end

theorem enc16Trunc_dec16Value (c : BitVec 16) : enc16Trunc (dec16Value c) = b16Int c - (b16Int c).sign :=
  (dec16_decodesTo c).trunc_fmul_full unit_eq_32768_steps (by decide) (abs_b16Int_le c) (by decide) (by decide)
    sunits_full16

theorem enc8Trunc_dec8Value (u : Byte) : enc8Trunc (dec8Value u) = b8Int u - 128 - (b8Int u - 128).sign :=
  (dec8_decodesTo u).trunc_fmul_full unit_eq_128_steps (by decide) (abs_b8Int_sub_le u) (by decide) (by decide)
    sunits_full8

/-- A code less the sign of an integer. -/
theorem add_ofInt_neg_sign {k : Nat} (c : BitVec k) (v : Int) :
    c + BitVec.ofInt k (-v.sign) = if 0 < v then c - 1 else if v < 0 then c + 1 else c := by
  rcases lt_trichotomy v 0 with h | rfl | h
  · rw [if_neg (by omega), if_pos h, Int.sign_eq_neg_one_of_neg h]; rfl
  · exact BitVec.add_zero c
  · rw [if_pos h, Int.sign_eq_one_of_pos h, BitVec.ofInt_neg, ← BitVec.sub_eq_add_neg]; rfl

/-- Settles O36: the truncated sample of a decoded code is the code less its sign. -/
theorem encodeAfterDecodeStepsTowardZero : Obligations.EncodeAfterDecodeStepsTowardZero := by
  refine ⟨fun c => ?_, fun u => ?_⟩
  · rw [enc16Code, enc16Trunc_dec16Value, sub_eq_add_neg, BitVec.ofInt_add, add_ofInt_neg_sign, b16Int,
      BitVec.ofInt_toInt]
  · have hbias : b8Int u - 128 - (b8Int u - 128).sign + 128 = (u.toNat : Int) + -(b8Int u - 128).sign := by
      rw [b8Int]; ring
    have hpos : 0 < b8Int u - 128 ↔ 128 < u.toNat := by rw [b8Int]; omega
    have hneg : b8Int u - 128 < 0 ↔ u.toNat < 128 := by rw [b8Int]; omega
    rw [enc8Code, enc8Trunc_dec8Value, hbias, BitVec.ofInt_add, add_ofInt_neg_sign, BitVec.ofInt_natCast,
      BitVec.ofNat_toNat, BitVec.setWidth_eq]
    simp only [hpos, hneg]

end Sys2Proof.Machine
end

section
/-! PROOF. Filter configuration, 41_filter_config.md (O37 to O42): the domains in exact values, which of its two endings a
configure command has, and what the quotients by one a0 have in common. -/

namespace Sys2Proof.Machine

/-! ## The defined domains (R131) -/

theorem sunits_real_pos_iff (v : Bits64) : (0 : ℝ) < (sunits v : ℝ) / (unit : ℝ) ↔ 0 < sunits v := by
  have hu : (0 : ℝ) < unit := by exact_mod_cast unit_pos
  rw [div_pos_iff_of_pos_right hu, Int.cast_pos]

/-- Below half an integer, in values and in units. -/
theorem sunits_real_lt_half_iff (v : Bits64) (n : Nat) :
    (sunits v : ℝ) / (unit : ℝ) < (n : ℝ) / 2 ↔ 2 * sunits v < (n * unit : Nat) := by
  have hu : (0 : ℝ) < unit := by exact_mod_cast unit_pos
  rw [div_lt_div_iff₀ hu two_pos, mul_comm (sunits v : ℝ)]
  norm_cast

/-- Settles O40: comparing the values is comparing the units, which the predicates do. -/
theorem definedDomains : Obligations.DefinedDomains := by
  intro f0 g q fs
  refine ⟨?_, by rw [domBP, Bool.and_eq_true]⟩
  rw [sunits_real_pos_iff, sunits_real_lt_half_iff]
  simp only [domN, Bool.and_eq_true, decide_eq_true_eq, and_assoc]
  rfl

/-! ## The two endings of a configure command (R130, R132 to R134) -/

section
variable {n : InstNum} (h : n.toNat < Config.numInst) (f0 g q : Bits64) (fs : Bits32) (s : State)
include h

theorem exec_cfgbp_of_lt : exec (.cfgbp n f0 g q fs) s =
    if domBP f0 g q fs then configure .cfgbp ⟨n.toNat, h⟩ (bandPass f0 g q fs) s
    else configureUndefined .cfgbp ⟨n.toNat, h⟩ s := by
  rw [exec, execCfgbp, onInst_of_lt h]

theorem exec_cfgnotch_of_lt : exec (.cfgnotch n f0 q fs) s =
    if domN f0 q fs then configure .cfgnotch ⟨n.toNat, h⟩ (notch f0 q fs) s
    else configureUndefined .cfgnotch ⟨n.toNat, h⟩ s := by
  rw [exec, execCfgnotch, onInst_of_lt h]

end

theorem twoPi64_eq : twoPi64 = 0x401921FB54442D18 := by
  obtain ⟨-, -, -, hvalue, -⟩ := piConstants
  exact hvalue

/-- The derived temporaries with the constant 2·π written out (R130). -/
theorem derive_eq (f0 q : Bits64) (fs : Bits32) :
    derive f0 q fs =
      let w0 := fdiv (fmul 0x401921FB54442D18 f0) (u32ToF64 fs)
      let al := fdiv (sin64 w0) (fmul 0x4000000000000000 q)
      { cs := cos64 w0, al := al, a0 := fadd 0x3FF0000000000000 al } := by
  rw [derive, alpha, omega0, twoPi64_eq]
  rfl

/-- Settles O37: inside DOM_BP the instance is constructed with the band-pass coefficients. -/
theorem cfgbpWritesBandPass : Obligations.CfgbpWritesBandPass := by
  intro n f0 g q fs s h hdom
  rw [exec_cfgbp_of_lt h, if_pos hdom, bandPass, derive_eq]
  rfl

/-- Settles O38: inside DOM_N the instance is constructed with the notch coefficients. -/
theorem cfgnotchWritesNotch : Obligations.CfgnotchWritesNotch := by
  intro n f0 q fs s h hdom
  rw [exec_cfgnotch_of_lt h, if_pos hdom, notch, derive_eq]
  rfl

/-- Settles O39: outside its domain either command constructs the instance with drawn coefficients. -/
theorem outOfDomainConfigureDraws : Obligations.OutOfDomainConfigureDraws := by
  refine fun n f0 g q fs s h => ⟨fun hdom => ?_, fun hdom => ?_⟩
  · rw [exec_cfgbp_of_lt h, hdom]
    rfl
  · rw [exec_cfgnotch_of_lt h, hdom]
    rfl

/-! ## Configuring is constructing (R136) -/

theorem configure_constructs (op : Opcode) (k : Fin Config.numInst) (c : Coeffs) (s : State) :
    ∃ t, configure op k c s = .next t ∧ t.getInst k = c.construct :=
  ⟨_, respond_eq _ _ _ _, by simp⟩

theorem configureUndefined_constructs (op : Opcode) (k : Fin Config.numInst) (s : State) :
    ∃ t, configureUndefined op k s = .next t ∧ t.getInst k = s.drawnCoeffs.construct :=
  ⟨_, respond_eq _ _ _ _, by simp⟩

/-- Which ending a configure command has, and with which computed coefficients, its operands say and not the state. -/
theorem exec_configure_cases {i : Instr} {k : Fin Config.numInst} (hop : i.op = .cfgbp ∨ i.op = .cfgnotch)
    (hsel : i.selects = some (BitVec.ofNat 4 k)) :
    (∃ c, ∀ s, exec i s = configure i.op k c s) ∨ ∀ s, exec i s = configureUndefined i.op k s := by
  cases i with
  | cfgbp n f0 g q fs =>
    obtain rfl := Option.some.inj hsel
    by_cases hdom : domBP f0 g q fs = true
    · exact .inl ⟨bandPass f0 g q fs, fun s => by rw [exec, execCfgbp, onInst_ofNat, if_pos hdom]; rfl⟩
    · exact .inr fun s => by rw [exec, execCfgbp, onInst_ofNat, if_neg hdom]; rfl
  | cfgnotch n f0 q fs =>
    obtain rfl := Option.some.inj hsel
    by_cases hdom : domN f0 q fs = true
    · exact .inl ⟨notch f0 q fs, fun s => by rw [exec, execCfgnotch, onInst_ofNat, if_pos hdom]; rfl⟩
    · exact .inr fun s => by rw [exec, execCfgnotch, onInst_ofNat, if_neg hdom]; rfl
  | reset | tick | status | dec8 | dec16 | enc8 | enc16 => simp [Instr.op] at hop

/-- In all states with one draw counter a configure command constructs its instance with the same coefficients. -/
theorem exec_configure_constructs {i : Instr} {k : Fin Config.numInst} (hop : i.op = .cfgbp ∨ i.op = .cfgnotch)
    (hsel : i.selects = some (BitVec.ofNat 4 k)) (s : State) :
    ∃ c : Coeffs, ∀ s' : State, s'.draws = s.draws → ∃ t, exec i s' = .next t ∧ t.getInst k = c.construct := by
  obtain ⟨c, he⟩ | he := exec_configure_cases hop hsel
  · exact ⟨c, fun s' _ => he s' ▸ configure_constructs i.op k c s'⟩
  · refine ⟨s.drawnCoeffs, fun s' hdraws => ?_⟩
    rw [he, ← State.drawnCoeffs_congr hdraws]
    exact configureUndefined_constructs i.op k s'

/-- Settles O41: replacing the registers of the instance leaves the draw counter, and construction writes every register. -/
theorem configuringIsConstructing : Obligations.ConfiguringIsConstructing := by
  intro i k s old hop hsel
  obtain ⟨c, hconstructs⟩ := exec_configure_constructs hop hsel s
  obtain ⟨t, ht, hinst⟩ := hconstructs s rfl
  obtain ⟨u, hu, hinst'⟩ := hconstructs (s.setInst k old) rfl
  refine ⟨t, u, ht, hu, hinst'.trans hinst.symm, ?_⟩
  rw [hinst]
  exact ⟨rfl, rfl, rfl, rfl, rfl, rfl, rfl, rfl⟩

/-! ## Quotients by one divisor (R137) -/

theorem magBits_pack (neg : Bool) {m : Nat} (hm : m < 2 ^ 63) : magBits (pack neg m) = m := by
  rw [magBits, pack_toNat neg hm]
  cases neg <;> simp <;> omega

/-- Flipping the sign of a rounded word is rounding under the other sign. -/
theorem fneg_pack_roundMag (neg : Bool) (num den : Nat) :
    fneg (pack neg (roundMag num den)) = pack (!neg) (roundMag num den) := by
  have hm := roundMag_lt num den
  rw [fneg_eq (pack_round_notnan neg num den), signBit_pack neg hm, magBits_pack neg hm]

/-- A quotient changes its sign with its dividend; where either is a NaN, both sides are QNAN. -/
theorem fdiv_fneg (a b : Bits64) : fdiv (fneg a) b = fneg (fdiv a b) := by
  cases ha : isNaN a with
  | true => rw [fneg_nan ha, fdiv_nan (.inl ha), fdiv_nan (.inl isNaN_qnan), fneg_nan isNaN_qnan]
  | false =>
    obtain ⟨hnan, hinf, hzero, -⟩ := fneg_pred ha
    have hposInf : fneg posInf = negInf := by decide
    have hnegInf : fneg negInf = posInf := by decide
    have hposZero : fneg posZero = negZero := by decide
    have hnegZero : fneg negZero = posZero := by decide
    simp only [fdiv, hnan, hinf, hzero, ha, fneg_sign ha, fneg_units ha, Bool.not_bne, apply_ite fneg,
      fneg_nan isNaN_qnan, hposInf, hnegInf, hposZero, hnegZero, fneg_pack_roundMag]
    cases signBit a != signBit b <;> rfl

theorem isFinite_of_not_nan_inf {v : Bits64} (hnan : isNaN v = false) (hinf : isInf v = false) : isFinite v = true := by
  rw [Bool.eq_false_iff, Ne, isNaN_iff] at hnan
  rw [Bool.eq_false_iff, Ne, isInf_iff] at hinf
  rw [isFinite_iff]
  omega

/-- A zero over a word that is neither a zero nor a NaN is the zero of their signs. -/
theorem fdiv_zero_left {a b : Bits64} (ha : isZero a = true) (hnan : isNaN b = false) (hz : isZero b = false) :
    fdiv a b = if signBit a = signBit b then posZero else negZero := by
  obtain ⟨-, -, hfin⟩ := zero_class ha
  cases hinf : isInf b with
  | true => exact fdiv_finite_inf hfin hinf
  | false =>
    have hb : 0 < units b := Nat.pos_of_ne_zero fun h => by simp [(units_eq_zero_iff b).mp h] at hz
    have hpack : ∀ x y : Bool, pack (x != y) 0 = if x = y then posZero else negZero := by decide
    rw [fdiv_finite hfin (isFinite_of_not_nan_inf hnan hinf) hz, (units_eq_zero_iff a).mpr ha, zero_mul, roundMag_zero hb,
      hpack]

theorem isZero_of_sunits_ne {v : Bits64} (h : sunits v ≠ 0) : isZero v = false :=
  Bool.eq_false_iff.mpr fun hz => h (sunits_of_isZero hz)

/-- The sign bit of a word of non-zero value is the sign of its value. -/
theorem signBit_of_sunits_ne {v : Bits64} (h : sunits v ≠ 0) : signBit v = decide (sunits v < 0) := by
  have hunits : units v ≠ 0 := fun hu => h (sunits_of_isZero ((units_eq_zero_iff v).mp hu))
  rw [sunits_eq]
  cases signBit v with
  | true => simp [Nat.pos_of_ne_zero hunits]
  | false => simp

/-- +0.0 over a word of non-zero value is the zero of its sign. -/
theorem fdiv_posZero {b : Bits64} (hnan : isNaN b = false) (h : sunits b ≠ 0) :
    fdiv posZero b = if sunits b < 0 then negZero else posZero := by
  rw [fdiv_zero_left (by decide) hnan (isZero_of_sunits_ne h), signBit_of_sunits_ne h]
  by_cases hneg : sunits b < 0
  · rw [decide_eq_true hneg, if_pos hneg]
    rfl
  · rw [decide_eq_false hneg, if_neg hneg]
    rfl

/-- +0.0 over a NaN or a zero. -/
theorem fdiv_posZero_qnan {b : Bits64} (h : isNaN b = true ∨ isZero b = true) : fdiv posZero b = qnan :=
  h.elim (fun hnan => fdiv_nan (.inr hnan)) (fdiv_zero_zero (by decide))

/-- Settles O42: b1 is +0.0 over a0, b2 is the quotient of the flipped dividend of b0, and the notch divides equal words. -/
theorem coefficientIdentities : Obligations.CoefficientIdentities := by
  refine ⟨fun n f0 g q fs s h hdom => ?bandPass, fun n f0 q fs s h hdom => ?notch⟩
  case bandPass =>
    obtain ⟨t, ht, hinst⟩ := configure_constructs .cfgbp ⟨n.toNat, h⟩ (bandPass f0 g q fs) s
    refine ⟨t, _, _, _, ?_, congrArg Inst.b0 hinst, congrArg Inst.b1 hinst, congrArg Inst.b2 hinst, rfl,
      fun hnan hpos => ?_, fun hnan hneg => ?_, fdiv_posZero_qnan, fun _ => fdiv_fneg _ _⟩
    · rw [exec_cfgbp_of_lt h, if_pos hdom, ht]
    · exact (fdiv_posZero hnan hpos.ne').trans (if_neg hpos.not_gt)
    · exact (fdiv_posZero hnan hneg.ne).trans (if_pos hneg)
  case notch =>
    obtain ⟨t, ht, hinst⟩ := configure_constructs .cfgnotch ⟨n.toNat, h⟩ (notch f0 q fs) s
    refine ⟨t, _, _, ?_, congrArg Inst.b0 hinst, congrArg Inst.b2 hinst, congrArg Inst.b1 hinst, congrArg Inst.a1 hinst⟩
    rw [exec_cfgnotch_of_lt h, if_pos hdom, ht]

end Sys2Proof.Machine
end

section
/-! PROOF. Filter run, 42_filter_run.md (O43 to O49): what BQ.RESET and BQ.TICK do on an existing instance, how NaNs and
zeros pass through one step of the recurrence, and that a stream of ticks is a run of the recurrence on each instance. -/

namespace Sys2Proof.Machine

/-! ## The two commands on an existing instance (R150, R151) -/

section
variable {n : InstNum} {s : State} (h : n.toNat < Config.numInst)

theorem exec_reset_of_lt : exec (.reset n) s =
    .next ((s.setInst ⟨n.toNat, h⟩ ((s.getInst ⟨n.toNat, h⟩).withDelays posZero posZero)).answered
      Opcode.reset.code .ok []) := by
  rw [exec, execReset, onInst_of_lt h, respond_eq]

/-- On an instance that is not configured a tick is rejected. -/
theorem exec_tick_unconfigured (x : Bits64) (hc : (s.getInst ⟨n.toNat, h⟩).cfgd = false) :
    exec (.tick n x) s = .next ((setSticky .notcfg s).answered Opcode.tick.code .notcfg []) := by
  rw [exec, execTick, onInst_of_lt h, hc, ← reject_eq]
  rfl

end

/-- Settles O43: the state is the one the equation of BQ.RESET gives. -/
theorem resetZeroesDelayRegisters : Obligations.ResetZeroesDelayRegisters :=
  fun _ _ => exec_reset_of_lt

/-- Settles O44: the registers the instance holds are the operands of the recurrence. -/
theorem tickAdvancesRecurrence : Obligations.TickAdvancesRecurrence := by
  intro n x b0 b1 b2 a1 a2 w1 w2 s h hinst
  have hk : s.getInst ⟨n.toNat, h⟩ = _ := hinst
  rw [exec_tick_configured (hn := h) x (by rw [hk]), hk, hinst]
  rfl

/-- Settles O45: the reject sets the sticky bit and answers. -/
theorem tickUnconfiguredIsRejected : Obligations.TickUnconfiguredIsRejected :=
  fun _ x _ h => exec_tick_unconfigured h x

/-! ## NaNs in the recurrence (R154) -/

/-- Some register that the new delay value is computed from holds a NaN. -/
def Inst.feedbackNan (r : Inst) : Prop :=
  isNaN r.coeffs.a1 = true ∨ isNaN r.w1 = true ∨ isNaN r.coeffs.a2 = true ∨ isNaN r.w2 = true

/-- Some coefficient of the output holds a NaN. -/
def Inst.outputNan (r : Inst) : Prop :=
  isNaN r.coeffs.b0 = true ∨ isNaN r.coeffs.b1 = true ∨ isNaN r.coeffs.b2 = true

section
variable {a b : Bits64} (h : isNaN a = true ∨ isNaN b = true)
include h

theorem isNaN_fmul : isNaN (fmul a b) = true := by rw [fmul_nan h, isNaN_qnan]

theorem isNaN_fadd : isNaN (fadd a b) = true := by rw [fadd_nan h, isNaN_qnan]

theorem isNaN_fsub : isNaN (fsub a b) = true := by rw [fsub_nan h, isNaN_qnan]

end

section
variable {r : Inst} (x : Bits64)

theorem Inst.poisoned_iff : r.poisoned = true ↔ r.feedbackNan ∨ r.outputNan := by
  simp only [Inst.poisoned, Inst.feedbackNan, Inst.outputNan, Bool.or_eq_true]
  tauto

/-- A NaN among the operands of w reaches w, through one of its two products. -/
theorem Inst.feedbackNan.tickW_eq (h : r.feedbackNan) : tickW r.coeffs r.w1 r.w2 x = qnan := by
  obtain ha1 | hw1 | ha2 | hw2 := h
  · exact fsub_nan (.inl (isNaN_fsub (.inr (isNaN_fmul (.inl ha1)))))
  · exact fsub_nan (.inl (isNaN_fsub (.inr (isNaN_fmul (.inr hw1)))))
  · exact fsub_nan (.inr (isNaN_fmul (.inl ha2)))
  · exact fsub_nan (.inr (isNaN_fmul (.inr hw2)))

/-- A NaN in w, or in a coefficient of the output, reaches the output through one of its three products. -/
theorem tickY_nan {c : Coeffs} {w w1 w2 : Bits64}
    (h : isNaN w = true ∨ isNaN c.b0 = true ∨ isNaN c.b1 = true ∨ isNaN c.b2 = true) : tickY c w w1 w2 = qnan := by
  obtain hw | hb0 | hb1 | hb2 := h
  · exact fadd_nan (.inl (isNaN_fadd (.inl (isNaN_fmul (.inr hw)))))
  · exact fadd_nan (.inl (isNaN_fadd (.inl (isNaN_fmul (.inl hb0)))))
  · exact fadd_nan (.inl (isNaN_fadd (.inr (isNaN_fmul (.inl hb1)))))
  · exact fadd_nan (.inr (isNaN_fmul (.inl hb2)))

theorem Inst.tickOut_of_poisoned (h : r.poisoned = true) : r.tickOut x = qnan := by
  obtain hfb | hout := Inst.poisoned_iff.mp h
  · exact tickY_nan (.inl (by rw [hfb.tickW_eq, isNaN_qnan]))
  · exact tickY_nan (.inr hout)

/-- A NaN of the feedback stands in w1 after the tick, and the coefficients stay. -/
theorem Inst.tickNext_poisoned (h : r.poisoned = true) : (r.tickNext x).poisoned = true := by
  rw [Inst.poisoned_iff] at h ⊢
  obtain hfb | hout := h
  · have hw1 : (r.tickNext x).w1 = qnan := hfb.tickW_eq x
    exact .inl (.inr (.inl (by rw [hw1, isNaN_qnan])))
  · exact .inr hout

end

/-- Settles O47: a tick poisons what it leaves, and BQ.RESET writes +0.0 to both delay registers. -/
theorem nanPersists : Obligations.NanPersists := by
  intro n s h hc hp
  have hp : (s.getInst ⟨n.toNat, h⟩).poisoned = true := hp
  refine ⟨fun x => ⟨_, exec_tick_configured (hn := h) x hc, ?_, ?_⟩, _, exec_reset_of_lt h, ?_⟩
  · rw [State.answered_tx, Inst.tickOut_of_poisoned x hp]
    rfl
  · simpa using Inst.tickNext_poisoned x hp
  · have hzero : isNaN posZero = false := by decide
    simp [State.getInst, hzero]

/-! ## Zeros in the recurrence (R156) -/

section
variable {c : Coeffs} {w w1 w2 x : Bits64} (hw1 : isZero w1 = true) (hw2 : isZero w2 = true)
include hw1 hw2

theorem isZero_tickW (ha1 : isFinite c.a1 = true) (ha2 : isFinite c.a2 = true) (hx : isZero x = true) :
    isZero (tickW c w1 w2 x) = true :=
  isZero_fsub (isZero_fsub hx (isZero_fmul_zero ha1 hw1)) (isZero_fmul_zero ha2 hw2)

theorem isZero_tickY (hb0 : isFinite c.b0 = true) (hb1 : isFinite c.b1 = true) (hb2 : isFinite c.b2 = true)
    (hw : isZero w = true) : isZero (tickY c w w1 w2) = true :=
  isZero_fadd (isZero_fadd (isZero_fmul_zero hb0 hw) (isZero_fmul_zero hb1 hw1)) (isZero_fmul_zero hb2 hw2)

end

/-- Settles O49: finite multiples of zeros are zeros, and so are their sums; w2 is the +0.0 that w1 was. -/
theorem zeroInputStaysZero : Obligations.ZeroInputStaysZero := by
  intro n x b0 b1 b2 a1 a2 s h hinst hb0 hb1 hb2 ha1 ha2 hx
  have hzero : isZero 0x0000000000000000 = true := by decide
  have hw := isZero_tickW (c := ⟨b0, b1, b2, a1, a2⟩) hzero hzero ha1 ha2 hx
  refine ⟨_, _, tickAdvancesRecurrence n x b0 b1 b2 a1 a2 _ _ s h hinst, rfl,
    isZero_tickY (c := ⟨b0, b1, b2, a1, a2⟩) hzero hzero hb0 hb1 hb2 hw, ?_, ?_⟩
  · simpa [tickW] using hw
  · simp

/-! ## A buffer of ticks sent at once (R153, R209) -/

/-- A tick is well-formed when its instance exists (R181 (f)). -/
theorem Instr.tick_wf {n : InstNum} (x : Bits64) (hn : n.toNat < Config.numInst) : (Instr.tick n x).wf Config.build = true :=
  decide_eq_true hn

/-- Settles O46: sent at once the buffer runs as if sent tick by tick, and that runs the recurrence. -/
theorem processBufferIsRepeatedTick : Obligations.ProcessBufferIsRepeatedTick := by
  intro s n xs h hs hc
  have hwf : ∀ i ∈ bqProcess n xs, i.wf Config.build = true := List.forall_mem_map.mpr fun x _ => Instr.tick_wf x h
  obtain ⟨t, rs, hrun⟩ := runsProgram_of_ready hs hwf
  obtain ⟨t', hall, -, hinst⟩ := issueAll_bqProcess h xs hs hc
  obtain ⟨rfl, rfl⟩ := Prod.mk.inj (Option.some.inj (hrun.oneByOne.symm.trans hall))
  exact ⟨t, by simpa [bqProcess] using hrun.atOnce, hinst, hrun.shown⟩

/-! ## Interleaved ticks (R155) -/

/-- The registers a tick leaves in its instance, configured or not. -/
def Inst.ticked (r : Inst) (x : Bits64) : Inst := if r.cfgd then r.tickNext x else r

/-- The response to a tick, which the registers of its instance decide. -/
def Inst.tickReply (r : Inst) (x : Bits64) : Response :=
  if r.cfgd then tickResponse (r.tickOut x) else { rc := .notcfg, opc := Opcode.tick.code, results := [] }

/-- A tick sent to an existing instance reads and writes the registers of that instance and no other. -/
theorem issue_tick_ticked {s : State} {n : InstNum} (x : Bits64) (hn : n.toNat < Config.numInst) (hs : s.Ready) :
    ∃ t, issue (.tick n x) s = some (t, (s.getInst ⟨n.toNat, hn⟩).tickReply x) ∧ t.Ready ∧
      t.inst = s.inst.set n.toNat ((s.getInst ⟨n.toNat, hn⟩).ticked x) hn := by
  cases hc : (s.getInst ⟨n.toNat, hn⟩).cfgd with
  | true =>
    rw [Inst.tickReply, Inst.ticked, if_pos hc, if_pos hc]
    exact ⟨_, issue_tick x hs hc, hs.afterTick x, rfl⟩
  | false =>
    rw [Inst.tickReply, Inst.ticked, hc]
    refine ⟨_, issue_of_exec hs (Instr.tick_wf x hn) (exec_tick_unconfigured hn x hc), hs, ?_⟩
    simp [State.getInst]

/-- A list of commands goes on from the state its first command leaves, and that one's response comes first. -/
theorem issueAll_cons_inv {i : Instr} {is : List Instr} {s t u : State} {r : Response} {rs : List Response}
    (hi : issue i s = some (t, r)) (hrun : issueAll (i :: is) s = some (u, rs)) :
    ∃ rs', issueAll is t = some (u, rs') ∧ rs = r :: rs' := by
  simp only [issueAll, hi, Option.map_eq_some_iff, Prod.mk.injEq] at hrun
  obtain ⟨⟨v, rs'⟩, hrest, rfl, rfl⟩ := hrun
  exact ⟨rs', hrest, rfl⟩

/-- The commands of a list of ticks. -/
def tickProgram (ts : List (InstNum × Bits64)) : List Instr := ts.map fun p => .tick p.1 p.2

/-- The ticks on the instance `n` alone, from a state that agrees on it, get the responses they get among the others and
leave the same registers. -/
theorem issueAll_own_ticks {n : InstNum} (hn : n.toNat < Config.numInst) {ts : List (InstNum × Bits64)} {s s' t : State}
    {rs : List Response} (hex : ∀ p ∈ ts, p.1.toNat < Config.numInst) (hs : s.Ready) (hs' : s'.Ready)
    (hagree : s'.getInst ⟨n.toNat, hn⟩ = s.getInst ⟨n.toNat, hn⟩) (hrun : issueAll (tickProgram ts) s = some (t, rs)) :
    ∃ t', issueAll (tickProgram (ts.filter fun p => p.1 == n)) s'
        = some (t', ((ts.zip rs).filter fun q => q.1.1 == n).map Prod.snd) ∧
      t'.getInst ⟨n.toNat, hn⟩ = t.getInst ⟨n.toNat, hn⟩ := by
  induction ts generalizing s s' rs with
  | nil =>
    obtain ⟨rfl, rfl⟩ := Prod.mk.inj (Option.some.inj hrun)
    exact ⟨s', rfl, hagree⟩
  | cons p ts ih =>
    obtain ⟨m, x⟩ := p
    obtain ⟨hm, hex⟩ := List.forall_mem_cons.mp hex
    obtain ⟨u, hu, hur, huinst⟩ := issue_tick_ticked x hm hs
    obtain ⟨rs, hrest, rfl⟩ := issueAll_cons_inv hu hrun
    by_cases hmn : m = n
    · subst hmn
      obtain ⟨u', hu', hur', huinst'⟩ := issue_tick_ticked x hm hs'
      rw [hagree] at hu' huinst'
      obtain ⟨t', ht', hinst⟩ := ih hex hur hur' (by simp [State.getInst, huinst, huinst']) hrest
      exact ⟨t', by simpa [tickProgram] using issueAll_cons hu' ht', hinst⟩
    · have hne : m.toNat ≠ n.toNat := fun h => hmn (BitVec.eq_of_toNat_eq h)
      have hkeep : u.getInst ⟨n.toNat, hn⟩ = s.getInst ⟨n.toNat, hn⟩ := by
        simp [State.getInst, huinst, Vector.getElem_set_ne hm hn hne]
      obtain ⟨t', ht', hinst⟩ := ih hex hur hs' (hagree.trans hkeep.symm) hrest
      exact ⟨t', by simpa [hmn] using ht', hinst⟩

/-- Settles O48: every tick is answered, and the ticks of each instance run alone as they do among the others. -/
theorem interleavedTicksAreIndependent : Obligations.InterleavedTicksAreIndependent := by
  intro s ts hs hex
  have hwf : ∀ i ∈ tickProgram ts, i.wf Config.build = true := List.forall_mem_map.mpr fun p hp => Instr.tick_wf p.2 (hex p hp)
  obtain ⟨t, rs, hrun⟩ := runsProgram_of_ready hs hwf
  have hlen : rs.length = ts.length := by simpa [tickProgram] using congrArg List.length hrun.opcs
  exact ⟨t, rs, hrun.oneByOne, hlen, fun n hn => issueAll_own_ticks hn hex hs hs rfl hrun.oneByOne⟩

end Sys2Proof.Machine
end

section
/-! PROOF. Rejected commands, 60_exceptions.md (O16, O18, O21): a packet shows one of the causes (a) to (g) exactly when the
decoder refuses it, what its reject leaves, and which commands are answered NOTCFG. -/

namespace Sys2Proof.Machine

/-! ## What decodes is not ill-formed (R88, R181) -/

/-- A well-formed instruction's packet shows none of the causes (a) to (g). -/
theorem not_illFormed_encodePacket {b : Build} {i : Instr} (hwf : i.wf b = true) :
    ¬ PacketIllFormed b (encodePacket i) := by
  obtain ⟨hopc, hinst, hrsv, -⟩ := Laws.RoundTrip.header_fields i
  have hnops : headerNops i.header = BitVec.ofNat 4 i.operandWords.length := headerNops_headerWord _ _ _ _
  simp only [PacketIllFormed, encodePacket, hopc, hinst, hrsv, hnops]
  cases i with
  | cfgbp n f0 g q fs | cfgnotch n f0 q fs =>
    simpa [Instr.op, Opcode.code, Instr.inst, Instr.operandWords] using
      And.intro (of_decide_eq_true hwf) (eq_of_beq (Laws.RoundTrip.fs_legal fs))
  | reset n | tick n x =>
    simpa [Instr.op, Opcode.code, Instr.inst, Instr.operandWords] using of_decide_eq_true hwf
  | status => simp [Instr.op, Opcode.code, Instr.inst, Instr.operandWords]
  | dec8 c =>
    simpa [Instr.op, Opcode.code, Instr.inst, Instr.operandWords] using
      And.intro (show b.convPresent = true from hwf) (eq_of_beq (Laws.RoundTrip.b8_legal c))
  | dec16 c =>
    simpa [Instr.op, Opcode.code, Instr.inst, Instr.operandWords] using
      And.intro (show b.convPresent = true from hwf) (eq_of_beq (Laws.RoundTrip.b16_legal c))
  | enc8 x | enc16 x =>
    simpa [Instr.op, Opcode.code, Instr.inst, Instr.operandWords] using show b.convPresent = true from hwf

/-- A complete ill-formed packet is no instruction: the decoder refuses it, with one of the causes. -/
theorem decodePacket_of_illFormed {b : Build} {p : Packet} (hlen : p.ops.length = (headerNops p.header).toNat)
    (h : PacketIllFormed b p) : ∃ e, decodePacket b p = .error e := by
  cases hdec : decodePacket b p with
  | error e => exact ⟨e, rfl⟩
  | ok i =>
    obtain ⟨hwf, rfl⟩ := encodePacket_of_decodePacket hlen hdec
    exact absurd h (not_illFormed_encodePacket hwf)

/-- A step rejects a complete ill-formed packet with its OPC as received. -/
theorem step_of_illFormed {s : State} {p : Packet} {rest : List Byte} (hrst : s.rst = false)
    (hframe : frame (s.rx ++ s.held) = some (p, rest)) (h : PacketIllFormed Config.build p) :
    step s = .next ((setSticky .illegal (s.accept rest)).answered (headerOpc p.header) .illegal []) := by
  obtain ⟨-, hlen⟩ := frame_some hframe
  obtain ⟨e, hdec⟩ := decodePacket_of_illFormed hlen h
  simp [step, portMove, hrst, hframe, hdec, rejectMalformed_eq]

/-- Settles O16: the state is the one the reject leaves. -/
theorem illFormedPacketAnsweredIllegal : Obligations.IllFormedPacketAnsweredIllegal :=
  fun _ _ _ => step_of_illFormed

/-! ## NOTCFG (R182) -/

/-- NOTCFG is the answer to a tick whose instance exists and is not configured, and to no other instruction. -/
theorem exec_notcfg_iff {i : Instr} {s t : State} (he : exec i s = .next t) :
    (∃ r, t.tx = some r ∧ r.rc = .notcfg) ↔
      i.op = .tick ∧ ∃ k : Fin Config.numInst, (k : Nat) = i.inst.toNat ∧ (s.getInst k).cfgd = false := by
  constructor
  · rintro ⟨r, hr, hrc⟩
    obtain ⟨u, rc, rs, rfl, hend⟩ := exec_next he
    obtain rfl := Option.some.inj hr
    obtain rfl : rc = .notcfg := hrc
    cases hend with
    | notcfg k hsel hop hcfgd =>
      cases i with
      | tick n x =>
        obtain rfl := Option.some.inj hsel
        exact ⟨rfl, k, (instNum_toNat k).symm, hcfgd⟩
      | _ => cases hop
  · rintro ⟨hop, ⟨k, hk⟩, hn, hcfgd⟩
    cases i with
    | tick n x =>
      obtain rfl : k = n.toNat := hn
      obtain rfl := Host.Outcome.next.inj ((exec_tick_unconfigured hk x hcfgd).symm.trans he)
      exact ⟨_, rfl, rfl⟩
    | _ => cases hop

/-- An operation is BQ.TICK when its OPC value is. -/
theorem Opcode.code_eq_tick_iff (op : Opcode) : op.code = 0x04 ↔ op = .tick := by cases op <;> decide

/-- Settles O18: an ill-formed packet meets its reject, any other one runs its instruction. -/
theorem notcfgAnswersOnlyWellFormedTicks : Obligations.NotcfgAnswersOnlyWellFormedTicks := by
  intro s t p rest hrst hframe hstep
  by_cases hill : PacketIllFormed Config.build p
  · obtain rfl := Host.Outcome.next.inj ((step_of_illFormed hrst hframe hill).symm.trans hstep)
    simp [hill]
  · obtain ⟨i, -, rfl, he⟩ := otherPacketsRunAnInstruction s p rest hrst hframe hill
    obtain ⟨hopc, hinst, -⟩ := Laws.RoundTrip.header_fields i
    refine ⟨?_, fun h => absurd h hill⟩
    rw [exec_notcfg_iff (he.symm.trans hstep), hopc, hinst, Opcode.code_eq_tick_iff]
    exact (and_iff_right hill).symm

/-! ## A missing instance (R181 (f), log 12) -/

/-- Settles O21: of the endings of an instruction only the reject selects an instance that does not exist. -/
theorem missingInstanceIsRejected : Obligations.MissingInstanceIsRejected := by
  intro i n s hsel hge
  have hne (k : Fin Config.numInst) : i.selects ≠ some (BitVec.ofNat 4 k) := fun h =>
    instNum_ne (not_lt.mpr hge) k (Option.some.inj (hsel.symm.trans h))
  obtain ⟨u, rc, rs, he, hend⟩ := exec_ending i s
  cases hend with
  | answer rs hnone => simp [hsel] at hnone
  | write k r rs hk => exact absurd hk (hne k)
  | undefined k hk => exact absurd hk (hne k)
  | illegal => exact he
  | notcfg k hk => exact absurd hk (hne k)

end Sys2Proof.Machine
end

section
/-! PROOF. Hardware reset, 70_reset_and_hazards.md (O4): an asserted reset is the one move a step can make, whatever stands
on the stream or waits to be sent. -/

namespace Sys2Proof.Machine

/-- Every other move of the block needs the reset not to be asserted (R200). -/
theorem step_of_rst {s : State} (hrst : s.rst = true) : step s = .next s.hardwareReset := by
  obtain ⟨-, hr⟩ | ⟨hrst', -⟩ | ⟨hrst', -⟩ | ⟨hrst', -⟩ := step_cases s
  · exact hr
  all_goals simp [hrst] at hrst'

/-- Settles O4: the state the step leaves is `hardwareReset`, which the statement writes out. -/
theorem hardwareResetRestoresReset : Obligations.HardwareResetRestoresReset :=
  fun _ => step_of_rst

end Sys2Proof.Machine
end
